-- ==== Sys2Proof/Word.lean ====
section
/-! DEFINITION. The word types of the NVE: every value on its ports and in its registers is a whole word
(`20_memory.md` R47), and a floating-point value is held as its bit pattern (`00_scope.md` R8). -/

namespace Sys2Proof

/-- One byte of the byte view of OBUF (`20_memory.md` R47). -/
abbrev Byte := BitVec 8

/-- A 32-bit word: a configuration register, an operand field, an OBUF cell. -/
abbrev Word := BitVec 32

/-- The bit pattern of an IEEE 754 binary32 number, D00's "float" (`40_numerics.md` R80, R81). -/
abbrev F32 := BitVec 32

/-- The bit pattern of an IEEE 754 binary64 number, D00's "float64" (`40_numerics.md` R80, R81). -/
abbrev F64 := BitVec 64

/-- One command word of the command port (`30_encoding.md` R61). -/
abbrev CmdWord := BitVec 96

/-- One response word of the response port (`30_encoding.md` R67). -/
abbrev RespWord := BitVec 64

end Sys2Proof
end

