-- ==== Sys2Proof/Config.lean ====
section
/-! DEFINITION. The build parameters of the NVE (`00_scope.md` R6) and the free values.

A build parameter is fixed when the hardware is built and "a model takes them as arguments". `exec` takes an
instruction and a state only, so the arguments travel as one plain-data record `Build` in the state; no step changes
it. The two function-valued parameters, the numerics record NUM and the random-source record RNG, are named by plain
data: the spec's default, or some other lawful record, whose values are free (opaque constants below). -/

namespace Sys2Proof

/-- An error parameter of a numerics record, as the fraction `num / den`. -/
structure ErrorBound where
  num : Nat
  den : Nat
deriving DecidableEq, Repr

/-- The number an error parameter stands for. -/
def ErrorBound.value (e : ErrorBound) : ℚ := e.num / e.den

/-- The numerics record NUM (`40_numerics.md` R95, R96). -/
inductive NumRecord where
  /-- The default: the correctly rounded sine and power of two. -/
  | correctlyRounded
  /-- Some other record, the `k`-th with the parameters SIN_ERR and EXP2_ERR: only the laws of R95 and R96 are known of
  it. -/
  | other (k : Nat) (sinErr exp2Err : ErrorBound)
deriving DecidableEq, Repr

/-- SIN_ERR of a record (R95); 2^-25 for the default. A bound below 2^-25 is read as 2^-25, which a function that keeps
the lower bound keeps too (DESIGN CHOICE, assumption 6). -/
def NumRecord.sinErr : NumRecord → ℚ
  | .correctlyRounded => 1 / 2 ^ 25
  | .other _ sinErr _ => max sinErr.value (1 / 2 ^ 25)

/-- EXP2_ERR of a record (R96); 2^-24 for the default. A bound below 2^-24 is read as 2^-24, which a function that keeps
the lower bound keeps too (DESIGN CHOICE, assumption 6). -/
def NumRecord.exp2Err : NumRecord → ℚ
  | .correctlyRounded => 1 / 2 ^ 24
  | .other _ _ exp2Err => max exp2Err.value (1 / 2 ^ 24)

/-- The random-source record RNG (`42_oscillator.md` R130, R131). -/
inductive RngRecord where
  /-- The default: the 32-bit Galois LFSR of R131. -/
  | lfsr
  /-- Some other record, the `k`-th: only laws G1 to G3 of R130 are known of it. -/
  | other (k : Nat)
deriving DecidableEq, Repr

/-- The build parameters (`00_scope.md` R6). TRIG_W is not a field: it is fixed at 64. -/
structure Build where
  /-- MAXV, the number of voice slots built. -/
  maxVoices : Nat
  /-- OBUF_WORDS, the number of 32-bit cells of the output-buffer space. -/
  obufWords : Nat
  /-- QDEPTH, the depth of the command queue (`10_state.md` R33). -/
  queueDepth : Nat
  /-- NUM. -/
  num : NumRecord
  /-- RNG. -/
  rng : RngRecord
  /-- NOISE_PER_CHANNEL (`90_conflicts.md` C1). -/
  noisePerChannel : Bool
deriving DecidableEq, Repr

/-- The defaults of the table of `00_scope.md` R6. -/
def Build.default : Build where
  maxVoices := 8
  obufWords := 2 ^ 20
  queueDepth := 16
  num := .correctlyRounded
  rng := .lfsr
  noisePerChannel := false

/-- The constraints of the table of `00_scope.md` R6. -/
def Build.wf (b : Build) : Bool :=
  decide (1 ≤ b.maxVoices) && decide (b.maxVoices ≤ 256) && decide (b.obufWords ≤ 2 ^ 32) && decide (1 ≤ b.queueDepth)

/-- Free value: the SIN32 of the `k`-th record that is not the default, some function that meets the laws of R95 it is
given; none where that record has the default's function (assumption 6). -/
opaque Config.otherSin (laws : (F32 → F32) → Prop) (k : Nat) : Option { f : F32 → F32 // laws f }

/-- Free value: the EXP2_32 of the `k`-th record that is not the default, some function that meets the laws of R96 it is
given; none where that record has the default's function (assumption 6). -/
opaque Config.otherExp2 (laws : (F32 → F32) → Prop) (k : Nat) : Option { f : F32 → F32 // laws f }

/-- Free value: whether the default SIN32 answers -0.0 at -0.0. Both zeros are nearest to sin 0, and law S5 of R95 fixes
the result at +0.0 only (DESIGN CHOICE, assumption 22). -/
opaque Config.sinOfNegZeroIsNeg : Bool

/-- Free value: the next state of a non-default RNG record (assumption 7). -/
opaque Config.otherRngState : Nat → Word → Word

/-- Free value: the sample of a non-default RNG record, before law G2 of R130 is imposed (assumption 7). -/
opaque Config.otherRngSample : Nat → Word → F32

/-- Free value: `trig_ctr` after the NOTE_ON that finds it at 2^64 - 1, which the spec leaves outside itself
(`93_implementation_defined.md` U6; assumption 4). -/
opaque Config.trigCtrPastEnd : Nat → BitVec 64

end Sys2Proof
end

