-- ==== Sys2Proof/Syntax.lean ====
section
/-! DEFINITION. The ten commands of the NVE (`30_encoding.md` R64), one constructor per row of the opcode table, with
the operands of R63 as the whole fields they arrive in. -/

namespace Sys2Proof

/-- One command. `idx` and `sel` operands are unsigned 8-bit numbers, `A` and `B` operands whole 32-bit words
(`30_encoding.md` R61, R63). -/
inductive Instr where
  /-- CFGW: write configuration register `reg` (`45_system_commands.md` R181). -/
  | cfgw (reg : BitVec 8) (value : Word)
  /-- CFGR: read configuration register `reg` (R180). -/
  | cfgr (reg : BitVec 8)
  /-- START: check the configuration and open the render path (R183). -/
  | start
  /-- STOP: leave the render path (R185). -/
  | stop
  /-- CLRERR: clear the sticky error flag (R186). -/
  | clrerr
  /-- SEED: load the random source of slot `voice` (R188). -/
  | seed (voice : BitVec 8) (value : Word)
  /-- VRD: read field `field` of slot `voice` (R190). -/
  | vrd (voice : BitVec 8) (field : BitVec 8)
  /-- NOTE_ON: `note` is an i32, `velocity` the bits of an f32 (`44_pool_mixer.md` R160). -/
  | noteOn (note : Word) (velocity : F32)
  /-- NOTE_OFF: `note` is an i32 (R165). -/
  | noteOff (note : Word)
  /-- RENDER: `frames` and `base` are u32 (R170). -/
  | render (frames : Word) (base : Word)
deriving DecidableEq, Repr

end Sys2Proof
end

