-- ==== Sys2Proof/WellFormed.lean ====
section
/-! DEFINITION. Which commands are well formed: the operand ranges that the opcode table gives beside each field
(`30_encoding.md` R64; the field meanings of `opcode_table.json`).

The widths of the fields are in the types of `Instr`, so every term of `Instr` has an encoding. A term that is not well
formed is still a legal word: it decodes, and executing it raises BAD_REGISTER, BAD_INDEX or BAD_OPERAND
(`60_exceptions.md` R203, R204, R206). -/

namespace Sys2Proof

/-- The operand of CFGW names a writable register, 0x01 to 0x07 (`10_state.md` R20). -/
def Instr.regWritable (reg : BitVec 8) : Bool := decide (1 ≤ reg.toNat) && decide (reg.toNat ≤ 7)

/-- The operand of CFGR names a register, 0x00 to 0x09. -/
def Instr.regReadable (reg : BitVec 8) : Bool := decide (reg.toNat ≤ 9)

/-- The operand of SEED or VRD names a built slot. -/
def Instr.voiceBuilt (b : Build) (voice : BitVec 8) : Bool := decide (voice.toNat < b.maxVoices)

/-- The selector of VRD names a field, 0x00 to 0x09 (`45_system_commands.md` R190). -/
def Instr.fieldNamed (field : BitVec 8) : Bool := decide (field.toNat ≤ 9)

/-- The command's operands are in the ranges the opcode table gives, for the build `b`. -/
def Instr.wellFormed (b : Build) : Instr → Bool
  | .cfgw reg _ => Instr.regWritable reg
  | .cfgr reg => Instr.regReadable reg
  | .start => true
  | .stop => true
  | .clrerr => true
  | .seed voice value => Instr.voiceBuilt b voice && decide (value ≠ 0)
  | .vrd voice field => Instr.voiceBuilt b voice && Instr.fieldNamed field
  | .noteOn _ _ => true
  | .noteOff _ => true
  | .render _ _ => true

end Sys2Proof
end

