-- ==== Sys2Proof/Decode.lean ====
section
/-! DEFINITION. Decoding of command words, total on every 96-bit word and on every byte string, rejecting by name; and
the encoder, written from the same format (`30_encoding.md` R61 to R65). -/

namespace Sys2Proof

/-- The fields of format C (`30_encoding.md` R61). -/
structure Fields where
  op : BitVec 8
  idx : BitVec 8
  sel : BitVec 8
  rsv : BitVec 8
  a : Word
  b : Word
deriving DecidableEq, Repr

/-- The fields of a command word: op 95:88, idx 87:80, sel 79:72, rsv 71:64, A 63:32, B 31:0 (R61). -/
def fieldsOf (w : CmdWord) : Fields where
  op := w.extractLsb' 88 8
  idx := w.extractLsb' 80 8
  sel := w.extractLsb' 72 8
  rsv := w.extractLsb' 64 8
  a := w.extractLsb' 32 32
  b := w.extractLsb' 0 32

/-- The command word with the given fields (R61). -/
def wordOf (f : Fields) : CmdWord := f.op ++ f.idx ++ f.sel ++ f.rsv ++ f.a ++ f.b

/-- Why a word is no command (R65): both raise ILLEGAL_COMMAND. -/
inductive DecodeError where
  /-- The opcode byte is none of the ten. -/
  | unknownOpcode (op : BitVec 8)
  /-- A listed opcode with a non-zero bit in a field the command does not use (R62). -/
  | unusedFieldSet (op : BitVec 8)
  /-- A byte string that is not one 12-byte command word (R47, R61). -/
  | notOneWord (bytes : Nat)
deriving DecidableEq, Repr

/-- What the decoder answers. -/
inductive Decoded where
  | instr (i : Instr)
  | rejected (e : DecodeError)
deriving DecidableEq, Repr

/-- Accept `i` when the fields the command does not use are zero (R62). -/
def acceptIf (unusedZero : Bool) (op : BitVec 8) (i : Instr) : Decoded :=
  if unusedZero then .instr i else .rejected (.unusedFieldSet op)

/-- Decoding by fields: the opcode map of R64 with the unused fields of R62. -/
def decodeFields (f : Fields) : Decoded :=
  if f.op = 0x01#8 then acceptIf (f.sel == 0 && f.rsv == 0 && f.b == 0) f.op (.cfgw f.idx f.a)
  else if f.op = 0x02#8 then acceptIf (f.sel == 0 && f.rsv == 0 && f.a == 0 && f.b == 0) f.op (.cfgr f.idx)
  else if f.op = 0x03#8 then acceptIf (f.idx == 0 && f.sel == 0 && f.rsv == 0 && f.a == 0 && f.b == 0) f.op .start
  else if f.op = 0x04#8 then acceptIf (f.idx == 0 && f.sel == 0 && f.rsv == 0 && f.a == 0 && f.b == 0) f.op .stop
  else if f.op = 0x05#8 then acceptIf (f.idx == 0 && f.sel == 0 && f.rsv == 0 && f.a == 0 && f.b == 0) f.op .clrerr
  else if f.op = 0x06#8 then acceptIf (f.sel == 0 && f.rsv == 0 && f.b == 0) f.op (.seed f.idx f.a)
  else if f.op = 0x07#8 then acceptIf (f.rsv == 0 && f.a == 0 && f.b == 0) f.op (.vrd f.idx f.sel)
  else if f.op = 0x10#8 then acceptIf (f.idx == 0 && f.sel == 0 && f.rsv == 0) f.op (.noteOn f.a f.b)
  else if f.op = 0x11#8 then acceptIf (f.idx == 0 && f.sel == 0 && f.rsv == 0 && f.b == 0) f.op (.noteOff f.a)
  else if f.op = 0x20#8 then acceptIf (f.idx == 0 && f.sel == 0 && f.rsv == 0) f.op (.render f.a f.b)
  else .rejected (.unknownOpcode f.op)

/-- Decode one command word (R64, R65). -/
def decode (w : CmdWord) : Decoded := decodeFields (fieldsOf w)

/-- The bytes of a command word as a host stores it: 12 bytes, bits 7:0 first (`20_memory.md` R47). -/
def bytesOfWord (w : CmdWord) : List Byte := (List.range 12).map (fun k => w.extractLsb' (8 * k) 8)

/-- The little-endian number a byte string stands for (R47). -/
def natOfBytes : List Byte → Nat
  | [] => 0
  | x :: xs => x.toNat + 256 * natOfBytes xs

/-- Decode a byte string: one 12-byte command word, or rejected by name. -/
def decodeBytes (bs : List Byte) : Decoded :=
  if bs.length = 12 then decode (BitVec.ofNat 96 (natOfBytes bs)) else .rejected (.notOneWord bs.length)

/-- The fields of a command, every unused field zero (R62, R64). -/
def Instr.fields : Instr → Fields
  | .cfgw reg value => { op := 0x01, idx := reg, sel := 0, rsv := 0, a := value, b := 0 }
  | .cfgr reg => { op := 0x02, idx := reg, sel := 0, rsv := 0, a := 0, b := 0 }
  | .start => { op := 0x03, idx := 0, sel := 0, rsv := 0, a := 0, b := 0 }
  | .stop => { op := 0x04, idx := 0, sel := 0, rsv := 0, a := 0, b := 0 }
  | .clrerr => { op := 0x05, idx := 0, sel := 0, rsv := 0, a := 0, b := 0 }
  | .seed voice value => { op := 0x06, idx := voice, sel := 0, rsv := 0, a := value, b := 0 }
  | .vrd voice field => { op := 0x07, idx := voice, sel := field, rsv := 0, a := 0, b := 0 }
  | .noteOn note velocity => { op := 0x10, idx := 0, sel := 0, rsv := 0, a := note, b := velocity }
  | .noteOff note => { op := 0x11, idx := 0, sel := 0, rsv := 0, a := note, b := 0 }
  | .render frames base => { op := 0x20, idx := 0, sel := 0, rsv := 0, a := frames, b := base }

/-- The command word of a command (R61, R64). -/
def encode (i : Instr) : CmdWord := wordOf i.fields

/-- The rows of the opcode table, without their operands. -/
inductive Op where
  | cfgw | cfgr | start | stop | clrerr | seed | vrd | noteOn | noteOff | render
deriving DecidableEq, Repr

/-- The row a command belongs to. -/
def Instr.op : Instr → Op
  | .cfgw _ _ => .cfgw
  | .cfgr _ => .cfgr
  | .start => .start
  | .stop => .stop
  | .clrerr => .clrerr
  | .seed _ _ => .seed
  | .vrd _ _ => .vrd
  | .noteOn _ _ => .noteOn
  | .noteOff _ => .noteOff
  | .render _ _ => .render

/-- The `match` column of R64, digit for digit. -/
def Op.pattern : Op → CmdWord
  | .cfgw => 0x010000000000000000000000
  | .cfgr => 0x020000000000000000000000
  | .start => 0x030000000000000000000000
  | .stop => 0x040000000000000000000000
  | .clrerr => 0x050000000000000000000000
  | .seed => 0x060000000000000000000000
  | .vrd => 0x070000000000000000000000
  | .noteOn => 0x100000000000000000000000
  | .noteOff => 0x110000000000000000000000
  | .render => 0x200000000000000000000000

/-- The `mask` column of R64, digit for digit. -/
def Op.mask : Op → CmdWord
  | .cfgw => 0xFF00FFFF00000000FFFFFFFF
  | .cfgr => 0xFF00FFFFFFFFFFFFFFFFFFFF
  | .start => 0xFFFFFFFFFFFFFFFFFFFFFFFF
  | .stop => 0xFFFFFFFFFFFFFFFFFFFFFFFF
  | .clrerr => 0xFFFFFFFFFFFFFFFFFFFFFFFF
  | .seed => 0xFF00FFFF00000000FFFFFFFF
  | .vrd => 0xFF0000FFFFFFFFFFFFFFFFFF
  | .noteOn => 0xFFFFFFFF0000000000000000
  | .noteOff => 0xFFFFFFFF00000000FFFFFFFF
  | .render => 0xFFFFFFFF0000000000000000

/-- "A word w selects the row iff w AND mask = match" (R64). -/
def Op.selects (o : Op) (w : CmdWord) : Bool := w &&& o.mask == o.pattern

/-- What the decoder reads from the table's numbering: the 96-bit command word is the one word of an instruction, so
its bit 0 is the table's bit 0; it goes to the decoder as the 12 bytes a host stores (R47). -/
def decodeTableWord (nbits w : Nat) : Option Instr :=
  match decodeBytes (bytesOfWord (BitVec.ofNat 96 (w % 2 ^ nbits))) with
  | .instr i => some i
  | .rejected _ => none

end Sys2Proof
end

