-- ==== Sys2Proof/Machine/State.lean ====
section
/-! DEFINITION. The state of the NVE (`10_state.md` R10 to R37), as plain data; the ways a step can stop; the state
after reset (R36). -/

namespace Sys2Proof.Machine

/-- The two modes (`60_exceptions.md` R220). -/
inductive Mode where
  | config
  | run
deriving DecidableEq, Repr

/-- One slot of the voice file (`10_state.md` R11 to R18). Its waveform is the one register `cfg.WAVEFORM` (R19). -/
structure Voice where
  /-- R12: Sounding (true) or Idle (false). -/
  active : Bool
  /-- R13: the bound note, an i32; -1 when Idle. -/
  note : Word
  /-- R14: the velocity of the last trigger, f32 bits. -/
  velocity : F32
  /-- R15: the frequency in Hz, f32 bits. -/
  frequency : F32
  /-- R16: the phase accumulator in radians, f64 bits. -/
  phase : F64
  /-- R17: the sample rate captured at the last trigger, f32 bits. -/
  sampleRate : F32
  /-- R18: the trigger stamp, u64. -/
  trig : BitVec 64
deriving DecidableEq, Repr

/-- The Idle reset state of a slot (R36). -/
def Voice.idle : Voice where
  active := false
  note := 0xFFFFFFFF
  velocity := 0
  frequency := 0
  phase := 0
  sampleRate := 0
  trig := 0

/-- The seven writable configuration registers (R20, R22 to R28). STATUS, MAX_VOICES and OBUF_SIZE are views (R21,
R29), not storage. -/
structure ConfigRegs where
  /-- R22, u32. -/
  voiceCount : Word
  /-- R23, u32. -/
  waveform : Word
  /-- R24, f32 bits. -/
  gain : F32
  /-- R25, i32. -/
  refNote : Word
  /-- R26, f32 bits. -/
  refFreq : F32
  /-- R27, f32 bits. -/
  sampleRate : F32
  /-- R28, u32. -/
  channels : Word
deriving DecidableEq, Repr

/-- The reset values of the writable registers (R36). -/
def ConfigRegs.reset : ConfigRegs where
  voiceCount := 1
  waveform := 0
  gain := 0
  refNote := 69
  refFreq := 0x43DC0000
  sampleRate := 0
  channels := 1

/-- The nine faults of the NVE (`60_exceptions.md` R200). Raising one is an ordinary next state: it sets `err`, may set
`errcode`, and answers with the code (R210). -/
inductive FaultCode where
  | illegalCommand
  | illegalInMode
  | badRegister
  | badIndex
  | badOperand
  | obufRange
  | cfgSampleRate
  | cfgVoiceCount
  | cfgWaveform
deriving DecidableEq, Repr

/-- The ways the model stops with a fault. None of them is a fault of the NVE: those are next states (R210). -/
inductive Fault where
  /-- Raised by NOTE_ON when no slot lies below `cfg.VOICE_COUNT`, so that the dispatch of `44_pool_mixer.md` R160 has no
  slot to choose. Safe: in RUN `1 ≤ cfg.VOICE_COUNT ≤ MAXV` (`60_exceptions.md` R222), so no run from reset meets it. -/
  | noVoiceSlot
deriving DecidableEq, Repr

/-- The ways the model refuses a command. -/
inductive Refusal where
  /-- Raised by `exec` for a command that has no meaning yet. Safe. No arm raises it. -/
  | notModelled (mnemonic : String)
  /-- Raised by RENDER when the oscillator would be evaluated with a selector of 5 or more
  (`93_implementation_defined.md` U8: "unreachable", "a refusal"). Safe: in RUN `cfg.WAVEFORM ≤ 4`
  (`60_exceptions.md` R211), so no run from reset meets it. -/
  | unsupportedWaveform
deriving DecidableEq, Repr

/-- The byte view of OBUF (`20_memory.md` R40, R47): cell `a` is bytes `4a` to `4a+3`. Addresses strictly rise, and no
entry equals what an unlisted address reads as. -/
abbrev Memory := List Host.Cell

/-- What an OBUF byte that nothing has listed reads as: the zero of a cleared buffer. DESIGN CHOICE (assumption 2): the
spec says "not reset: owned by the host, any value" (`10_state.md` R36). -/
def unlistedByte : Byte := 0

/-- The state: what `10_state.md` R10 lists, the command queue of R33 (a), the output buffer of `20_memory.md` R40, the
stream of responses, the build parameters, and one counter of the model's own. -/
structure State where
  /-- The build parameters (`00_scope.md` R6), the model's arguments; no step changes them. -/
  build : Build
  /-- The voice file `V[0 .. MAXV-1]` (R11). -/
  voices : List Voice
  /-- The random-source file `rng[0 .. MAXV-1]` (R32). -/
  rng : List Word
  /-- The writable configuration registers (R20). -/
  cfg : ConfigRegs
  /-- R30. -/
  mode : Mode
  /-- R30, the sticky error flag. -/
  err : Bool
  /-- R30, the code of the first fault since reset or the last CLRERR. -/
  errcode : BitVec 8
  /-- R31, the trigger counter, u64. -/
  trigCtr : BitVec 64
  /-- The output buffer (`20_memory.md` R40), owned by the host. -/
  obuf : Memory
  /-- The command queue (R33 (a)), oldest first. -/
  queue : List CmdWord
  /-- The words the response port has emitted since reset, oldest first (`30_encoding.md` R60, R67). -/
  responses : List RespWord
  /-- The model's own: how many free values have been used (assumption 4). -/
  freeUsed : Nat
deriving DecidableEq, Repr

/-- The state after hardware reset of the build `b`, with an OBUF that lists nothing and an empty queue (R36;
`70_reset_and_hazards.md` R230): "rng[i] = i + 1", every slot Idle. -/
def State.resetOf (b : Build) : State where
  build := b
  voices := List.replicate b.maxVoices Voice.idle
  rng := (List.range b.maxVoices).map (fun i => BitVec.ofNat 32 (i + 1))
  cfg := ConfigRegs.reset
  mode := .config
  err := false
  errcode := 0
  trigCtr := 0
  obuf := []
  queue := []
  responses := []
  freeUsed := 0

/-- The machine right after reset, with the default build parameters. -/
def State.reset : State := State.resetOf Build.default

end Sys2Proof.Machine
end

