-- ==== Sys2Proof/Machine/Float.lean ====
section
/-! DEFINITION. IEEE 754 arithmetic by exact numbers (`40_numerics.md` R81, R82).

Every finite number of a format is a whole number of its least positive number, its *quantum*: 2^-149 in binary32,
2^-1074 in binary64. A finite value is held as its sign and that natural number, so that sums, products, quotients and
remainders are computed exactly in the naturals and rounded once, by the one function `Fmt.roundMag`. -/

namespace Sys2Proof.Machine

/-- A binary format: precision (significand bits with the hidden one), exponent bits, and the exponent of its quantum
`2^-quantum` (R81). -/
structure Fmt where
  prec : Nat
  expBits : Nat
  quantum : Nat
deriving DecidableEq, Repr

/-- binary32 (R81): 23 fraction bits, 8 exponent bits, bias 127. -/
def fmt32 : Fmt := { prec := 24, expBits := 8, quantum := 149 }

/-- binary64 (R81): 52 fraction bits, 11 exponent bits, bias 1023. -/
def fmt64 : Fmt := { prec := 53, expBits := 11, quantum := 1074 }

/-- The value of the sign bit. -/
def Fmt.signMag (f : Fmt) : Nat := 2 ^ (f.prec - 1 + f.expBits)

/-- The magnitude bits of infinity: exponent all ones, fraction zero. -/
def Fmt.infMag (f : Fmt) : Nat := (2 ^ f.expBits - 1) * 2 ^ (f.prec - 1)

/-- The canonical quiet NaN (R82 (d)). -/
def Fmt.canonicalNan (f : Fmt) : Nat := f.infMag + 2 ^ (f.prec - 2)

/-- What a bit pattern stands for: a NaN, an infinity, or a sign and a number of quanta. -/
inductive FVal where
  | nan
  | inf (neg : Bool)
  | fin (neg : Bool) (quanta : Nat)
deriving DecidableEq, Repr

/-- The quanta of the finite magnitude bits `m`: the fraction where the exponent field is 0 (zero and subnormals), else
the fraction with its hidden one, shifted by the exponent field less one. -/
def Fmt.quanta (f : Fmt) (m : Nat) : Nat :=
  if m / 2 ^ (f.prec - 1) = 0 then m
  else (m % 2 ^ (f.prec - 1) + 2 ^ (f.prec - 1)) * 2 ^ (m / 2 ^ (f.prec - 1) - 1)

/-- The value of a bit pattern (R81). -/
def Fmt.unpack (f : Fmt) (bits : Nat) : FVal :=
  if f.infMag < bits % f.signMag then .nan
  else if bits % f.signMag = f.infMag then .inf (decide (f.signMag ≤ bits))
  else .fin (decide (f.signMag ≤ bits)) (f.quanta (bits % f.signMag))

/-- The pattern with a sign and magnitude bits. -/
def Fmt.pack (f : Fmt) (neg : Bool) (mag : Nat) : Nat := if neg then f.signMag + mag else mag

/-- The exponent shift of a magnitude of `q` whole quanta: 0 while `q` fits the precision. -/
def Fmt.shift (f : Fmt) (q : Nat) : Nat := if q < 2 ^ f.prec then 0 else Nat.log2 q - (f.prec - 1)

/-- `n / d` rounded to an integer, to nearest, ties to even. -/
def roundNearestEven (n d : Nat) : Nat :=
  if d < 2 * (n % d) ∨ (d = 2 * (n % d) ∧ n / d % 2 = 1) then n / d + 1 else n / d

/-- The magnitude bits of the number of the format nearest to `n / d` quanta, ties to even; infinity on overflow;
gradual underflow (R82 (a), (b)). A significand that rounds up to the next power of two carries into the exponent field
by the same sum. -/
def Fmt.roundMag (f : Fmt) (n d : Nat) : Nat :=
  min f.infMag (f.shift (n / d) * 2 ^ (f.prec - 1) + roundNearestEven n (d * 2 ^ f.shift (n / d)))

/-- The pattern of a signed exact result of `n / d` quanta, rounded once (R82 (a)). -/
def Fmt.roundTo (f : Fmt) (neg : Bool) (n d : Nat) : Nat := f.pack neg (f.roundMag n d)

/-- IEEE addition (R84, R85), with the zero signs of R82 (e) and the canonical NaN of R82 (d). -/
def Fmt.addBits (f : Fmt) (x y : Nat) : Nat :=
  match f.unpack x, f.unpack y with
  | .nan, _ => f.canonicalNan
  | .inf _, .nan => f.canonicalNan
  | .inf a, .inf b => if a = b then f.pack a f.infMag else f.canonicalNan
  | .inf a, .fin _ _ => f.pack a f.infMag
  | .fin _ _, .nan => f.canonicalNan
  | .fin _ _, .inf b => f.pack b f.infMag
  | .fin a m, .fin b n =>
    if a = b then f.roundTo a (m + n) 1
    else if m = n then f.pack false 0
    else if n < m then f.roundTo a (m - n) 1
    else f.roundTo b (n - m) 1

/-- Sign inversion of a non-NaN (R87). -/
def Fmt.negBits (f : Fmt) (x : Nat) : Nat :=
  match f.unpack x with
  | .nan => f.canonicalNan
  | _ => f.pack (decide (x < f.signMag)) (x % f.signMag)

/-- IEEE subtraction: the sum with the inverse (R84). -/
def Fmt.subBits (f : Fmt) (x y : Nat) : Nat := f.addBits x (f.negBits y)

/-- Magnitude (R87). -/
def Fmt.absBits (f : Fmt) (x : Nat) : Nat :=
  match f.unpack x with
  | .nan => f.canonicalNan
  | _ => x % f.signMag

/-- IEEE multiplication (R84, R85): the product of two counts of quanta is a count of squared quanta. -/
def Fmt.mulBits (f : Fmt) (x y : Nat) : Nat :=
  match f.unpack x, f.unpack y with
  | .nan, _ => f.canonicalNan
  | .inf _, .nan => f.canonicalNan
  | .inf a, .inf b => f.pack (a != b) f.infMag
  | .inf a, .fin b n => if n = 0 then f.canonicalNan else f.pack (a != b) f.infMag
  | .fin _ _, .nan => f.canonicalNan
  | .fin a m, .inf b => if m = 0 then f.canonicalNan else f.pack (a != b) f.infMag
  | .fin a m, .fin b n => f.roundTo (a != b) (m * n) (2 ^ f.quantum)

/-- IEEE division (R84, R85). -/
def Fmt.divBits (f : Fmt) (x y : Nat) : Nat :=
  match f.unpack x, f.unpack y with
  | .nan, _ => f.canonicalNan
  | .inf _, .nan => f.canonicalNan
  | .inf _, .inf _ => f.canonicalNan
  | .inf a, .fin b _ => f.pack (a != b) f.infMag
  | .fin _ _, .nan => f.canonicalNan
  | .fin a _, .inf b => f.pack (a != b) 0
  | .fin a m, .fin b n =>
    if n = 0 then (if m = 0 then f.canonicalNan else f.pack (a != b) f.infMag)
    else f.roundTo (a != b) (m * 2 ^ f.quantum) n

/-- The exact truncated remainder, with the sign of `x` (R86). -/
def Fmt.fmodBits (f : Fmt) (x y : Nat) : Nat :=
  match f.unpack x, f.unpack y with
  | .nan, _ => f.canonicalNan
  | .inf _, _ => f.canonicalNan
  | .fin _ _, .nan => f.canonicalNan
  | .fin _ _, .inf _ => x
  | .fin a m, .fin _ n => if n = 0 then f.canonicalNan else f.roundTo a (m % n) 1

/-- Conversion between formats: the value of `x` in `f`, rounded once into `g` (R88, R89). -/
def Fmt.convertBits (f g : Fmt) (x : Nat) : Nat :=
  match f.unpack x with
  | .nan => g.canonicalNan
  | .inf a => g.pack a g.infMag
  | .fin a m => g.roundTo a (m * 2 ^ g.quantum) (2 ^ f.quantum)

end Sys2Proof.Machine
end

