-- ==== Sys2Proof/Machine/Numerics.lean ====
section
/-! DEFINITION. The arithmetic primitives of `40_numerics.md` on bit patterns: constants (R83), basic operations (R84 to
R91), folding and ramp helpers (R92 to R94). No operation traps and none writes a flag (R82 (c)). -/

namespace Sys2Proof.Machine

/-- R83: the nearest f64 to π. -/
def pi64 : F64 := 0x400921FB54442D18
/-- R83: the nearest f64 to 2π. -/
def twoPi64 : F64 := 0x401921FB54442D18
/-- R83: the nearest f32 to 2π. -/
def twoPi32 : F32 := 0x40C90FDB
/-- R83: 1.0. -/
def one32 : F32 := 0x3F800000
/-- R83: 2.0. -/
def two32 : F32 := 0x40000000
/-- R83: 12.0. -/
def twelve32 : F32 := 0x41400000
/-- R83: 2.0 in f64. -/
def two64 : F64 := 0x4000000000000000
/-- R82 (d): the canonical quiet NaN of f32. -/
def nan32 : F32 := 0x7FC00000
/-- R82 (d): the canonical quiet NaN of f64. -/
def nan64 : F64 := 0x7FF8000000000000
/-- Plus infinity in f32. -/
def inf32 : F32 := 0x7F800000

/-- The value of an f32 (R81). -/
def val32 (x : F32) : FVal := fmt32.unpack x.toNat
/-- The value of an f64 (R81). -/
def val64 (x : F64) : FVal := fmt64.unpack x.toNat

/-- R81: `isNaN`. -/
def isNaN32 (x : F32) : Bool := match val32 x with | .nan => true | .inf _ => false | .fin _ _ => false
/-- R81: `isFinite`. -/
def isFinite32 (x : F32) : Bool := match val32 x with | .nan => false | .inf _ => false | .fin _ _ => true
/-- R81: `isFinite`, f64. -/
def isFinite64 (x : F64) : Bool := match val64 x with | .nan => false | .inf _ => false | .fin _ _ => true

/-- R84. -/
def add32 (x y : F32) : F32 := BitVec.ofNat 32 (fmt32.addBits x.toNat y.toNat)
/-- R84. -/
def sub32 (x y : F32) : F32 := BitVec.ofNat 32 (fmt32.subBits x.toNat y.toNat)
/-- R84. -/
def mul32 (x y : F32) : F32 := BitVec.ofNat 32 (fmt32.mulBits x.toNat y.toNat)
/-- R84. -/
def div32 (x y : F32) : F32 := BitVec.ofNat 32 (fmt32.divBits x.toNat y.toNat)
/-- R86. -/
def fmod32 (x y : F32) : F32 := BitVec.ofNat 32 (fmt32.fmodBits x.toNat y.toNat)
/-- R87. -/
def abs32 (x : F32) : F32 := BitVec.ofNat 32 (fmt32.absBits x.toNat)
/-- R87. -/
def neg32 (x : F32) : F32 := BitVec.ofNat 32 (fmt32.negBits x.toNat)
/-- R85. -/
def add64 (x y : F64) : F64 := BitVec.ofNat 64 (fmt64.addBits x.toNat y.toNat)
/-- R85. -/
def mul64 (x y : F64) : F64 := BitVec.ofNat 64 (fmt64.mulBits x.toNat y.toNat)
/-- R85. -/
def div64 (x y : F64) : F64 := BitVec.ofNat 64 (fmt64.divBits x.toNat y.toNat)
/-- R86. -/
def fmod64 (x y : F64) : F64 := BitVec.ofNat 64 (fmt64.fmodBits x.toNat y.toNat)
/-- R88: exact. -/
def widen (x : F32) : F64 := BitVec.ofNat 64 (fmt32.convertBits fmt64 x.toNat)
/-- R89: rounds to nearest even. -/
def narrow (x : F64) : F32 := BitVec.ofNat 32 (fmt64.convertBits fmt32 x.toNat)
/-- R90: the nearest f32 to an integer. -/
def i2f32 (k : Int) : F32 := BitVec.ofNat 32 (fmt32.roundTo (decide (k < 0)) (k.natAbs * 2 ^ fmt32.quantum) 1)

/-- `x < y` of two f32 values by IEEE: false when either is NaN; the two zeros are equal. -/
def lt32 (x y : F32) : Bool :=
  match val32 x, val32 y with
  | .nan, _ => false
  | .inf _, .nan => false
  | .inf a, .inf b => a && !b
  | .inf a, .fin _ _ => a
  | .fin _ _, .nan => false
  | .fin _ _, .inf b => !b
  | .fin a m, .fin b n =>
    match a, b with
    | true, true => decide (n < m)
    | true, false => decide (0 < m + n)
    | false, true => false
    | false, false => decide (m < n)

/-- R91: the IEEE comparison `x ≥ 0`. -/
def ge0_32 (x : F32) : Bool :=
  match val32 x with
  | .nan => false
  | .inf a => !a
  | .fin a m => !a || decide (m = 0)

/-- R92. -/
def clamp01_32 (x : F32) : F32 :=
  if isNaN32 x then nan32
  else if lt32 x 0 then 0
  else if lt32 one32 x then one32
  else x

/-- R93: the three operations in the order the pseudocode gives. -/
def pingpong32 (x l : F32) : F32 := sub32 l (abs32 (sub32 (fmod32 x (mul32 two32 l)) l))

/-- R94. -/
def inverseLerp32 (a b x : F32) : F32 := clamp01_32 (div32 (sub32 x a) (sub32 b a))

end Sys2Proof.Machine
end

