-- ==== Sys2Proof/Machine/Elementary.lean ====
section
/-! DEFINITION. The numerics record NUM (`40_numerics.md` R95, R96): SIN32 and EXP2_32, for the default record and for
any other.

The default record is the correctly rounded function. It is computed by a Taylor polynomial in fixed point of 256
fraction bits, in Horner form, and rounded once by `Fmt.roundTo`. The error before the rounding is below 2^-180 of the
value's scale, far under the distance of any f32 argument's result to a rounding boundary; assumption 5 says what is
presumed there. -/

namespace Sys2Proof.Machine

/-- Fraction bits of the fixed-point evaluation. -/
def fixBits : Nat := 256

/-- 2π in units of 2^-405, rounded down (PRESUMED, assumption 5: the digits of π are not in the source). -/
def twoPiFix : Nat :=
  0xc90fdaa22168c234c4c6628b80dc1cd129024e088a67cc74020bbea63b139b22514a08798e3404ddef9519b3cd3a431b302b0a

/-- ln 2 in units of 2^-256, rounded down (PRESUMED, assumption 5). -/
def ln2Fix : Nat := 0xb17217f7d1cf79abc9e3b39803f2f6af40f343267298b62d8a0d175b8baafa2b

/-- Horner steps of `sin x / x = 1 - x²/(2·3)·(1 - x²/(4·5)·(1 - …))`, from term `k` down to term 1, on the square
`y / 2^t2` of the argument, in units of 2^-256. -/
def sinHorner (y t2 : Nat) : Nat → Int → Int
  | 0, s => s
  | k + 1, s => sinHorner y t2 k (2 ^ fixBits - ((y : Int) * s) / (((2 ^ t2 * ((2 * k + 2) * (2 * k + 3)) : Nat)) : Int))

/-- `sin x / x` for `x = n / 2^t`, by forty terms, in units of 2^-256. -/
def sincFix (n t : Nat) : Int := sinHorner (n * n) (2 * t) 40 (2 ^ fixBits)

/-- The sine of `n / 2^t` as sign and rounded magnitude, `t ≥ 149`; the magnitude never exceeds 1. -/
def sinPattern (neg : Bool) (n t : Nat) : Nat :=
  fmt32.roundTo (neg != decide (sincFix n t < 0))
    (min (n * (sincFix n t).natAbs) (2 ^ (fixBits + t))) (2 ^ (fixBits + t - fmt32.quantum))

/-- The default SIN32: correctly rounded (R95). At -0.0 the two zeros are equally near, and the sign of the result is a
free value (DESIGN CHOICE, assumption 22); at +0.0 it is +0.0 (law S5). An argument of magnitude 7 or more, which the NVE never passes
(`42_oscillator.md` R121), is first reduced modulo 2π. -/
def sinRounded (x : F32) : F32 :=
  match val32 x with
  | .nan => nan32
  | .inf _ => nan32
  | .fin neg m =>
    if m = 0 then (if neg && Config.sinOfNegZeroIsNeg then 0x80000000 else 0)
    else if m < 7 * 2 ^ fmt32.quantum then BitVec.ofNat 32 (sinPattern neg m fmt32.quantum)
    else BitVec.ofNat 32 (sinPattern neg (m * 2 ^ fixBits % twoPiFix) (fmt32.quantum + fixBits))

/-- Horner steps of `e^y = 1 + y/1·(1 + y/2·(1 + …))`, from term `k` down to term 1, in units of 2^-256. -/
def expHorner (y : Nat) : Nat → Nat → Nat
  | 0, s => s
  | k + 1, s => expHorner y k (2 ^ fixBits + y * s / (2 ^ fixBits * (k + 1)))

/-- `2^f` for the fraction `f = r / 2^149`, by sixty terms, in units of 2^-256. -/
def exp2Frac (r : Nat) : Nat := expHorner (r * ln2Fix / 2 ^ fmt32.quantum) 60 (2 ^ fixBits)

/-- The default EXP2_32: correctly rounded (R96). A finite argument is `k + f` with a whole `k` and `0 ≤ f < 1`. -/
def exp2Rounded (x : F32) : F32 :=
  match val32 x with
  | .nan => nan32
  | .inf neg => if neg then 0 else inf32
  | .fin false m =>
    if 128 * 2 ^ fmt32.quantum ≤ m then inf32
    else BitVec.ofNat 32 (fmt32.roundTo false
      (exp2Frac (m % 2 ^ fmt32.quantum) * 2 ^ (m / 2 ^ fmt32.quantum) * 2 ^ fmt32.quantum) (2 ^ fixBits))
  | .fin true m =>
    if 160 * 2 ^ fmt32.quantum < m then 0
    else if m % 2 ^ fmt32.quantum = 0 then
      BitVec.ofNat 32 (fmt32.roundTo false (2 ^ fmt32.quantum) (2 ^ (m / 2 ^ fmt32.quantum)))
    else
      BitVec.ofNat 32 (fmt32.roundTo false
        (exp2Frac (2 ^ fmt32.quantum - m % 2 ^ fmt32.quantum) * 2 ^ fmt32.quantum)
        (2 ^ (fixBits + (m / 2 ^ fmt32.quantum + 1))))

/-! ### The laws, and a record other than the default -/

/-- The number a finite f32 stands for; 0 for the others. -/
def value32 (x : F32) : ℚ :=
  match val32 x with
  | .nan => 0
  | .inf _ => 0
  | .fin neg q => (if neg then -(q : ℚ) else q) / 2 ^ fmt32.quantum

/-- An f32 of magnitude at most 1. -/
def magLeOne (y : F32) : Bool := decide (y.toNat % fmt32.signMag ≤ one32.toNat)

/-- Laws S2 to S5 of R95, with `err` for SIN_ERR; S1 is that `f` is a function. -/
def SinLaws (err : ℚ) (f : F32 → F32) : Prop :=
  (∀ x, isFinite32 x = true → magLeOne (f x) = true) ∧
  (∀ x, isFinite32 x = false → isNaN32 (f x) = true) ∧
  (∀ x : F32, x.toNat ≤ twoPi32.toNat → |((value32 (f x) : ℚ) : ℝ) - Real.sin ((value32 x : ℚ) : ℝ)| ≤ (err : ℝ)) ∧
  f 0 = 0

/-- Laws E2 to E6 of R96, with `err` for EXP2_ERR, in that order; E1 is that `f` is a function. -/
def Exp2Laws (err : ℚ) (f : F32 → F32) : Prop :=
  (f 0 = one32 ∧ f 0x80000000 = one32) ∧
  (∀ x, isFinite32 x = true → -126 ≤ value32 x → value32 x < 128 →
    isFinite32 (f x) = true ∧ |((value32 (f x) : ℚ) : ℝ) / (2 : ℝ) ^ ((value32 x : ℚ) : ℝ) - 1| ≤ (err : ℝ)) ∧
  ((∀ x, isNaN32 x = false → (f x).toNat ≤ inf32.toNat) ∧
    (∀ x, isFinite32 x = true → 128 ≤ value32 x → f x = inf32) ∧ f inf32 = inf32 ∧ f 0xFF800000 = 0 ∧
    (∀ x, isFinite32 x = true → value32 x < -126 →
      isFinite32 (f x) = true ∧ value32 (f x) ≤ 1 / 2 ^ 126 * (1 + err))) ∧
  (∀ x, isNaN32 x = true → isNaN32 (f x) = true) ∧
  (∀ x y, isNaN32 x = false → isNaN32 y = false → lt32 y x = false → lt32 (f y) (f x) = false)

/-- SIN32 of the NUM record (R95). Another record is a free value: any function that meets laws S1 to S5 with the record's
SIN_ERR, the default's among them. -/
def sin32 (num : NumRecord) (x : F32) : F32 :=
  match num with
  | .correctlyRounded => sinRounded x
  | .other k s e =>
    match Config.otherSin (SinLaws (NumRecord.other k s e).sinErr) k with
    | some f => f.1 x
    | none => sinRounded x

/-- EXP2_32 of the NUM record (R96). Another record is a free value: any function that meets laws E1 to E6 with the
record's EXP2_ERR, the default's among them. -/
def exp2_32 (num : NumRecord) (x : F32) : F32 :=
  match num with
  | .correctlyRounded => exp2Rounded x
  | .other k s e =>
    match Config.otherExp2 (Exp2Laws (NumRecord.other k s e).exp2Err) k with
    | some f => f.1 x
    | none => exp2Rounded x

end Sys2Proof.Machine
end

