-- ==== Sys2Proof/Machine/Random.lean ====
section
/-! DEFINITION. The random source (`42_oscillator.md` R129 to R131): RNG_NEXT of the default record, an LFSR, and of any
other. -/

namespace Sys2Proof.Machine

/-- One step of the Galois LFSR (R131): shift right, and feed back `0x80200003` when the bit shifted out is 1. -/
def lfsrStep (s : Word) : Word := if s.getLsbD 0 then (s >>> 1) ^^^ 0x80200003#32 else s >>> 1

/-- `n` steps from `s`, the output bits collected below `k`, the first output bit the highest (R131). -/
def lfsrDraw : Nat → Word → Nat → Word × Nat
  | 0, s, k => (s, k)
  | n + 1, s, k => lfsrDraw n (lfsrStep s) (2 * k + (s.getLsbD 0).toNat)

/-- `k / 2^24` as an f32: exact for `k < 2^24` (R131). -/
def unitFraction (k : Nat) : F32 := BitVec.ofNat 32 (fmt32.roundTo false (k * 2 ^ (fmt32.quantum - 24)) 1)

/-- A finite f32 `u` with `+0.0 ≤ u ≤ 1.0` by IEEE: law G2 of R130. -/
def inUnit (u : F32) : Bool := decide (u.toNat ≤ one32.toNat) || u == 0x80000000#32

/-- RNG_NEXT (R130, R131): the new state and the sample. Of a record other than the default only laws G1 to G3 are
known: both results are free values, the sample held to G2. -/
def rngNext (rng : RngRecord) (r : Word) : Word × F32 :=
  match rng with
  | .lfsr => ((lfsrDraw 24 r 0).1, unitFraction (lfsrDraw 24 r 0).2)
  | .other k =>
    (Config.otherRngState k r, if inUnit (Config.otherRngSample k r) then Config.otherRngSample k r else 0)

end Sys2Proof.Machine
end

