-- ==== Sys2Proof/Machine/Operands.lean ====
section
/-! DEFINITION. How the operands of a command are read (`30_encoding.md` R63): register numbers, voice field selectors,
waveform kinds, notes. -/

namespace Sys2Proof.Machine

/-- The ten configuration registers (`10_state.md` R20). -/
inductive CfgReg where
  | status | voiceCount | waveform | gain | refNote | refFreq | sampleRate | channels | maxVoices | obufSize
deriving DecidableEq, Repr

/-- The register with number `reg`; none above 0x09 (R20). -/
def cfgRegOf (reg : BitVec 8) : Option CfgReg :=
  if reg = 0x00#8 then some .status
  else if reg = 0x01#8 then some .voiceCount
  else if reg = 0x02#8 then some .waveform
  else if reg = 0x03#8 then some .gain
  else if reg = 0x04#8 then some .refNote
  else if reg = 0x05#8 then some .refFreq
  else if reg = 0x06#8 then some .sampleRate
  else if reg = 0x07#8 then some .channels
  else if reg = 0x08#8 then some .maxVoices
  else if reg = 0x09#8 then some .obufSize
  else none

/-- The access column of R20: STATUS, MAX_VOICES and OBUF_SIZE are read-only. -/
def CfgReg.writable : CfgReg → Bool
  | .status => false
  | .voiceCount => true
  | .waveform => true
  | .gain => true
  | .refNote => true
  | .refFreq => true
  | .sampleRate => true
  | .channels => true
  | .maxVoices => false
  | .obufSize => false

/-- The ten voice field selectors (`45_system_commands.md` R190). -/
inductive VoiceField where
  | active | note | velocity | frequency | phaseLo | phaseHi | sampleRate | trigLo | trigHi | rng
deriving DecidableEq, Repr

/-- The field with selector `sel`; none above 0x09 (R190). -/
def voiceFieldOf (sel : BitVec 8) : Option VoiceField :=
  if sel = 0x00#8 then some .active
  else if sel = 0x01#8 then some .note
  else if sel = 0x02#8 then some .velocity
  else if sel = 0x03#8 then some .frequency
  else if sel = 0x04#8 then some .phaseLo
  else if sel = 0x05#8 then some .phaseHi
  else if sel = 0x06#8 then some .sampleRate
  else if sel = 0x07#8 then some .trigLo
  else if sel = 0x08#8 then some .trigHi
  else if sel = 0x09#8 then some .rng
  else none

/-- The five waveform kinds (`10_state.md` R23): "a closed, fixed set". -/
inductive Waveform where
  | sine | square | triangle | sawtooth | noise
deriving DecidableEq, Repr

/-- The kind that `cfg.WAVEFORM` encodes, read on all 32 bits; none from 5 up (R23). -/
def waveformOf (w : Word) : Option Waveform :=
  if w = 0#32 then some .sine
  else if w = 1#32 then some .square
  else if w = 2#32 then some .triangle
  else if w = 3#32 then some .sawtooth
  else if w = 4#32 then some .noise
  else none

/-- The exact difference of two i32 notes (`40_numerics.md` R97 (a)). -/
def noteDifference (note ref : Word) : Int := note.toInt - ref.toInt

/-- The index of the cell of frame `f`, channel `c` of a RENDER, computed without wrap-around (`20_memory.md` R44). -/
def cellIndex (base channels f c : Nat) : Nat := base + f * channels + c

/-- The first cell index past a RENDER's range, `need` of `20_memory.md` R45. -/
def renderNeed (frames base channels : Word) : Nat := base.toNat + frames.toNat * channels.toNat

end Sys2Proof.Machine
end

