-- ==== Sys2Proof/Machine/Flags.lean ====
section
/-! DEFINITION. The flags `mode`, `err`, `errcode`, their view in STATUS, and the response word (`10_state.md` R21, R30;
`30_encoding.md` R67; `60_exceptions.md` R200). No command writes a flag as a side effect of a computation. -/

namespace Sys2Proof.Machine

/-- The code of a fault (`60_exceptions.md` R200). -/
def FaultCode.code : FaultCode → BitVec 8
  | .illegalCommand => 0x01
  | .illegalInMode => 0x02
  | .badRegister => 0x03
  | .badIndex => 0x04
  | .badOperand => 0x05
  | .obufRange => 0x06
  | .cfgSampleRate => 0x10
  | .cfgVoiceCount => 0x11
  | .cfgWaveform => 0x12

/-- The code of a completed command (R200). -/
def okCode : BitVec 8 := 0x00

/-- The response word: code 63:56, zero 55:32, data 31:0 (`30_encoding.md` R67). -/
def responseWord (code : BitVec 8) (data : Word) : RespWord := code ++ 0#24 ++ data

/-- Bit 0 of STATUS (R21). -/
def Mode.bit : Mode → BitVec 1
  | .config => 0
  | .run => 1

/-- The view STATUS (`10_state.md` R21): RUN bit 0, ERR bit 1, zero 7:2, ERRCODE 15:8, zero 31:16. -/
def statusWord (mode : Mode) (err : Bool) (errcode : BitVec 8) : Word :=
  0#16 ++ errcode ++ 0#6 ++ BitVec.ofBool err ++ mode.bit

/-- `errcode` after a fault with code `c`: written while `err` is clear, kept while it is set (R210). -/
def errcodeAfter (err : Bool) (errcode c : BitVec 8) : BitVec 8 := if err then errcode else c

end Sys2Proof.Machine
end

