-- ==== Sys2Proof/Machine/Ops.lean ====
section
/-! DEFINITION. The named operations over memory and registers: the output buffer (`20_memory.md` R42, R43, R47), the
voice file, the configuration registers (`10_state.md` R20), the random-source file; answering a command; taking a fault
(`60_exceptions.md` R210) and acknowledging it (R217); the command queue. -/

namespace Sys2Proof.Machine

/-! ### The output buffer -/

/-- The byte at address `x` of the byte view. -/
def Memory.readByte : Memory → Nat → Byte
  | [], _ => unlistedByte
  | (a, b) :: m, x => if a = x then b else Memory.readByte m x

/-- Store a byte, keeping the canonical form: addresses rise, and a byte equal to what an unlisted address reads as is
not listed. -/
def Memory.writeByte : Memory → Nat → Byte → Memory
  | [], x, v => if v = unlistedByte then [] else [(x, v)]
  | (a, b) :: m, x, v =>
    if x < a then (if v = unlistedByte then (a, b) :: m else (x, v) :: (a, b) :: m)
    else if x = a then (if v = unlistedByte then m else (x, v) :: m)
    else (a, b) :: Memory.writeByte m x v

/-- Every address listed is above `lo`, addresses strictly rise, and no entry is `unlistedByte`. -/
def Memory.wfAbove (lo : Nat) : Memory → Bool
  | [] => true
  | (a, b) :: m => decide (lo ≤ a) && decide (b ≠ unlistedByte) && Memory.wfAbove (a + 1) m

/-- The canonical form. -/
def Memory.wf (m : Memory) : Bool := Memory.wfAbove 0 m

/-- Every listed byte lies in the OBUF of `words` cells (`20_memory.md` R40). -/
def Memory.within (words : Nat) (m : Memory) : Bool := m.all (fun c => decide (c.1 < 4 * words))

/-- The 32-bit cell `a`: bytes `4a` to `4a+3`, least significant first (R47). -/
def Memory.readCell (m : Memory) (a : Nat) : Word :=
  m.readByte (4 * a + 3) ++ m.readByte (4 * a + 2) ++ m.readByte (4 * a + 1) ++ m.readByte (4 * a)

/-- Store the 32-bit cell `a` (R43, R47). -/
def Memory.writeCell (m : Memory) (a : Nat) (v : Word) : Memory :=
  (((m.writeByte (4 * a) (v.extractLsb' 0 8)).writeByte (4 * a + 1) (v.extractLsb' 8 8)).writeByte (4 * a + 2)
    (v.extractLsb' 16 8)).writeByte (4 * a + 3) (v.extractLsb' 24 8)

/-- `MemRead(a)` (R42). RENDER has checked its whole range first (R45). -/
def State.memRead (s : State) (a : Nat) : F32 := s.obuf.readCell a

/-- `MemWrite(a, v)` (R43). -/
def State.memWrite (s : State) (a : Nat) (v : F32) : State := { s with obuf := s.obuf.writeCell a v }

/-! ### The voice file and the random-source file -/

/-- Slot `i` of the voice file. -/
def State.voice (s : State) (i : Nat) : Voice := s.voices.getD i Voice.idle

/-- Write slot `i` of the voice file. -/
def State.setVoice (s : State) (i : Nat) (v : Voice) : State := { s with voices := s.voices.set i v }

/-- `rng[i]`. -/
def State.rngOf (s : State) (i : Nat) : Word := s.rng.getD i 0

/-- `rng[i] <- r`. -/
def State.setRng (s : State) (i : Nat) (r : Word) : State := { s with rng := s.rng.set i r }

/-- `VC`: how many slots, from slot 0, take part in dispatch and rendering (`44_pool_mixer.md`). -/
def State.voiceLimit (s : State) : Nat := s.cfg.voiceCount.toNat

/-- The pool: the slots below `cfg.VOICE_COUNT` (`10_state.md` R11). -/
def State.pool (s : State) : List Voice := s.voices.take s.voiceLimit

/-- The Sounding slots below `cfg.VOICE_COUNT`, in ascending index (`44_pool_mixer.md` R170). -/
def State.soundingSlots (s : State) : List Nat :=
  (List.range s.pool.length).filter (fun i => (s.voice i).active)

/-! ### The configuration registers -/

/-- The 32-bit content of a register (`10_state.md` R20, R21, R29). -/
def State.cfgValue (s : State) : CfgReg → Word
  | .status => statusWord s.mode s.err s.errcode
  | .voiceCount => s.cfg.voiceCount
  | .waveform => s.cfg.waveform
  | .gain => s.cfg.gain
  | .refNote => s.cfg.refNote
  | .refFreq => s.cfg.refFreq
  | .sampleRate => s.cfg.sampleRate
  | .channels => s.cfg.channels
  | .maxVoices => BitVec.ofNat 32 s.build.maxVoices
  | .obufSize => BitVec.ofNat 32 (min s.build.obufWords (2 ^ 32 - 1))

/-- The writable registers after all 32 bits of `v` are stored in one of them; a read-only register stores nothing
(R20). -/
def ConfigRegs.write (c : ConfigRegs) (r : CfgReg) (v : Word) : ConfigRegs :=
  match r with
  | .status => c
  | .voiceCount => { c with voiceCount := v }
  | .waveform => { c with waveform := v }
  | .gain => { c with gain := v }
  | .refNote => { c with refNote := v }
  | .refFreq => { c with refFreq := v }
  | .sampleRate => { c with sampleRate := v }
  | .channels => { c with channels := v }
  | .maxVoices => c
  | .obufSize => c

/-- `cfg[r] <- v`. -/
def State.writeCfg (s : State) (r : CfgReg) (v : Word) : State := { s with cfg := s.cfg.write r v }

/-- The data of a voice field (`45_system_commands.md` R190). -/
def State.voiceFieldValue (s : State) (i : Nat) : VoiceField → Word
  | .active => (BitVec.ofBool (s.voice i).active).setWidth 32
  | .note => (s.voice i).note
  | .velocity => (s.voice i).velocity
  | .frequency => (s.voice i).frequency
  | .phaseLo => (s.voice i).phase.extractLsb' 0 32
  | .phaseHi => (s.voice i).phase.extractLsb' 32 32
  | .sampleRate => (s.voice i).sampleRate
  | .trigLo => (s.voice i).trig.extractLsb' 0 32
  | .trigHi => (s.voice i).trig.extractLsb' 32 32
  | .rng => s.rngOf i

/-! ### Answering, taking a fault, acknowledging it -/

/-- `respond(code, data)`: emit the command's one response word (`30_encoding.md` R67). -/
def State.respond (s : State) (code : BitVec 8) (data : Word) : State :=
  { s with responses := s.responses ++ [responseWord code data] }

/-- The response of a completed command. -/
def State.respondOk (s : State) (data : Word) : State := s.respond okCode data

/-- TAKING A FAULT (`60_exceptions.md` R210): `errcode` is written while `err` is clear, `err` is set, the response
carries the code, and nothing else changes: no mode, no vector, no saved pc (R216). -/
def State.raise (s : State) (c : FaultCode) : State :=
  State.respond { s with err := true, errcode := errcodeAfter s.err s.errcode c.code } c.code 0

/-- ACKNOWLEDGING A FAULT (R217; `45_system_commands.md` R186): both flags cleared, nothing else. -/
def State.clearErr (s : State) : State := { s with err := false, errcode := 0 }

/-- What a step can answer. -/
abbrev Result := Host.Outcome State Fault Refusal

/-- The mode check of `30_encoding.md` R68 (2): perform `k` in mode `m`, else raise ILLEGAL_IN_MODE. -/
def State.inMode (s : State) (m : Mode) (k : Result) : Result := if s.mode = m then k else .next (s.raise .illegalInMode)

/-! ### The trigger counter and the command queue -/

/-- `trig_ctr <- trig_ctr + 1` (`10_state.md` R31). At 2^64 - 1 the spec states no result, and the new value is a free
value (assumption 4). -/
def State.bumpTrigCtr (s : State) : State :=
  if s.trigCtr = BitVec.allOnes 64 then
    { s with trigCtr := Config.trigCtrPastEnd s.freeUsed, freeUsed := s.freeUsed + 1 }
  else { s with trigCtr := s.trigCtr + 1 }

/-- The oldest command word waiting, and the state without it (`30_encoding.md` R66). -/
def State.takeCommand (s : State) : Option (CmdWord × State) :=
  match s.queue with
  | [] => none
  | w :: rest => some (w, { s with queue := rest })

/-- The state with `w` as the command word that is taken next, in the place of the one that was. -/
def State.putNextCommand (s : State) (w : CmdWord) : State := { s with queue := w :: s.queue.tail }

end Sys2Proof.Machine
end

