-- ==== Sys2Proof/Machine/FreqMapper.lean ====
section
/-! DEFINITION. The Frequency Mapper (`41_frequency_mapper.md` R110, R111): a combinational function that NOTE_ON
invokes. -/

namespace Sys2Proof.Machine

/-- `noteToFrequency(note)` (R111): an exact difference, a division by 12.0, 2^x, and a product with `cfg.REF_FREQ` on
the left. -/
def noteToFrequency (num : NumRecord) (cfg : ConfigRegs) (note : Word) : F32 :=
  mul32 cfg.refFreq (exp2_32 num (div32 (i2f32 (noteDifference note cfg.refNote)) twelve32))

end Sys2Proof.Machine
end

