-- ==== Sys2Proof/Machine/Oscillator.lean ====
section
/-! DEFINITION. The Oscillator (`42_oscillator.md` R120 to R127): the five waveforms on a narrowed phase `p` and the
amplitude `g`. -/

namespace Sys2Proof.Machine

/-- R123. -/
def sineSample (num : NumRecord) (p g : F32) : F32 := mul32 g (sin32 num p)

/-- R124: no multiplication and no rounding. -/
def squareSample (num : NumRecord) (p g : F32) : F32 := if ge0_32 (sin32 num p) then g else neg32 g

/-- R125: the fold length is 1 radian, kept literally. -/
def triangleSample (p g : F32) : F32 := mul32 g (sub32 (mul32 two32 (pingpong32 p one32)) one32)

/-- R126: unipolar. -/
def sawtoothSample (p g : F32) : F32 := mul32 g (inverseLerp32 0 twoPi32 p)

/-- R127, on a drawn `u`. -/
def noiseSample (u g : F32) : F32 := mul32 g (sub32 (mul32 two32 u) one32)

/-- `evaluate(p, g, w, r)` (R120, R122): the sample and the new random-source state, which only Noise changes. -/
def evaluate (b : Build) (w : Waveform) (p g : F32) (r : Word) : F32 × Word :=
  match w with
  | .sine => (sineSample b.num p g, r)
  | .square => (squareSample b.num p g, r)
  | .triangle => (triangleSample p g, r)
  | .sawtooth => (sawtoothSample p g, r)
  | .noise => (noiseSample (rngNext b.rng r).2 g, (rngNext b.rng r).1)

/-- `n` evaluations in a row on one random source: the samples in order and the last state
(`44_pool_mixer.md` R172). -/
def evaluateTimes (b : Build) (w : Waveform) (p g : F32) : Nat → Word → List F32 × Word
  | 0, r => ([], r)
  | n + 1, r =>
    ((evaluate b w p g r).1 :: (evaluateTimes b w p g n (evaluate b w p g r).2).1,
      (evaluateTimes b w p g n (evaluate b w p g r).2).2)

end Sys2Proof.Machine
end

