-- ==== Sys2Proof/Machine/VoiceOps.lean ====
section
/-! DEFINITION. The micro-operations on one voice: trigger, release and tick (`43_voice.md` R141, R143, R146). -/

namespace Sys2Proof.Machine

/-- The record `trigger` writes (R141). -/
def State.triggered (s : State) (note : Word) (velocity : F32) : Voice where
  active := true
  note := note
  velocity := velocity
  frequency := noteToFrequency s.build.num s.cfg note
  phase := 0
  sampleRate := s.cfg.sampleRate
  trig := s.trigCtr

/-- `trigger(i, note, vel)` (R141): all seven fields of slot `i`, and the counter. -/
def State.trigger (s : State) (i : Nat) (note : Word) (velocity : F32) : State :=
  (s.setVoice i (s.triggered note velocity)).bumpTrigCtr

/-- `bound(i, n)` of `44_pool_mixer.md` R161. -/
def Voice.bound (v : Voice) (note : Word) : Bool := v.active && v.note == note

/-- `release(i, note)` (R143): a bound voice becomes Idle with note -1; its other fields stay. -/
def Voice.release (v : Voice) (note : Word) : Voice :=
  if v.bound note then { v with active := false, note := 0xFFFFFFFF } else v

/-- `inc(i)` (R145): `2·f·π / sr`, left to right in f64. -/
def Voice.increment (v : Voice) : F64 := div64 (mul64 (mul64 two64 (widen v.frequency)) pi64) (widen v.sampleRate)

/-- The phase accumulator's step (R146): the sum rounded once, the remainder exact. -/
def Voice.advance (v : Voice) : Voice := { v with phase := fmod64 (add64 v.phase v.increment) twoPi64 }

/-- What a voice gives to the channels of one frame. -/
inductive Samples where
  /-- One sample, replicated to every channel (`90_conflicts.md` C1, the default). -/
  | mono (y : F32)
  /-- One sample per channel (`44_pool_mixer.md` R172, NOISE_PER_CHANNEL). -/
  | perChannel (ys : List F32)
deriving DecidableEq, Repr

/-- The sample for channel `c`. -/
def Samples.at (y : Samples) (c : Nat) : F32 :=
  match y with
  | .mono y => y
  | .perChannel ys => ys.getD c 0

/-- Whether the waveform is evaluated once per channel: Noise with NOISE_PER_CHANNEL (R172). -/
def State.drawsPerChannel (s : State) (w : Waveform) : Bool := s.build.noisePerChannel && w == .noise

/-- The evaluation half of `tick(i)` on the advanced phase: the samples of slot `i` for one frame and its new
random-source state (R146; `44_pool_mixer.md` R172). -/
def State.sampleSlot (s : State) (w : Waveform) (i : Nat) (v : Voice) : Samples × Word :=
  if s.drawsPerChannel w then
    (.perChannel (evaluateTimes s.build w (narrow v.phase) s.cfg.gain s.cfg.channels.toNat (s.rngOf i)).1,
      (evaluateTimes s.build w (narrow v.phase) s.cfg.gain s.cfg.channels.toNat (s.rngOf i)).2)
  else
    (.mono (evaluate s.build w (narrow v.phase) s.cfg.gain (s.rngOf i)).1,
      (evaluate s.build w (narrow v.phase) s.cfg.gain (s.rngOf i)).2)

/-- `tick(i)` (R144, R146): the phase is advanced first, and the advanced phase is evaluated. -/
def State.tick (s : State) (w : Waveform) (i : Nat) : State × Samples :=
  ((s.setVoice i (s.voice i).advance).setRng i (s.sampleSlot w i (s.voice i).advance).2,
    (s.sampleSlot w i (s.voice i).advance).1)

end Sys2Proof.Machine
end

