-- ==== Sys2Proof/Machine/Pool.lean ====
section
/-! DEFINITION. The Voice Pool / Mixer commands NOTE_ON, NOTE_OFF and RENDER (`44_pool_mixer.md` R160, R165, R170). -/

namespace Sys2Proof.Machine

/-! ### NOTE_ON -/

/-- The index of the least stamp of a list of voices, the lower index among equals (R162), counted from `i`; `best` is
the index and stamp found so far. -/
def oldestFrom : List Voice → Nat → Nat → BitVec 64 → Nat
  | [], _, best, _ => best
  | v :: vs, i, best, stamp =>
    if v.trig < stamp then oldestFrom vs (i + 1) i v.trig else oldestFrom vs (i + 1) best stamp

/-- The slot NOTE_ON triggers (R160): the least bound to the note; else the least Idle; else the oldest. None when the
pool is empty. -/
def noteOnTarget (pool : List Voice) (note : Word) : Option Nat :=
  match pool.findIdx? (fun v => v.bound note) with
  | some i => some i
  | none =>
    match pool.findIdx? (fun v => !v.active) with
    | some i => some i
    | none =>
      match pool with
      | [] => none
      | v :: vs => some (oldestFrom vs 1 0 v.trig)

/-- The dispatch of a NOTE_ON in RUN (R160). -/
def State.dispatchNoteOn (s : State) (note : Word) (velocity : F32) : Result :=
  match noteOnTarget s.pool note with
  | some i => .next ((s.trigger i note velocity).respondOk 0)
  | none => .fault .noVoiceSlot

/-- NOTE_ON note, velocity (R160). -/
def execNoteOn (note : Word) (velocity : F32) (s : State) : Result := s.inMode .run (s.dispatchNoteOn note velocity)

/-! ### NOTE_OFF -/

/-- `for i in 0 .. VC: release(i, note)` (R165). -/
def State.releaseAll (s : State) (note : Word) : State :=
  { s with voices := s.voices.mapIdx (fun i v => if i < s.voiceLimit then v.release note else v) }

/-- NOTE_OFF note (R165). -/
def execNoteOff (note : Word) (s : State) : Result := s.inMode .run (.next ((s.releaseAll note).respondOk 0))

/-! ### RENDER -/

/-- Tick the slots listed, in order: the state after and their samples (R170). -/
def State.tickSlots (s : State) (w : Waveform) : List Nat → State × List Samples
  | [] => (s, [])
  | i :: is => (((s.tick w i).1.tickSlots w is).1, (s.tick w i).2 :: ((s.tick w i).1.tickSlots w is).2)

/-- One cell's sum (R171): the old content first, then the samples in ascending slot index, each addition rounding. -/
def mixCell (samples : List Samples) (c : Nat) (old : F32) : F32 :=
  samples.foldl (fun acc y => add32 acc (y.at c)) old

/-- The channels `c`, `c+1`, … of one frame, `n` of them, from cell `a`: read, add, write (R170). -/
def State.mixChannels (s : State) (samples : List Samples) (a : Nat) : Nat → Nat → State
  | 0, _ => s
  | n + 1, c => (s.memWrite (a + c) (mixCell samples c (s.memRead (a + c)))).mixChannels samples a n (c + 1)

/-- One frame (R170): tick every Sounding slot, then mix every channel; a frame with no Sounding slot makes no access
(`20_memory.md` R46). -/
def State.renderFrame (s : State) (w : Waveform) (base f : Nat) : State :=
  match (s.tickSlots w s.soundingSlots).2 with
  | [] => (s.tickSlots w s.soundingSlots).1
  | y :: ys =>
    (s.tickSlots w s.soundingSlots).1.mixChannels (y :: ys) (cellIndex base s.cfg.channels.toNat f 0)
      s.cfg.channels.toNat 0

/-- The frames `f`, `f+1`, …, `n` of them (R170). -/
def State.renderFrames (s : State) (w : Waveform) (base : Nat) : Nat → Nat → State
  | 0, _ => s
  | n + 1, f => (s.renderFrame w base f).renderFrames w base n (f + 1)

/-- The body of a RENDER in RUN (R170): the range check, before any phase is advanced and any access is made
(`20_memory.md` R45), then the frames. A selector of 5 or more is met only where a sample would be evaluated with it. -/
def State.renderBlock (s : State) (frames base : Word) : Result :=
  if s.build.obufWords < renderNeed frames base s.cfg.channels then .next (s.raise .obufRange)
  else if frames = 0 ∨ s.soundingSlots = [] then .next (s.respondOk 0)
  else
    match waveformOf s.cfg.waveform with
    | some w => .next ((s.renderFrames w base.toNat frames.toNat 0).respondOk 0)
    | none => .refused .unsupportedWaveform

/-- RENDER frames, base (R170). -/
def execRender (frames base : Word) (s : State) : Result := s.inMode .run (s.renderBlock frames base)

end Sys2Proof.Machine
end

