-- ==== Sys2Proof/Machine/System.lean ====
section
/-! DEFINITION. The system commands CFGR, CFGW, START, STOP, CLRERR, SEED and VRD (`45_system_commands.md` R180 to
R190). -/

namespace Sys2Proof.Machine

/-- CFGR reg (R180): legal in both modes, no side effect. -/
def execCfgr (reg : BitVec 8) (s : State) : Result :=
  match cfgRegOf reg with
  | some r => .next (s.respondOk (s.cfgValue r))
  | none => .next (s.raise .badRegister)

/-- Store a configuration value (R181): BAD_REGISTER for a number that is no register or is read-only, else all 32 bits
as given. -/
def State.storeCfg (s : State) (reg : BitVec 8) (value : Word) : State :=
  match cfgRegOf reg with
  | some r => if r.writable then (s.writeCfg r value).respondOk 0 else s.raise .badRegister
  | none => s.raise .badRegister

/-- CFGW reg, value (R181): legal in CONFIG only. -/
def execCfgw (reg : BitVec 8) (value : Word) (s : State) : Result := s.inMode .config (.next (s.storeCfg reg value))

/-- START's check of the sample rate (R183; `10_state.md` R27): finite and greater than zero. -/
def validSampleRate (sr : F32) : Bool := isFinite32 sr && lt32 0 sr

/-- The configuration check of START, the first failure in D00's order of listing (R183, R184 (c)). -/
def State.configFault (s : State) : Option FaultCode :=
  if validSampleRate s.cfg.sampleRate = false then some .cfgSampleRate
  else if s.cfg.voiceCount.toNat < 1 ∨ s.build.maxVoices < s.cfg.voiceCount.toNat then some .cfgVoiceCount
  else if 4 < s.cfg.waveform.toNat then some .cfgWaveform
  else none

/-- Pool initialization and the entry to RUN (R183): every built slot Idle, `trig_ctr` zero. -/
def State.openRenderPath (s : State) : State :=
  { s with voices := List.replicate s.build.maxVoices Voice.idle, trigCtr := 0, mode := .run }

/-- START (R183): legal in CONFIG only. -/
def execStart (s : State) : Result :=
  s.inMode .config
    (match s.configFault with
    | some c => .next (s.raise c)
    | none => .next (s.openRenderPath.respondOk 0))

/-- STOP (R185): legal in RUN only; writes `mode` only. -/
def execStop (s : State) : Result := s.inMode .run (.next (State.respondOk { s with mode := .config } 0))

/-- CLRERR (R186): legal in both modes. -/
def execClrerr (s : State) : Result := .next (s.clearErr.respondOk 0)

/-- SEED voice, seed (R188): BAD_INDEX, then BAD_OPERAND, then the store. -/
def execSeed (voice : BitVec 8) (value : Word) (s : State) : Result :=
  if s.build.maxVoices ≤ voice.toNat then .next (s.raise .badIndex)
  else if value = 0 then .next (s.raise .badOperand)
  else .next ((s.setRng voice.toNat value).respondOk 0)

/-- VRD voice, field (R190): no side effect. -/
def execVrd (voice : BitVec 8) (field : BitVec 8) (s : State) : Result :=
  if s.build.maxVoices ≤ voice.toNat then .next (s.raise .badIndex)
  else
    match voiceFieldOf field with
    | some fld => .next (s.respondOk (s.voiceFieldValue voice.toNat fld))
    | none => .next (s.raise .badIndex)

end Sys2Proof.Machine
end

