-- ==== Sys2Proof/Machine/Dispatch.lean ====
section
/-! DEFINITION. The dispatch of a decoded command to its meaning. -/

namespace Sys2Proof.Machine

def exec (i : Instr) (s : State) : Host.Outcome State Fault Refusal :=
  match i with
  | .cfgw reg value => Sys2Proof.Machine.execCfgw reg value s
  | .cfgr reg => Sys2Proof.Machine.execCfgr reg s
  | .start => Sys2Proof.Machine.execStart s
  | .stop => Sys2Proof.Machine.execStop s
  | .clrerr => Sys2Proof.Machine.execClrerr s
  | .seed voice value => Sys2Proof.Machine.execSeed voice value s
  | .vrd voice field => Sys2Proof.Machine.execVrd voice field s
  | .noteOn note velocity => Sys2Proof.Machine.execNoteOn note velocity s
  | .noteOff note => Sys2Proof.Machine.execNoteOff note s
  | .render frames base => Sys2Proof.Machine.execRender frames base s

end Sys2Proof.Machine
end

