-- ==== Sys2Proof/Machine/Step.lean ====
section
/-! DEFINITION. One step: take the oldest command word of the queue, decode it, execute it (`30_encoding.md` R66,
R68). -/

namespace Sys2Proof.Machine

/-- One step. With no command waiting the NVE holds its state (`60_exceptions.md` R228). A word that decodes to no
command raises ILLEGAL_COMMAND, before any other check (R201). -/
def step (s : State) : Host.Outcome State Fault Refusal :=
  match s.takeCommand with
  | none => .next s
  | some (w, s') =>
    match decode w with
    | .instr i => exec i s'
    | .rejected _ => .next (s'.raise .illegalCommand)

/-- `s` with the command word of the table's numbering as the next one the step takes. -/
def State.withFetchWord (s : State) (nbits w : Nat) : State := s.putNextCommand (BitVec.ofNat 96 (w % 2 ^ nbits))

end Sys2Proof.Machine
end

