-- ==== Sys2Proof/Machine/HostPort.lean ====
section
/-! DEFINITION. What the outside does to the machine: the command port's offer and accept (`30_encoding.md` R60, R66), the
host's own accesses to OBUF between commands (`20_memory.md` R53; `70_reset_and_hazards.md` R234, R236), and the reset
input, between commands or during a RENDER (R230). None of these is a step. -/

namespace Sys2Proof.Machine

/-- The command port accepts while the queue is not full (R66; depth QDEPTH, `10_state.md` R33 (a)). -/
def State.accepts (s : State) : Bool := decide (s.queue.length < s.build.queueDepth)

/-- The host offers a command word: accepted behind every earlier one, or not accepted, in which case it waits with the
host and nothing is lost (R60, R66). -/
def State.offer (s : State) (w : CmdWord) : Option State :=
  if s.accepts then some { s with queue := s.queue ++ [w] } else none

/-- The host stores the word `v` in cell `a` of its buffer, between commands (R234, R236 (H-b)). A cell that is not in
OBUF is none of this machine's. -/
def State.hostStore (s : State) (a : Nat) (v : Word) : State := if a < s.build.obufWords then s.memWrite a v else s

/-- The host clears `n` cells from `a` on (R234). -/
def State.hostClear (s : State) (a : Nat) : Nat → State
  | 0 => s
  | n + 1 => (s.hostStore a 0).hostClear (a + 1) n

/-- Hardware reset in mid-run (R230, R231): every piece of state at its reset value, the queue emptied, OBUF not
written; the start of a new run. -/
def State.hardwareReset (s : State) : State := { State.resetOf s.build with obuf := s.obuf }

/-- OBUF when a RENDER has completed its frames below `f` and the first `n` channels of frame `f`: a prefix of its
accesses in the order of `44_pool_mixer.md` R170. -/
def State.obufInRender (s : State) (w : Waveform) (base f n : Nat) : Memory :=
  State.obuf (State.mixChannels ((s.renderFrames w base f 0).tickSlots w s.soundingSlots).1
    ((s.renderFrames w base f 0).tickSlots w s.soundingSlots).2 (cellIndex base s.cfg.channels.toNat f 0) n 0)

/-- Hardware reset during a RENDER (R230; `93_implementation_defined.md` U10): the command is abandoned wherever it was,
the cells of a prefix of its accesses updated and the others old, and every piece of state at its reset value. A RENDER
that would make no access leaves OBUF as it was. -/
def State.resetInRender (s : State) (frames base : Word) (f n : Nat) : State :=
  match waveformOf s.cfg.waveform with
  | none => s.hardwareReset
  | some w =>
    if s.mode = .run ∧ renderNeed frames base s.cfg.channels ≤ s.build.obufWords ∧ s.soundingSlots ≠ [] ∧
        f < frames.toNat ∧ n ≤ s.cfg.channels.toNat then
      { State.resetOf s.build with obuf := s.obufInRender w base.toNat f n }
    else s.hardwareReset

end Sys2Proof.Machine
end

