-- ==== Sys2Proof/Safety.lean ====
section
/-! DEFINITION. What counts as a safe state and a safe run, in the terms the statements use: the form of the state, the
invariants of `10_state.md` R35, and what RUN guarantees (`60_exceptions.md` R222). -/

namespace Sys2Proof.Machine

/-- The form of a state: a lawful build, a voice file and a random-source file of MAXV entries, an output buffer in its
canonical form and inside its address space, a queue within its depth. -/
def State.formed (s : State) : Bool :=
  s.build.wf && decide (s.voices.length = s.build.maxVoices) && decide (s.rng.length = s.build.maxVoices) &&
    s.obuf.wf && s.obuf.within s.build.obufWords && decide (s.queue.length ≤ s.build.queueDepth)

/-- What START has checked holds while in RUN (`60_exceptions.md` R222). -/
def State.runChecked (s : State) : Prop :=
  s.mode = .run →
    validSampleRate s.cfg.sampleRate = true ∧ 1 ≤ s.cfg.voiceCount.toNat ∧
      s.cfg.voiceCount.toNat ≤ s.build.maxVoices ∧ s.cfg.waveform.toNat ≤ 4

/-- In RUN no slot at or above `cfg.VOICE_COUNT` sounds (`10_state.md` R11: such slots "are never triggered"). -/
def State.poolOnly (s : State) : Prop :=
  s.mode = .run → ∀ i, s.cfg.voiceCount.toNat ≤ i → (s.voice i).active = false

/-- Invariant I1 of `10_state.md` R35, over the slots below `cfg.VOICE_COUNT`. -/
def State.oneVoicePerNote (s : State) : Prop :=
  ∀ i j, i < s.cfg.voiceCount.toNat → j < s.cfg.voiceCount.toNat → i ≠ j →
    ¬ ((s.voice i).active = true ∧ (s.voice j).active = true ∧ (s.voice i).note = (s.voice j).note)

/-- No two Sounding slots, wherever they stand, are bound to one note: I1 as an inductive invariant needs it. -/
def State.notesDistinct (s : State) : Prop :=
  ∀ i j, i ≠ j → (s.voice i).active = true → (s.voice j).active = true → (s.voice i).note ≠ (s.voice j).note

/-- The f64 `x` is in `[+0.0, TWO_PI64)`: its sign bit is clear and its pattern is below that of `TWO_PI64`. -/
def phaseInRange (x : F64) : Prop := x.toNat < twoPi64.toNat

/-- Invariant I2 of R35. -/
def State.phasesInRange (s : State) : Prop := ∀ i, phaseInRange (s.voice i).phase

/-- The premise of I2 (`43_voice.md` R147): the increment is finite and not negative; `-0.0` is not negative. -/
def Voice.incrementOk (v : Voice) : Prop :=
  v.increment.toNat < 0x7FF0000000000000 ∨ v.increment = 0x8000000000000000

/-- Every Sounding slot meets the premise of I2. -/
def State.incrementsOk (s : State) : Prop := ∀ i, (s.voice i).active = true → (s.voice i).incrementOk

/-- Invariant I3 of R35. -/
def State.idleUnbound (s : State) : Prop := ∀ i, (s.voice i).active = false → (s.voice i).note = 0xFFFFFFFF

/-- Invariant I4 of R35, over every slot. -/
def State.stampsFresh (s : State) : Prop :=
  (∀ i, (s.voice i).active = true → (s.voice i).trig < s.trigCtr) ∧
    ∀ i j, i ≠ j → (s.voice i).active = true → (s.voice j).active = true → (s.voice i).trig ≠ (s.voice j).trig

/-- Invariant I5 of R35. -/
def State.errcodeClear (s : State) : Prop := s.err = false → s.errcode = 0

/-- `10_state.md` R17: in RUN every Sounding slot holds the sample rate of the configuration. -/
def State.ratesCaptured (s : State) : Prop :=
  s.mode = .run → ∀ i, (s.voice i).active = true → (s.voice i).sampleRate = s.cfg.sampleRate

/-- `10_state.md` R32: with the default RNG record no random source holds 0. -/
def State.sourcesAlive (s : State) : Prop := s.build.rng = .lfsr → ∀ r ∈ s.rng, r ≠ 0

/-- The invariant of the machine: its form, what RUN guarantees, and the invariants of R35 that hold without a numeric
premise. -/
structure State.Sound (s : State) : Prop where
  formed : s.formed = true
  runChecked : s.runChecked
  poolOnly : s.poolOnly
  notesDistinct : s.notesDistinct
  idleUnbound : s.idleUnbound
  errcodeClear : s.errcodeClear
  ratesCaptured : s.ratesCaptured
  sourcesAlive : s.sourcesAlive

/-- The states of the runs of the build `b`: hardware reset over any formed buffer, then steps, accepted commands, the
host's own stores and hardware resets, between commands or during a RENDER, in any order. -/
inductive Reachable (b : Build) : State → Prop where
  | reset : Reachable b (State.resetOf b)
  | stepped (s t : State) : Reachable b s → step s = .next t → Reachable b t
  | offered (s t : State) (w : CmdWord) : Reachable b s → s.offer w = some t → Reachable b t
  | hostStored (s : State) (a : Nat) (v : Word) : Reachable b s → Reachable b (s.hostStore a v)
  | resetAgain (s : State) : Reachable b s → Reachable b s.hardwareReset
  | resetInRender (s : State) (frames base : Word) (f n : Nat) :
    Reachable b s → Reachable b (s.resetInRender frames base f n)

/-- A step that answers a next state: the machine has not stopped. -/
def stepsOn (s : State) : Prop := ∃ t, step s = .next t

/-! ### Terms of the statements about commands -/

/-- The state after a fault with code `c`, as R210 writes it: "if err = 0 then errcode <- c ; err <- 1 ; respond(c, 0);
and nothing else". -/
def State.faulted (s : State) (c : BitVec 8) : State :=
  { s with err := true, errcode := if s.err then s.errcode else c, responses := s.responses ++ [c ++ 0#56] }

/-- The state after a completed command that changes nothing but emits its response (R67). -/
def State.answered (s : State) (data : Word) : State := { s with responses := s.responses ++ [0#32 ++ data] }

/-- `bound(i, n)` of `44_pool_mixer.md` R161. -/
def State.boundAt (s : State) (note : Word) (i : Nat) : Prop := (s.voice i).active = true ∧ (s.voice i).note = note

/-- The slot `t` that a NOTE_ON for `note` triggers, as the three steps of R160 and the tie rule of R162 say it, with
`VC = cfg.VOICE_COUNT`: the least bound slot; else the least Idle slot; else the slot with the least stamp. -/
def State.chooses (s : State) (note : Word) (t : Nat) : Prop :=
  t < s.cfg.voiceCount.toNat ∧
    ((s.boundAt note t ∧ ∀ i < t, ¬ s.boundAt note i) ∨
      ((∀ i < s.cfg.voiceCount.toNat, ¬ s.boundAt note i) ∧ (s.voice t).active = false ∧
        ∀ i < t, (s.voice i).active = true) ∨
      ((∀ i < s.cfg.voiceCount.toNat, ¬ s.boundAt note i ∧ (s.voice i).active = true) ∧
        ∀ i < s.cfg.voiceCount.toNat,
          (s.voice t).trig < (s.voice i).trig ∨ ((s.voice t).trig = (s.voice i).trig ∧ t ≤ i)))

/-- Slot `i` takes part in a RENDER (R170): below `cfg.VOICE_COUNT` and Sounding. -/
def State.soundsAt (s : State) (i : Nat) : Prop := i < s.cfg.voiceCount.toNat ∧ (s.voice i).active = true

/-- The slots that take part in a RENDER, in ascending order (R171). -/
def State.sounding (s : State) : List Nat :=
  (List.range s.cfg.voiceCount.toNat).filter (fun i => (s.voice i).active)

/-- The phase of a voice after `n` ticks (`43_voice.md` R145, R146). -/
def Voice.phaseAfter (v : Voice) (n : Nat) : F64 :=
  (fun p => fmod64 (add64 p (div64 (mul64 (mul64 two64 (widen v.frequency)) pi64) (widen v.sampleRate))) twoPi64)^[n]
    v.phase

/-- The random-source state after `n` draws (`42_oscillator.md` R129). -/
def sourceAfter (rng : RngRecord) (r : Word) (n : Nat) : Word := (fun q => (rngNext rng q).1)^[n] r

/-- The sample that slot `i` gives to frame `f` of a RENDER after `draws` draws of that RENDER (R144, R146, R172). -/
def State.sampleAt (s : State) (w : Waveform) (i f draws : Nat) : F32 :=
  (evaluate s.build w (narrow ((s.voice i).phaseAfter (f + 1))) s.cfg.gain
    (sourceAfter s.build.rng (s.rngOf i) draws)).1

/-- Draws made before the sample of frame `f`, channel `c` (R172): one per frame, or one per channel of every frame. -/
def State.drawsBefore (s : State) (f c : Nat) : Nat :=
  if s.build.noisePerChannel then f * s.cfg.channels.toNat + c else f

/-- Two states that differ in stored velocities only. -/
def State.sameButVelocity (s t : State) : Prop :=
  t = { s with voices := t.voices } ∧
    s.voices.map (fun v => { v with velocity := 0 }) = t.voices.map (fun v => { v with velocity := 0 })

/-! ### The numbers that bit patterns stand for, from the field layout of R81 -/

/-- The magnitude of a finite pattern with `eb` exponent and `fb` fraction bits: gradual underflow at exponent field 0,
a hidden one elsewhere. -/
def ieeeMagnitude (eb fb bits : Nat) : ℚ :=
  if bits / 2 ^ fb % 2 ^ eb = 0 then ((bits % 2 ^ fb : Nat) : ℚ) / 2 ^ fb * 2 ^ (1 - ((2 ^ (eb - 1) - 1 : Nat) : ℤ))
  else (1 + ((bits % 2 ^ fb : Nat) : ℚ) / 2 ^ fb) *
    2 ^ (((bits / 2 ^ fb % 2 ^ eb : Nat) : ℤ) - ((2 ^ (eb - 1) - 1 : Nat) : ℤ))

/-- The sign bit of a pattern. -/
def ieeeSign (eb fb bits : Nat) : Bool := bits.testBit (eb + fb)

/-- The number a finite pattern stands for. -/
def ieeeValue (eb fb bits : Nat) : ℚ :=
  if ieeeSign eb fb bits then - ieeeMagnitude eb fb bits else ieeeMagnitude eb fb bits

/-- Neither NaN nor infinity: the exponent field is not all ones. -/
def ieeeFinite (eb fb bits : Nat) : Prop := bits / 2 ^ fb % 2 ^ eb ≠ 2 ^ eb - 1

/-- NaN: the exponent field is all ones and the fraction is not zero. -/
def ieeeNaN (eb fb bits : Nat) : Prop := bits / 2 ^ fb % 2 ^ eb = 2 ^ eb - 1 ∧ bits % 2 ^ fb ≠ 0

/-- An integer that orders the patterns that are not NaN as IEEE 754 does; the two zeros get one value. -/
def ieeeKey (eb fb bits : Nat) : Int :=
  if ieeeSign eb fb bits then -((bits % 2 ^ (eb + fb) : Nat) : Int) else ((bits % 2 ^ (eb + fb) : Nat) : Int)

/-- `r` is the exact number `z` rounded once, to nearest, ties to even (R82 (a)): an infinity of the sign of `z` from half
a unit beyond the greatest finite number on; else a finite pattern that no finite pattern beats, even where another is as
near; and a `z` that is not zero keeps its sign. -/
def ieeeRounds (eb fb : Nat) (z : ℚ) (r : Nat) : Prop :=
  r < 2 ^ (1 + eb + fb) ∧ (z < 0 → ieeeSign eb fb r = true) ∧ (0 < z → ieeeSign eb fb r = false) ∧
    if (2 - 1 / 2 ^ (fb + 1)) * 2 ^ (2 ^ (eb - 1) - 1) ≤ |z| then r % 2 ^ (eb + fb) = (2 ^ eb - 1) * 2 ^ fb
    else ieeeFinite eb fb r ∧
      ∀ w < 2 ^ (1 + eb + fb), ieeeFinite eb fb w →
        |ieeeValue eb fb r - z| ≤ |ieeeValue eb fb w - z| ∧
          (ieeeValue eb fb w ≠ ieeeValue eb fb r → |ieeeValue eb fb r - z| = |ieeeValue eb fb w - z| → r % 2 = 0)

/-- The number an f32 stands for. -/
def real32 (x : F32) : ℚ := ieeeValue 8 23 x.toNat
/-- The number an f64 stands for. -/
def real64 (x : F64) : ℚ := ieeeValue 11 52 x.toNat
/-- Neither NaN nor infinity, f32. -/
def finite32 (x : F32) : Prop := ieeeFinite 8 23 x.toNat
/-- Neither NaN nor infinity, f64. -/
def finite64 (x : F64) : Prop := ieeeFinite 11 52 x.toNat
/-- NaN, f32. -/
def nanBits32 (x : F32) : Prop := ieeeNaN 8 23 x.toNat
/-- NaN, f64. -/
def nanBits64 (x : F64) : Prop := ieeeNaN 11 52 x.toNat
/-- The IEEE order, f32. -/
def key32 (x : F32) : Int := ieeeKey 8 23 x.toNat
/-- The IEEE order, f64. -/
def key64 (x : F64) : Int := ieeeKey 11 52 x.toNat
/-- The sign bit, f32. -/
def sign32 (x : F32) : Bool := ieeeSign 8 23 x.toNat
/-- The sign bit, f64. -/
def sign64 (x : F64) : Bool := ieeeSign 11 52 x.toNat

end Sys2Proof.Machine
end

