-- ==== Sys2Proof/Certificates/Slice0/Obligations.lean ====
section
/-! DEFINITION. The statements for the provers. `s.faulted c` and `s.answered d` (Safety.lean) write out the state after
a fault with code `c` and after a completed command that answers `d`, with every other field as it was. -/

section
open Sys2Proof Sys2Proof.Machine

/-! ### Encoding -/

/-- Decoding the encoding of any command gives it back, with every operand at every value, from the word, from its twelve
bytes, and through the table's numbering (`30_encoding.md` R61 to R64, `20_memory.md` R47). -/
def Obligations.DecodeEncodeRoundTrip : Prop :=
  ∀ i : Instr, decode (encode i) = .instr i ∧ decodeBytes (bytesOfWord (encode i)) = .instr i ∧
    decodeTableWord 96 (encode i).toNat = some i

/-- A word that decodes is the encoding of what it decodes to: every command has one word (R61, R62). -/
def Obligations.EncodeDecodeRoundTrip : Prop :=
  ∀ (w : CmdWord) (i : Instr), decode w = .instr i → encode i = w

/-- The decoder and the opcode table agree on every word (R64, R65): a word decodes to a command of row `o` exactly when
`w AND mask = match` for row `o`, and no word selects two rows. -/
def Obligations.DecodeFollowsOpcodeTable : Prop :=
  ∀ (w : CmdWord) (o : Op),
    ((∃ i, decode w = .instr i ∧ i.op = o) ↔ w &&& o.mask = o.pattern) ∧
      ∀ o' : Op, w &&& o.mask = o.pattern → w &&& o'.mask = o'.pattern → o = o'

/-- The four worked encodings of R72. -/
def Obligations.WorkedEncodings : Prop :=
  (decode 0x10000000_00000045_3F800000 = .instr (.noteOn 69 0x3F800000) ∧
      encode (.noteOn 69 0x3F800000) = 0x10000000_00000045_3F800000) ∧
    (decode 0x01060000_473B8000_00000000 = .instr (.cfgw 0x06 0x473B8000) ∧
      encode (.cfgw 0x06 0x473B8000) = 0x01060000_473B8000_00000000) ∧
    (decode 0x11000000_FFFFFFFF_00000000 = .instr (.noteOff (-1)) ∧
      encode (.noteOff (-1)) = 0x11000000_FFFFFFFF_00000000) ∧
    decode 0x07000500_00000000_00000000 = .instr (.vrd 0 0x05) ∧
      encode (.vrd 0 0x05) = 0x07000500_00000000_00000000

/-- ILLEGAL_COMMAND (`60_exceptions.md` R201): a word that selects no row raises it in either mode, whatever its other
fields, with no other effect; such words are those whose opcode byte is listed by no row, or whose opcode byte is a row's
but with a non-zero bit in a field which that row does not use. -/
def Obligations.IllegalWordRaises : Prop :=
  (∀ (s : State) (w : CmdWord) (rest : List CmdWord), s.queue = w :: rest → (∀ o : Op, w &&& o.mask ≠ o.pattern) →
      step s = .next (State.faulted { s with queue := rest } 0x01)) ∧
    (∀ w : CmdWord, (∀ o : Op, w &&& o.mask ≠ o.pattern) ↔
      (w.extractLsb' 88 8 ∉ [0x01#8, 0x02#8, 0x03#8, 0x04#8, 0x05#8, 0x06#8, 0x07#8, 0x10#8, 0x11#8, 0x20#8] ∨
        ∃ o : Op, w.extractLsb' 88 8 = o.pattern.extractLsb' 88 8 ∧
          (w &&& o.mask).extractLsb' 0 88 ≠ 0))

/-! ### Steps and responses -/

/-- A step takes the oldest command word and runs the command it decodes to, on the state without that word (R66); with no
word waiting the state is held (`60_exceptions.md` R228). -/
def Obligations.StepRunsDecodedCommand : Prop :=
  ∀ s : State, (s.queue = [] → step s = .next s) ∧
    ∀ (w : CmdWord) (rest : List CmdWord) (i : Instr), s.queue = w :: rest → decode w = .instr i →
      step s = exec i { s with queue := rest }

/-- Every command word is answered by one response word, of the layout of R67: a code of R200 in bits 63:56, zeros, and
data that is zero on every fault and for every command but CFGR and VRD. -/
def Obligations.OneResponsePerCommand : Prop :=
  ∀ (s t : State) (w : CmdWord) (rest : List CmdWord), s.queue = w :: rest → step s = .next t →
    t.queue = rest ∧ ∃ (code : BitVec 8) (data : Word),
      t.responses = s.responses ++ [code ++ 0#24 ++ data] ∧
        code ∈ [0x00#8, 0x01#8, 0x02#8, 0x03#8, 0x04#8, 0x05#8, 0x06#8, 0x10#8, 0x11#8, 0x12#8] ∧
        (code ≠ 0 → data = 0) ∧
        (data ≠ 0 → (∃ reg, decode w = .instr (.cfgr reg)) ∨ ∃ voice field, decode w = .instr (.vrd voice field))

/-- A command that answers a fault code has changed nothing but `err`, `errcode` and the response stream, whichever
command and whichever fault (R210); one that completes leaves both flags, CLRERR apart (R30, R213). -/
def Obligations.FaultChangesNothingElse : Prop :=
  ∀ (s t : State) (w : CmdWord) (rest : List CmdWord) (code : BitVec 8) (data : Word), s.queue = w :: rest →
    step s = .next t → t.responses = s.responses ++ [code ++ 0#24 ++ data] →
      (code ≠ 0 → t = State.faulted { s with queue := rest } code) ∧
        (code = 0 → decode w ≠ .instr .clrerr → t.err = s.err ∧ t.errcode = s.errcode)

/-- `err` and `errcode` are a log, not a gate (R212): from states that differ in them alone a command has one outcome, but
for the flags themselves and for the data of a CFGR STATUS; and once set they stay as they are until CLRERR. -/
def Obligations.ErrorFlagsAreALog : Prop :=
  ∀ (i : Instr) (s t : State) (e : Bool) (c : BitVec 8), exec i s = .next t →
    (∃ u, exec i { s with err := e, errcode := c } = .next u ∧
      u = { t with err := u.err, errcode := u.errcode, responses := u.responses } ∧
      (i ≠ .cfgr 0x00 → u.responses = t.responses)) ∧
    (s.err = true → i ≠ .clrerr → t.err = true ∧ t.errcode = s.errcode)

/-- ILLEGAL_IN_MODE (R202): each of the six commands in the mode that does not allow it, whatever its operands. -/
def Obligations.WrongModeRaises : Prop :=
  ∀ s : State,
    (s.mode = .run → (∀ reg value, exec (.cfgw reg value) s = .next (s.faulted 0x02)) ∧
      exec .start s = .next (s.faulted 0x02)) ∧
    (s.mode = .config → exec .stop s = .next (s.faulted 0x02) ∧
      (∀ note velocity, exec (.noteOn note velocity) s = .next (s.faulted 0x02)) ∧
      (∀ note, exec (.noteOff note) s = .next (s.faulted 0x02)) ∧
      ∀ frames base, exec (.render frames base) s = .next (s.faulted 0x02))

/-! ### The system commands -/

/-- CFGR (R180), in every state: the content of each of the ten registers, with STATUS as R21 lays it out and MAX_VOICES
and OBUF_SIZE as R29 says; BAD_REGISTER above 0x09; the worked example after reset. -/
def Obligations.CfgrReads : Prop :=
  (∀ s : State,
    (∃ status : Word, exec (.cfgr 0x00) s = .next (s.answered status) ∧
      (status.getLsbD 0 = true ↔ s.mode = .run) ∧ status.getLsbD 1 = s.err ∧ status.extractLsb' 2 6 = 0 ∧
      status.extractLsb' 8 8 = s.errcode ∧ status.extractLsb' 16 16 = 0) ∧
    (∀ (reg : BitVec 8) (value : Word),
      (reg, value) ∈ [(0x01#8, s.cfg.voiceCount), (0x02#8, s.cfg.waveform), (0x03#8, s.cfg.gain),
        (0x04#8, s.cfg.refNote), (0x05#8, s.cfg.refFreq), (0x06#8, s.cfg.sampleRate), (0x07#8, s.cfg.channels),
        (0x08#8, BitVec.ofNat 32 s.build.maxVoices),
        (0x09#8, if s.build.obufWords < 2 ^ 32 then BitVec.ofNat 32 s.build.obufWords else 0xFFFFFFFF#32)] →
      exec (.cfgr reg) s = .next (s.answered value)) ∧
    ∀ reg : BitVec 8, 0x09 < reg.toNat → exec (.cfgr reg) s = .next (s.faulted 0x03)) ∧
  exec (.cfgr 0x05) State.reset = .next (State.reset.answered 0x43DC0000)

/-- CFGW (R181): in CONFIG all 32 bits go to the one register named, whatever the value; 0x00 and the numbers above 0x07
raise BAD_REGISTER; in RUN ILLEGAL_IN_MODE comes first. -/
def Obligations.CfgwStores : Prop :=
  ∀ (s : State) (value : Word),
    (s.mode = .config → ∀ (reg : BitVec 8) (cfg : ConfigRegs),
      (reg, cfg) ∈ [(0x01#8, { s.cfg with voiceCount := value }), (0x02#8, { s.cfg with waveform := value }),
        (0x03#8, { s.cfg with gain := value }), (0x04#8, { s.cfg with refNote := value }),
        (0x05#8, { s.cfg with refFreq := value }), (0x06#8, { s.cfg with sampleRate := value }),
        (0x07#8, { s.cfg with channels := value })] →
      exec (.cfgw reg value) s = .next (State.answered { s with cfg := cfg } 0)) ∧
    (s.mode = .config → ∀ reg : BitVec 8, reg = 0x00 ∨ 0x07 < reg.toNat →
      exec (.cfgw reg value) s = .next (s.faulted 0x03)) ∧
    (s.mode = .run → ∀ reg : BitVec 8, exec (.cfgw reg value) s = .next (s.faulted 0x02))

/-- START (R183): the three checks in order, each in terms of the register's bits, then every built slot at its Idle reset
record, the counter zero and the mode RUN, with `cfg`, `rng`, the flags and OBUF untouched. -/
def Obligations.StartChecksAndOpens : Prop :=
  ∀ s : State,
    (s.mode = .run → exec .start s = .next (s.faulted 0x02)) ∧
    (s.mode = .config →
      (¬ (0 < s.cfg.sampleRate.toNat ∧ s.cfg.sampleRate.toNat < 0x7F800000) → exec .start s = .next (s.faulted 0x10)) ∧
      (0 < s.cfg.sampleRate.toNat ∧ s.cfg.sampleRate.toNat < 0x7F800000 →
        (s.cfg.voiceCount = 0 ∨ s.build.maxVoices < s.cfg.voiceCount.toNat → exec .start s = .next (s.faulted 0x11)) ∧
        (s.cfg.voiceCount ≠ 0 ∧ s.cfg.voiceCount.toNat ≤ s.build.maxVoices →
          (4 < s.cfg.waveform.toNat → exec .start s = .next (s.faulted 0x12)) ∧
          (s.cfg.waveform.toNat ≤ 4 → exec .start s = .next (State.answered { s with
            voices := List.replicate s.build.maxVoices
              { active := false, note := -1, velocity := 0, frequency := 0, phase := 0, sampleRate := 0, trig := 0 }
            trigCtr := 0
            mode := .run } 0)))))

/-- STOP (R185): in RUN it writes the mode only; in CONFIG it is refused. -/
def Obligations.StopLeavesRun : Prop :=
  ∀ s : State,
    (s.mode = .run → exec .stop s = .next (State.answered { s with mode := .config } 0)) ∧
    (s.mode = .config → exec .stop s = .next (s.faulted 0x02))

/-- CLRERR (R186): in every state both flags are cleared and nothing else; with both clear already, nothing changes. -/
def Obligations.ClrerrAcknowledges : Prop :=
  ∀ s : State, exec .clrerr s = .next (State.answered { s with err := false, errcode := 0 } 0) ∧
    (s.err = false → s.errcode = 0 → exec .clrerr s = .next (s.answered 0))

/-- SEED (R188), in either mode: BAD_INDEX, then BAD_OPERAND, then the one random source is loaded, at or above
`cfg.VOICE_COUNT` too; no other field changes. -/
def Obligations.SeedLoads : Prop :=
  ∀ (s : State) (voice : BitVec 8) (seed : Word),
    (s.build.maxVoices ≤ voice.toNat → exec (.seed voice seed) s = .next (s.faulted 0x04)) ∧
    (voice.toNat < s.build.maxVoices → seed = 0 → exec (.seed voice seed) s = .next (s.faulted 0x05)) ∧
    (voice.toNat < s.build.maxVoices → seed ≠ 0 → s.formed = true →
      ∃ t, exec (.seed voice seed) s = .next t ∧ t = State.answered { s with rng := t.rng } 0 ∧
        t.rng.length = s.rng.length ∧ t.rngOf voice.toNat = seed ∧
        ∀ j, j ≠ voice.toNat → t.rngOf j = s.rngOf j)

/-- VRD (R190), in either mode: each of the ten fields of a built slot, the two halves of the phase and of the stamp
apart; BAD_INDEX for a slot that is not built or a selector above 0x09; no side effect. -/
def Obligations.VrdReads : Prop :=
  ∀ (s : State) (voice : BitVec 8),
    (∀ field : BitVec 8, s.build.maxVoices ≤ voice.toNat ∨ 0x09 < field.toNat →
      exec (.vrd voice field) s = .next (s.faulted 0x04)) ∧
    (∀ v : Voice, voice.toNat < s.build.maxVoices → s.voices[voice.toNat]? = some v →
      ∀ (field : BitVec 8) (data : Word),
        (field, data) ∈ [(0x00#8, if v.active then 1#32 else 0#32), (0x01#8, v.note), (0x02#8, v.velocity),
          (0x03#8, v.frequency), (0x04#8, BitVec.ofNat 32 (v.phase.toNat % 2 ^ 32)),
          (0x05#8, BitVec.ofNat 32 (v.phase.toNat / 2 ^ 32)), (0x06#8, v.sampleRate),
          (0x07#8, BitVec.ofNat 32 (v.trig.toNat % 2 ^ 32)), (0x08#8, BitVec.ofNat 32 (v.trig.toNat / 2 ^ 32)),
          (0x09#8, s.rngOf voice.toNat)] →
        exec (.vrd voice field) s = .next (s.answered data))

/-! ### Modes -/

/-- A successful START is the only step from CONFIG to RUN and STOP the only step from RUN to CONFIG; reset enters CONFIG
(R220). -/
def Obligations.ModeChangesOnlyByStartAndStop : Prop :=
  (∀ s t : State, step s = .next t → t.mode ≠ s.mode →
    ∃ (w : CmdWord) (rest : List CmdWord), s.queue = w :: rest ∧
      t.responses = s.responses ++ [0#64] ∧
      ((decode w = .instr .start ∧ s.mode = .config ∧ t.mode = .run) ∨
        (decode w = .instr .stop ∧ s.mode = .run ∧ t.mode = .config))) ∧
  ∀ s : State, s.hardwareReset.mode = .config

/-- What the modes protect (R222, with START as R183 has it): in RUN the configuration is constant; in CONFIG OBUF is
constant, the voice file and the counter change by START only, a random source by SEED only; in both the flags change by
a fault or CLRERR only. -/
def Obligations.ModesProtectState : Prop :=
  ∀ s t : State, step s = .next t →
    (s.mode = .run → t.cfg = s.cfg) ∧
    (s.mode = .config → t.obuf = s.obuf) ∧
    (s.mode = .config → t.mode = .config → t.voices = s.voices ∧ t.trigCtr = s.trigCtr) ∧
    (s.mode = .config → t.rng ≠ s.rng →
      ∃ w rest voice seed, s.queue = w :: rest ∧ decode w = .instr (.seed voice seed)) ∧
    ((t.err ≠ s.err ∨ t.errcode ≠ s.errcode) →
      ∃ w rest, s.queue = w :: rest ∧ (decode w = .instr .clrerr ∨
        ∃ code : BitVec 8, code ≠ 0 ∧ t = State.faulted { s with queue := rest } code))

/-- Who writes what (R12, R16, R32, R41, R149): OBUF by RENDER in RUN only; a random source by a SEED of that slot, or by
RENDER while the slot sounds and the waveform is Noise; a phase by START, NOTE_ON, or RENDER while the slot sounds; whether
a slot sounds by START, NOTE_ON and NOTE_OFF only; the build parameters by nothing. -/
def Obligations.WhoWritesWhat : Prop :=
  ∀ (s t : State) (w : CmdWord) (rest : List CmdWord), s.queue = w :: rest → step s = .next t →
    t.build = s.build ∧
    (t.obuf ≠ s.obuf → s.mode = .run ∧ ∃ frames base, decode w = .instr (.render frames base)) ∧
    (∀ j, t.rngOf j ≠ s.rngOf j →
      (∃ voice seed, decode w = .instr (.seed voice seed) ∧ voice.toNat = j) ∨
      ((∃ frames base, decode w = .instr (.render frames base)) ∧ s.mode = .run ∧ s.cfg.waveform = 4 ∧ s.soundsAt j)) ∧
    (∀ j, (t.voice j).phase ≠ (s.voice j).phase →
      decode w = .instr .start ∨ (∃ note velocity, decode w = .instr (.noteOn note velocity)) ∨
      ((∃ frames base, decode w = .instr (.render frames base)) ∧ s.mode = .run ∧ s.soundsAt j)) ∧
    (∀ j, (t.voice j).active ≠ (s.voice j).active →
      decode w = .instr .start ∨ (∃ note velocity, decode w = .instr (.noteOn note velocity)) ∨
      ∃ note, decode w = .instr (.noteOff note))

/-! ### NOTE_ON and NOTE_OFF -/

/-- NOTE_ON in RUN (R160 to R162, R141): exactly one slot is the one the three steps choose, and it gets all seven fields,
its frequency by the steps of R111; every other slot, and everything else but the counter, stays. Below `2^64 - 1` the
counter goes up by one. At `2^64 - 1` the spec gives no result: that the slot is triggered there all the same is the
model's choice, and nothing is said of the counter (assumption 4). -/
def Obligations.NoteOnTriggersTheChosenSlot : Prop :=
  ∀ (s : State) (note : Word) (velocity : F32), s.formed = true → s.mode = .run → 1 ≤ s.cfg.voiceCount.toNat →
    s.cfg.voiceCount.toNat ≤ s.build.maxVoices →
    ∃ i t, s.chooses note i ∧ (∀ j, s.chooses note j → j = i) ∧ exec (.noteOn note velocity) s = .next t ∧
      t = State.answered { s with
        voices := s.voices.set i {
          active := true
          note := note
          velocity := velocity
          frequency := mul32 s.cfg.refFreq
            (exp2_32 s.build.num (div32 (i2f32 (note.toInt - s.cfg.refNote.toInt)) twelve32))
          phase := 0
          sampleRate := s.cfg.sampleRate
          trig := s.trigCtr }
        trigCtr := t.trigCtr
        freeUsed := t.freeUsed } 0 ∧
      (s.trigCtr.toNat + 1 < 2 ^ 64 → t.trigCtr.toNat = s.trigCtr.toNat + 1 ∧ t.freeUsed = s.freeUsed)

/-- NOTE_OFF in RUN (R165, R143): every slot below `cfg.VOICE_COUNT` that is bound to the note becomes Idle with note -1
and keeps its other fields; nothing else changes; under invariant I1 at most one slot does. -/
def Obligations.NoteOffReleasesTheBoundSlot : Prop :=
  ∀ (s : State) (note : Word), s.mode = .run →
    ∃ t, exec (.noteOff note) s = .next t ∧ t = State.answered { s with voices := t.voices } 0 ∧
      t.voices.length = s.voices.length ∧
      (∀ i, i < s.cfg.voiceCount.toNat → s.boundAt note i →
        t.voice i = { s.voice i with active := false, note := 0xFFFFFFFF }) ∧
      (∀ i, ¬ (i < s.cfg.voiceCount.toNat ∧ s.boundAt note i) → t.voice i = s.voice i) ∧
      (s.oneVoicePerNote → ∀ i j, t.voice i ≠ s.voice i → t.voice j ≠ s.voice j → i = j)

/-- The unmatched NOTE_OFF (R166): with no slot below `cfg.VOICE_COUNT` bound to the note, no state changes. -/
def Obligations.UnmatchedNoteOffChangesNothing : Prop :=
  ∀ (s : State) (note : Word), s.mode = .run → (∀ i, i < s.cfg.voiceCount.toNat → ¬ s.boundAt note i) →
    exec (.noteOff note) s = .next (s.answered 0)

/-! ### RENDER -/

/-- OBUF_RANGE (R207): exactly when the range does not fit, computed without wrap-around, and with no other effect. -/
def Obligations.RenderRangeCheck : Prop :=
  ∀ (s : State) (frames base : Word), s.mode = .run →
    ((s.build.obufWords < base.toNat + frames.toNat * s.cfg.channels.toNat →
        exec (.render frames base) s = .next (s.faulted 0x06)) ∧
      (base.toNat + frames.toNat * s.cfg.channels.toNat ≤ s.build.obufWords →
        exec (.render frames base) s ≠ .next (s.faulted 0x06)))

/-- RENDER in RUN completes when its range fits (R170), and its frame: each slot that sounds has its phase advanced once
per frame (R145, R146) and, for Noise, its source drawn from once per frame or once per channel of a frame (R172); every
other slot, every other field, and every byte outside the range stay; with no slot sounding every byte stays (R46). -/
def Obligations.RenderCompletes : Prop :=
  ∀ (s : State) (frames base : Word), s.formed = true → s.mode = .run → s.cfg.waveform.toNat ≤ 4 →
    base.toNat + frames.toNat * s.cfg.channels.toNat ≤ s.build.obufWords →
    ∃ t, exec (.render frames base) s = .next t ∧
      t = State.answered { s with voices := t.voices, rng := t.rng, obuf := t.obuf } 0 ∧
      t.voices.length = s.voices.length ∧ t.rng.length = s.rng.length ∧
      (∀ i, s.soundsAt i → t.voice i = { s.voice i with phase := (s.voice i).phaseAfter frames.toNat }) ∧
      (∀ i, ¬ s.soundsAt i → t.voice i = s.voice i ∧ t.rngOf i = s.rngOf i) ∧
      (s.cfg.waveform ≠ 4 → t.rng = s.rng) ∧
      (s.cfg.waveform = 4 → ∀ i, s.soundsAt i →
        t.rngOf i = sourceAfter s.build.rng (s.rngOf i)
          (if s.build.noisePerChannel then frames.toNat * s.cfg.channels.toNat else frames.toNat)) ∧
      ∀ x, (x / 4 < base.toNat ∨ base.toNat + frames.toNat * s.cfg.channels.toNat ≤ x / 4 ∨ ∀ i, ¬ s.soundsAt i) →
        t.obuf.readByte x = s.obuf.readByte x

/-- The content of every cell of a RENDER's range (R44, R170 to R172): the old content, then the samples of the slots that
sound in ascending slot index, each addition rounding; the sample of frame `f` is evaluated at the phase after `f + 1`
ticks. -/
def Obligations.RenderCellSum : Prop :=
  ∀ (s t : State) (w : Waveform) (frames base : Word), s.formed = true → s.mode = .run →
    waveformOf s.cfg.waveform = some w →
    base.toNat + frames.toNat * s.cfg.channels.toNat ≤ s.build.obufWords →
    exec (.render frames base) s = .next t →
    ∀ f c, f < frames.toNat → c < s.cfg.channels.toNat →
      t.memRead (base.toNat + f * s.cfg.channels.toNat + c) =
        s.sounding.foldl (fun acc i => add32 acc (s.sampleAt w i f (s.drawsBefore f c)))
          (s.memRead (base.toNat + f * s.cfg.channels.toNat + c))

/-- A RENDER of no frame, or with no slot sounding, changes no state (R174 (a), (c)). -/
def Obligations.SilentRenderChangesNothing : Prop :=
  ∀ (s : State) (frames base : Word), s.mode = .run →
    base.toNat + frames.toNat * s.cfg.channels.toNat ≤ s.build.obufWords →
    (frames = 0 ∨ ∀ i, ¬ s.soundsAt i) → exec (.render frames base) s = .next (s.answered 0)

/-- Splitting one RENDER into two gives the same final state and the same OBUF (R173), but for the second response. The
second base must be a u32. -/
def Obligations.RenderSplits : Prop :=
  ∀ (s t : State) (frames first base : Word), first.toNat ≤ frames.toNat → s.mode = .run →
    base.toNat + frames.toNat * s.cfg.channels.toNat ≤ s.build.obufWords →
    base.toNat + first.toNat * s.cfg.channels.toNat < 2 ^ 32 →
    exec (.render frames base) s = .next t →
    ∃ u, exec (.render first base) s = .next u ∧
      exec (.render (frames - first) (base + first * s.cfg.channels)) u =
        .next { t with responses := t.responses ++ [0#64] }

/-- The two stops of the model that are no fault of the NVE, in states that START's checks keep out of RUN (assumptions 8
and 9): a NOTE_ON with no slot below `cfg.VOICE_COUNT`, and a RENDER that would evaluate a sixth waveform. -/
def Obligations.UnreachableStops : Prop :=
  ∀ s : State, s.mode = .run →
    (s.cfg.voiceCount = 0 → ∀ note velocity, exec (.noteOn note velocity) s = .fault .noVoiceSlot) ∧
    (4 < s.cfg.waveform.toNat → ∀ frames base : Word, frames ≠ 0 → (∃ i, s.soundsAt i) →
      base.toNat + frames.toNat * s.cfg.channels.toNat ≤ s.build.obufWords →
      exec (.render frames base) s = .refused .unsupportedWaveform)

/-- Velocity is stored and never heard (R148): two states that differ in stored velocities only stay so under every
command, with equal responses, phases and OBUF; only VRD VELOCITY can tell them apart. -/
def Obligations.VelocityIsNeverHeard : Prop :=
  ∀ (i : Instr) (s t s' : State), (∀ voice, i ≠ .vrd voice 0x02) → s.sameButVelocity t → exec i s = .next s' →
    ∃ t', exec i t = .next t' ∧ s'.sameButVelocity t'

/-- What OBUF holds reaches no other state (`70_reset_and_hazards.md` R236): from states that differ in OBUF only a command
leaves states that differ in OBUF only, with equal responses. -/
def Obligations.ObufReachesNoOtherState : Prop :=
  ∀ (i : Instr) (s s' : State) (m : Memory), exec i s = .next s' →
    ∃ t', exec i { s with obuf := m } = .next t' ∧ t' = { s' with obuf := t'.obuf }

/-! ### Arithmetic -/

/-- Each f32 operation on finite operands is the exact real result rounded once, to nearest, ties to even, into f32, with
overflow to infinity and gradual underflow (R82 (a), (b), R84). -/
def Obligations.F32OperationsRoundOnce : Prop :=
  ∀ x y : F32, finite32 x → finite32 y →
    ieeeRounds 8 23 (real32 x + real32 y) (add32 x y).toNat ∧
    ieeeRounds 8 23 (real32 x - real32 y) (sub32 x y).toNat ∧
    ieeeRounds 8 23 (real32 x * real32 y) (mul32 x y).toNat ∧
    (real32 y ≠ 0 → ieeeRounds 8 23 (real32 x / real32 y) (div32 x y).toNat)

/-- The same for the f64 operations (R82 (a), (b), R85). -/
def Obligations.F64OperationsRoundOnce : Prop :=
  ∀ x y : F64, finite64 x → finite64 y →
    ieeeRounds 11 52 (real64 x + real64 y) (add64 x y).toNat ∧
    ieeeRounds 11 52 (real64 x * real64 y) (mul64 x y).toNat ∧
    (real64 y ≠ 0 → ieeeRounds 11 52 (real64 x / real64 y) (div64 x y).toNat)

/-- The special results of f32 arithmetic (R82 (d), (e), R84), for infinities and zeros of either sign: the canonical NaN
for a NaN operand and for each invalid operation (`∞ - ∞`, `0 × ∞`, `0 / 0`, `∞ / ∞`); infinite results; division by
zero; the signs of zero results. The invalid remainders are in `RemainderIsExact`. -/
def Obligations.F32SpecialResults : Prop :=
  ∀ x y : F32,
    (nanBits32 x ∨ nanBits32 y → add32 x y = 0x7FC00000 ∧ sub32 x y = 0x7FC00000 ∧ mul32 x y = 0x7FC00000 ∧
      div32 x y = 0x7FC00000 ∧ fmod32 x y = 0x7FC00000) ∧
    (¬ finite32 x → ¬ nanBits32 x → ¬ finite32 y → ¬ nanBits32 y →
      add32 x y = (if sign32 x = sign32 y then x else 0x7FC00000) ∧
      sub32 x y = (if sign32 x = sign32 y then 0x7FC00000 else x) ∧
      mul32 x y = (if sign32 x = sign32 y then 0x7F800000 else 0xFF800000) ∧
      div32 x y = 0x7FC00000) ∧
    (¬ finite32 x → ¬ nanBits32 x → finite32 y →
      add32 x y = x ∧ add32 y x = x ∧
      sub32 x y = x ∧ sub32 y x = x ^^^ 0x80000000 ∧
      (real32 y = 0 → mul32 x y = 0x7FC00000 ∧ mul32 y x = 0x7FC00000) ∧
      (real32 y ≠ 0 →
        mul32 x y = (if sign32 x = sign32 y then 0x7F800000 else 0xFF800000) ∧
        mul32 y x = (if sign32 x = sign32 y then 0x7F800000 else 0xFF800000)) ∧
      div32 x y = (if sign32 x = sign32 y then 0x7F800000 else 0xFF800000) ∧
      div32 y x = (if sign32 x = sign32 y then 0 else 0x80000000)) ∧
    (finite32 x → finite32 y →
      (real32 x + real32 y = 0 →
        add32 x y = if sign32 x = true ∧ sign32 y = true then 0x80000000 else 0) ∧
      (real32 x = real32 y →
        sub32 x y = if sign32 x = true ∧ sign32 y = false then 0x80000000 else 0) ∧
      (real32 x = 0 ∨ real32 y = 0 →
        mul32 x y = if sign32 x = sign32 y then 0 else 0x80000000) ∧
      (real32 x = 0 → real32 y ≠ 0 →
        div32 x y = if sign32 x = sign32 y then 0 else 0x80000000) ∧
      (real32 x ≠ 0 → real32 y = 0 →
        div32 x y = if sign32 x = sign32 y then 0x7F800000 else 0xFF800000) ∧
      (real32 x = 0 → real32 y = 0 → div32 x y = 0x7FC00000))

/-- The truncated remainder (R86), in both formats: exact, with the sign of `x`, below `|y|`; `x` itself for an infinite
`y`; NaN for an infinite `x`, a zero `y` or a NaN operand. -/
def Obligations.RemainderIsExact : Prop :=
  (∀ x y : F32,
    (finite32 x → finite32 y → real32 y ≠ 0 →
      finite32 (fmod32 x y) ∧ sign32 (fmod32 x y) = sign32 x ∧ |real32 (fmod32 x y)| < |real32 y| ∧
      real32 (fmod32 x y) = real32 x -
        real32 y * (if 0 ≤ real32 x / real32 y then ⌊real32 x / real32 y⌋ else ⌈real32 x / real32 y⌉ : ℤ)) ∧
    (finite32 x → ¬ finite32 y → ¬ nanBits32 y → fmod32 x y = x) ∧
    (¬ finite32 x ∨ nanBits32 y ∨ (finite32 y ∧ real32 y = 0) → fmod32 x y = 0x7FC00000)) ∧
  (∀ x y : F64,
    (finite64 x → finite64 y → real64 y ≠ 0 →
      finite64 (fmod64 x y) ∧ sign64 (fmod64 x y) = sign64 x ∧ |real64 (fmod64 x y)| < |real64 y| ∧
      real64 (fmod64 x y) = real64 x -
        real64 y * (if 0 ≤ real64 x / real64 y then ⌊real64 x / real64 y⌋ else ⌈real64 x / real64 y⌉ : ℤ)) ∧
    (finite64 x → ¬ finite64 y → ¬ nanBits64 y → fmod64 x y = x) ∧
    (¬ finite64 x ∨ nanBits64 y ∨ (finite64 y ∧ real64 y = 0) → fmod64 x y = 0x7FF8000000000000))

/-- `abs32` clears bit 31 and `neg32` inverts it, of every pattern that is not NaN; of a NaN both give the canonical NaN
(R87). -/
def Obligations.AbsAndNegActOnTheSignBit : Prop :=
  ∀ x : F32,
    (¬ nanBits32 x → abs32 x = x &&& 0x7FFFFFFF#32 ∧ neg32 x = x ^^^ 0x80000000#32) ∧
    (nanBits32 x → abs32 x = 0x7FC00000 ∧ neg32 x = 0x7FC00000)

/-- `widen` is exact for every f32 that is not NaN, and gives the canonical f64 NaN for a NaN (R88). -/
def Obligations.WidenIsExact : Prop :=
  ∀ x : F32,
    (finite32 x → finite64 (widen x) ∧ real64 (widen x) = real32 x ∧ sign64 (widen x) = sign32 x) ∧
    (nanBits32 x → widen x = 0x7FF8000000000000) ∧
    widen 0x7F800000 = 0x7FF0000000000000 ∧ widen 0xFF800000 = 0xFFF0000000000000

/-- `narrow` rounds to nearest even (R89): it is monotone, maps `+0.0` to `+0.0` and `[0, TWO_PI64)` into
`[+0.0, TWO_PI32]`, and reaches `TWO_PI32` exactly beyond the midpoint. -/
def Obligations.NarrowRoundsPhases : Prop :=
  (∀ x : F64, finite64 x → ieeeRounds 8 23 (real64 x) (narrow x).toNat) ∧
  (∀ x y : F64, ¬ nanBits64 x → ¬ nanBits64 y → key64 x ≤ key64 y → key32 (narrow x) ≤ key32 (narrow y)) ∧
  narrow 0 = 0 ∧
  ∀ x : F64, x.toNat < 0x401921FB54442D18 →
    (narrow x).toNat ≤ 0x40C90FDB ∧ (narrow x = 0x40C90FDB ↔ 0x401921FB50000000 < x.toNat)

/-- `i2f32` is the nearest f32 to the integer, ties to even, and exact up to `2^24` (R90). -/
def Obligations.IntegerToFloatRounds : Prop :=
  ∀ k : Int, ieeeRounds 8 23 (k : ℚ) (i2f32 k).toNat ∧ (|k| ≤ 2 ^ 24 → real32 (i2f32 k) = (k : ℚ))

/-- `ge0_32` is the IEEE comparison with zero (R91): true for the positive numbers, both zeros and plus infinity; false for
the negative numbers and NaN. -/
def Obligations.AtLeastZeroComparison : Prop :=
  ∀ x : F32, ge0_32 x = true ↔ (x.toNat ≤ 0x7F800000 ∨ x = 0x80000000)

/-- `clamp01_32` (R92): below 0 gives `+0.0`, above 1 gives `1.0`, a NaN gives the canonical NaN, everything else,
`-0.0` included, comes back unchanged. -/
def Obligations.ClampToUnitInterval : Prop :=
  ∀ x : F32,
    (nanBits32 x → clamp01_32 x = 0x7FC00000) ∧
    (¬ nanBits32 x → key32 x < 0 → clamp01_32 x = 0) ∧
    (¬ nanBits32 x → key32 0x3F800000 < key32 x → clamp01_32 x = 0x3F800000) ∧
    (¬ nanBits32 x → 0 ≤ key32 x → key32 x ≤ key32 0x3F800000 → clamp01_32 x = x)

/-! ### Sine, power of two, frequency -/

/-- Laws S2, S3 and S5 of R95, for every NUM record; and law S4 with the record's SIN_ERR, for every record whose sine is
not the default's (that the default meets S4 is presumed: assumption 5). -/
def Obligations.SineLaws : Prop :=
  ∀ num : NumRecord,
    (∀ x : F32,
      (finite32 x → finite32 (sin32 num x) ∧ |real32 (sin32 num x)| ≤ 1) ∧
      (¬ finite32 x → nanBits32 (sin32 num x)) ∧ sin32 num 0 = 0) ∧
    ((∀ x : F32, sin32 num x = sin32 .correctlyRounded x) ∨
      ∀ x : F32, x.toNat ≤ 0x40C90FDB →
        |((real32 (sin32 num x) : ℚ) : ℝ) - Real.sin ((real32 x : ℚ) : ℝ)| ≤ ((num.sinErr : ℚ) : ℝ))

/-- Laws E2 and E5 of R96 and the bounds of E4 that name no error parameter, for every NUM record; and laws E3, E4 and E6
whole, with the record's EXP2_ERR, for every record whose power of two is not the default's. -/
def Obligations.PowerOfTwoLaws : Prop :=
  ∀ num : NumRecord,
    (∀ x : F32,
      exp2_32 num 0 = 0x3F800000 ∧ exp2_32 num 0x80000000 = 0x3F800000 ∧
      (nanBits32 x → nanBits32 (exp2_32 num x)) ∧
      (¬ nanBits32 x → (exp2_32 num x).toNat ≤ 0x7F800000) ∧
      (¬ nanBits32 x → key32 0x43000000 ≤ key32 x → exp2_32 num x = 0x7F800000) ∧
      exp2_32 num 0xFF800000 = 0) ∧
    ((∀ x : F32, exp2_32 num x = exp2_32 .correctlyRounded x) ∨
      ((∀ x : F32, finite32 x → -126 ≤ real32 x → real32 x < 128 →
          finite32 (exp2_32 num x) ∧
          |((real32 (exp2_32 num x) : ℚ) : ℝ) / (2 : ℝ) ^ ((real32 x : ℚ) : ℝ) - 1| ≤ ((num.exp2Err : ℚ) : ℝ)) ∧
        (∀ x : F32, finite32 x → real32 x < -126 →
          finite32 (exp2_32 num x) ∧ real32 (exp2_32 num x) ≤ 1 / 2 ^ 126 * (1 + num.exp2Err)) ∧
        ∀ x y : F32, ¬ nanBits32 x → ¬ nanBits32 y → key32 x ≤ key32 y →
          (exp2_32 num x).toNat ≤ (exp2_32 num y).toNat))

/-- Law E6 of R96 for the default record: the power of two is monotone over every pattern that is not NaN; with it the
bound of E4 below -126. -/
def Obligations.PowerOfTwoMonotone : Prop :=
  (∀ x y : F32, ¬ nanBits32 x → ¬ nanBits32 y → key32 x ≤ key32 y →
    (exp2_32 .correctlyRounded x).toNat ≤ (exp2_32 .correctlyRounded y).toNat) ∧
  ∀ x : F32, ¬ nanBits32 x → key32 x < key32 0xC2FC0000 → (exp2_32 .correctlyRounded x).toNat ≤ 0x00800000

/-- The anchor (`41_frequency_mapper.md` R112): the reference note has the reference frequency bit for bit, for every
finite REF_FREQ and every NUM record; 440.0 at the reset configuration. -/
def Obligations.AnchorNoteIsExact : Prop :=
  (∀ (num : NumRecord) (cfg : ConfigRegs), finite32 cfg.refFreq → noteToFrequency num cfg cfg.refNote = cfg.refFreq) ∧
  ∀ num : NumRecord, noteToFrequency num ConfigRegs.reset 69 = 0x43DC0000

/-! ### Oscillator, random source, phase -/

/-- The output bound of the Oscillator (`42_oscillator.md` R128): for a finite gain in `[0, 1]` and a phase in
`[+0.0, TWO_PI32]` every waveform gives a finite sample in `[-g, g]`, Sawtooth not negative, Square of magnitude `g`
exactly; what a NaN phase gives. For every build and every random-source state. -/
def Obligations.OscillatorIsBounded : Prop :=
  ∀ (b : Build) (p g : F32) (r : Word),
    (finite32 g → 0 ≤ real32 g → real32 g ≤ 1 → p.toNat ≤ 0x40C90FDB → ∀ w : Waveform,
      finite32 (evaluate b w p g r).1 ∧ |real32 (evaluate b w p g r).1| ≤ real32 g ∧
      (w = .sawtooth → 0 ≤ real32 (evaluate b w p g r).1) ∧
      (w = .square → |real32 (evaluate b w p g r).1| = real32 g)) ∧
    (nanBits32 p →
      (evaluate b .sine p g r).1 = 0x7FC00000 ∧ (evaluate b .triangle p g r).1 = 0x7FC00000 ∧
      (evaluate b .sawtooth p g r).1 = 0x7FC00000 ∧ (evaluate b .square p g r).1 = neg32 g ∧
      ∀ q : F32, evaluate b .noise p g r = evaluate b .noise q g r)

/-- The reference values of R133 at `g = 1.0` with the default NUM record: phase, then Sine, Square, Triangle,
Sawtooth. -/
def Obligations.WorkedWaveforms : Prop :=
  ∀ v ∈ [[0x00000000, 0x00000000, 0x3F800000, 0xBF800000, 0x00000000],
      [0x3F000000, 0x3EF57744, 0x3F800000, 0x00000000, 0x3DA2F983],
      [0x3F800000, 0x3F576AA4, 0x3F800000, 0x3F800000, 0x3E22F983],
      [0x3FC90FDB, 0x3F800000, 0x3F800000, 0xBE10FDB0, 0x3E800000],
      [0x40000000, 0x3F68C7B7, 0x3F800000, 0xBF800000, 0x3EA2F983],
      [0x40400000, 0x3E1081C3, 0x3F800000, 0x3F800000, 0x3EF47645],
      [0x40490FDA, 0x34222169, 0x3F800000, 0x3F378130, 0x3EFFFFFF],
      [0x40490FDB, 0xB3BBBD2E, 0xBF800000, 0x3F378128, 0x3F000000],
      [0x40800000, 0xBF41BDCF, 0xBF800000, 0xBF800000, 0x3F22F983],
      [0x4096CBE4, 0xBF800000, 0xBF800000, 0x3ED97C80, 0x3F400000],
      [0x40A00000, 0xBF757C10, 0xBF800000, 0x3F800000, 0x3F4BB7E4],
      [0x40C00000, 0xBE8F0F8C, 0xBF800000, 0xBF800000, 0x3F747645],
      [0x40C90FDA, 0xB4A22169, 0xBF800000, 0xBEDE04C0, 0x3F7FFFFF],
      [0x40C90FDB, 0x343BBD2E, 0x3F800000, 0xBEDE04A0, (0x3F800000 : Nat)]],
    [Waveform.sine, .square, .triangle, .sawtooth].map
        (fun w => ((evaluate Build.default w (BitVec.ofNat 32 (v.getD 0 0)) one32 1).1).toNat) = v.drop 1

/-- The random sources. Law G2 of R130, for every RNG record: the sample is a finite f32 in `[+0.0, 1.0]`. The default
record (R131): a step is a bijection that fixes 0; a draw is 24 steps, so a source that is not zero never becomes zero; the
sample is `k / 2^24` exactly, with the first output bit as bit 23 of `k` and the last as bit 0. -/
def Obligations.RandomSourceLaws : Prop :=
  (∀ (rng : RngRecord) (r : Word),
    finite32 (rngNext rng r).2 ∧ 0 ≤ real32 (rngNext rng r).2 ∧ real32 (rngNext rng r).2 ≤ 1) ∧
  Function.Bijective lfsrStep ∧ lfsrStep 0 = 0 ∧
  ∀ s : Word, (rngNext .lfsr s).1 = lfsrStep^[24] s ∧ (s ≠ 0 → (rngNext .lfsr s).1 ≠ 0) ∧
    ∃ k : Nat, k < 2 ^ 24 ∧ (∀ j < 24, k.testBit (23 - j) = (lfsrStep^[j] s).getLsbD 0) ∧
      finite32 (rngNext .lfsr s).2 ∧ sign32 (rngNext .lfsr s).2 = false ∧
      real32 (rngNext .lfsr s).2 = (k : ℚ) / 2 ^ 24

/-- The phase law (`43_voice.md` R147): after any number of ticks with a finite increment that is not negative the phase is
in `[+0.0, TWO_PI64)`, and `TWO_PI64` is below the real `2π`; a finite frequency that is not negative and a finite positive
sample rate give such an increment. For subnormal sample rates this last clause is the model's reading (DEDUCED,
assumption 15): it follows R147 and the f64 formula of R145 against the remarks of `45_system_commands.md` R184 (b) and
`93_implementation_defined.md` U1, by which such increments overflow. -/
def Obligations.PhaseLaw : Prop :=
  (∀ (v : Voice) (n : Nat), phaseInRange v.phase → v.incrementOk → phaseInRange (v.phaseAfter n)) ∧
  ((real64 twoPi64 : ℚ) : ℝ) < 2 * Real.pi ∧
  ∀ v : Voice, finite32 v.frequency → 0 ≤ real32 v.frequency → finite32 v.sampleRate → 0 < real32 v.sampleRate →
    v.incrementOk

/-! ### Reset, invariants, the host -/

/-- The reset values of the table of R36, for every state that is reset: OBUF as it was, the queue empty. -/
def Obligations.ResetValues : Prop :=
  ∀ s t : State, t = s.hardwareReset →
    t.build = s.build ∧ t.mode = .config ∧ t.err = false ∧ t.errcode = 0 ∧ t.trigCtr = 0 ∧
    t.cfg.voiceCount = 1 ∧ t.cfg.waveform = 0 ∧ t.cfg.gain = 0 ∧ t.cfg.refNote = 69 ∧ t.cfg.refFreq = 0x43DC0000 ∧
    t.cfg.sampleRate = 0 ∧ t.cfg.channels = 1 ∧
    t.voices.length = s.build.maxVoices ∧
    (∀ i, i < s.build.maxVoices →
      t.voice i =
        { active := false, note := -1, velocity := 0, frequency := 0, phase := 0, sampleRate := 0, trig := 0 }) ∧
    t.rng.length = s.build.maxVoices ∧ (∀ i, i < s.build.maxVoices → t.rngOf i = BitVec.ofNat 32 (i + 1)) ∧
    t.obuf = s.obuf ∧ t.queue = []

/-- Hardware reset during a RENDER (`70_reset_and_hazards.md` R230, U10), wherever it falls: all state but OBUF is at its
reset value, and every cell holds its old content or what the whole RENDER would have left there. The new cells are a
prefix in access order: with a slot that sounds, in frame `f` after `n` channels, those from `base` on below
`base + f * CHANNELS + n`. -/
def Obligations.ResetDuringRenderLeavesAPrefix : Prop :=
  ∀ (s t : State) (frames base : Word) (f n : Nat), s.formed = true → s.mode = .run →
    base.toNat + frames.toNat * s.cfg.channels.toNat ≤ s.build.obufWords → exec (.render frames base) s = .next t →
    s.resetInRender frames base f n = { s.hardwareReset with obuf := (s.resetInRender frames base f n).obuf } ∧
      (∀ a, (s.resetInRender frames base f n).memRead a = s.memRead a ∨
        (s.resetInRender frames base f n).memRead a = t.memRead a) ∧
      ((∃ i, s.soundsAt i) → f < frames.toNat → n ≤ s.cfg.channels.toNat → ∀ a,
        (s.resetInRender frames base f n).memRead a =
          if base.toNat ≤ a ∧ a < base.toNat + f * s.cfg.channels.toNat + n then t.memRead a else s.memRead a)

/-- The machine right after reset meets the invariant, I2 and I4, for every lawful build. `State.reset` is such a machine:
hardware reset of the default build with an OBUF that lists nothing, which are the model's choices (assumptions 2
and 3). -/
def Obligations.ResetIsSound : Prop :=
  (∀ b : Build, b.wf = true →
    (State.resetOf b).Sound ∧ (State.resetOf b).phasesInRange ∧ (State.resetOf b).stampsFresh) ∧
  State.reset = { State.reset.hardwareReset with obuf := [] } ∧ State.reset.build = Build.default

/-- Every step keeps the invariant (R35 I1, I3, I5; R222; R17; R32; the canonical form of OBUF), from every state that
meets it. -/
def Obligations.StepKeepsTheInvariant : Prop :=
  ∀ s t : State, s.Sound → step s = .next t → t.Sound

/-- Every step keeps I2 of R35 under its numeric premise: the increments of the slots that sound are finite and not
negative. -/
def Obligations.StepKeepsPhasesInRange : Prop :=
  ∀ s t : State, s.phasesInRange → s.incrementsOk → step s = .next t → t.phasesInRange

/-- Every step keeps I4 of R35 while the counter is below `2^64 - 1`, which U6 lets a model presume: the stamps of Sounding
slots are distinct and below the counter. -/
def Obligations.StepKeepsStampsFresh : Prop :=
  ∀ s t : State, s.trigCtr.toNat + 1 < 2 ^ 64 → s.stampsFresh → step s = .next t → t.stampsFresh

/-- No step stops from a state that meets the invariant: every command word is answered. -/
def Obligations.SoundStatesNeverStop : Prop :=
  ∀ s : State, s.Sound → stepsOn s

/-- Every state of every run of a lawful build, with host stores between commands and resets between or
during them, meets the invariant,
has at most one voice per note below `cfg.VOICE_COUNT` (I1), and steps on. -/
def Obligations.RunsStaySound : Prop :=
  ∀ (b : Build) (s : State), b.wf = true → Reachable b s → s.Sound ∧ s.oneVoicePerNote ∧ stepsOn s ∧ s.build = b

/-- `MemWrite` replaces one cell and changes no other (`20_memory.md` R43), little-endian in the byte view (R47); the
canonical form stays. -/
def Obligations.MemWriteReplacesOneCell : Prop :=
  ∀ (s : State) (a : Nat) (v : F32), s.obuf.wf = true →
    (s.memWrite a v).memRead a = v ∧ (∀ a', a' ≠ a → (s.memWrite a v).memRead a' = s.memRead a') ∧
    (∀ k, k < 4 → (s.memWrite a v).obuf.readByte (4 * a + k) = v.extractLsb' (8 * k) 8) ∧
    (∀ x, x / 4 ≠ a → (s.memWrite a v).obuf.readByte x = s.obuf.readByte x) ∧
    (s.memWrite a v).obuf.wf = true ∧ s.memWrite a v = { s with obuf := (s.memWrite a v).obuf }

/-- The command port (R66): a word is accepted exactly when the queue is not full, goes behind every earlier one, and does
not change what the next command does. -/
def Obligations.OfferedCommandsWaitInOrder : Prop :=
  (∀ (s : State) (w : CmdWord), s.queue.length < s.build.queueDepth →
    s.offer w = some { s with queue := s.queue ++ [w] }) ∧
  (∀ (s : State) (w : CmdWord), s.build.queueDepth ≤ s.queue.length → s.offer w = none) ∧
  ∀ (s t : State) (w : CmdWord), s.offer w = some t →
    s.queue.length < s.build.queueDepth ∧ t = { s with queue := s.queue ++ [w] } ∧
    (s.queue ≠ [] → ∀ u, step s = .next u → ∃ u', u.offer w = some u' ∧ step t = .next u')

/-! ### Arithmetic in f64 -/

/-- The special results of f64 arithmetic (R82 (d), (e), R85), for infinities and zeros of either sign: the canonical NaN
for a NaN operand and for each invalid operation (`∞ - ∞`, `0 × ∞`, `0 / 0`, `∞ / ∞`); infinite results; division by
zero; the signs of zero results. The invalid remainders are in `RemainderIsExact`. -/
def Obligations.F64SpecialResults : Prop :=
  ∀ x y : F64,
    (nanBits64 x ∨ nanBits64 y → add64 x y = 0x7FF8000000000000 ∧ mul64 x y = 0x7FF8000000000000 ∧
      div64 x y = 0x7FF8000000000000) ∧
    (¬ finite64 x → ¬ nanBits64 x → ¬ finite64 y → ¬ nanBits64 y →
      add64 x y = (if sign64 x = sign64 y then x else 0x7FF8000000000000) ∧
      mul64 x y = (if sign64 x = sign64 y then 0x7FF0000000000000 else 0xFFF0000000000000) ∧
      div64 x y = 0x7FF8000000000000) ∧
    (¬ finite64 x → ¬ nanBits64 x → finite64 y →
      add64 x y = x ∧ add64 y x = x ∧
      (real64 y = 0 → mul64 x y = 0x7FF8000000000000 ∧ mul64 y x = 0x7FF8000000000000) ∧
      (real64 y ≠ 0 →
        mul64 x y = (if sign64 x = sign64 y then 0x7FF0000000000000 else 0xFFF0000000000000) ∧
        mul64 y x = (if sign64 x = sign64 y then 0x7FF0000000000000 else 0xFFF0000000000000)) ∧
      div64 x y = (if sign64 x = sign64 y then 0x7FF0000000000000 else 0xFFF0000000000000) ∧
      div64 y x = (if sign64 x = sign64 y then 0 else 0x8000000000000000)) ∧
    (finite64 x → finite64 y →
      (real64 x + real64 y = 0 →
        add64 x y = if sign64 x = true ∧ sign64 y = true then 0x8000000000000000 else 0) ∧
      (real64 x = 0 ∨ real64 y = 0 →
        mul64 x y = if sign64 x = sign64 y then 0 else 0x8000000000000000) ∧
      (real64 x = 0 → real64 y ≠ 0 →
        div64 x y = if sign64 x = sign64 y then 0 else 0x8000000000000000) ∧
      (real64 x ≠ 0 → real64 y = 0 →
        div64 x y = if sign64 x = sign64 y then 0x7FF0000000000000 else 0xFFF0000000000000) ∧
      (real64 x = 0 → real64 y = 0 → div64 x y = 0x7FF8000000000000))

end
end

