-- ==== Sys2Proof/Laws/Float.lean ====
section
/-! SUPPORT. The laws of the one rounding function: it returns every representable number unchanged, it is monotone,
and it never passes infinity. -/

namespace Sys2Proof.Machine

/-! ### Rounding to an integer -/

theorem roundNearestEven_ge (n d : Nat) : n / d ≤ roundNearestEven n d := by
  unfold roundNearestEven; split <;> omega

theorem roundNearestEven_le (n d : Nat) : roundNearestEven n d ≤ n / d + 1 := by
  unfold roundNearestEven; split <;> omega

/-- An exact quotient is not changed. -/
theorem roundNearestEven_exact (k : Nat) {d : Nat} (hd : 0 < d) : roundNearestEven (k * d) d = k := by
  unfold roundNearestEven
  have h : k * d % d = 0 := Nat.mul_mod_left k d
  rw [Nat.mul_div_cancel _ hd, h]
  simp; omega

@[simp] theorem roundNearestEven_one (n : Nat) : roundNearestEven n 1 = n := by
  have := roundNearestEven_exact n Nat.one_pos
  simpa using this

/-- Rounding to an integer is monotone in the exact quotient. -/
theorem roundNearestEven_mono {n₁ d₁ n₂ d₂ : Nat} (h₁ : 0 < d₁) (h₂ : 0 < d₂) (h : n₁ * d₂ ≤ n₂ * d₁) :
    roundNearestEven n₁ d₁ ≤ roundNearestEven n₂ d₂ := by
  have hq : n₁ / d₁ ≤ n₂ / d₂ := by
    rw [Nat.le_div_iff_mul_le h₂]
    have : n₁ / d₁ * d₂ * d₁ ≤ n₂ * d₁ := by
      calc n₁ / d₁ * d₂ * d₁ = (n₁ / d₁ * d₁) * d₂ := by ring
        _ ≤ n₁ * d₂ := Nat.mul_le_mul_right _ (Nat.div_mul_le_self _ _)
        _ ≤ n₂ * d₁ := h
    exact Nat.le_of_mul_le_mul_right this h₁
  rcases Nat.lt_or_ge (n₁ / d₁) (n₂ / d₂) with hlt | hge
  · exact (roundNearestEven_le _ _).trans (hlt.trans_le (roundNearestEven_ge _ _))
  · have heq : n₁ / d₁ = n₂ / d₂ := Nat.le_antisymm hq hge
    have e₁ := Nat.div_add_mod n₁ d₁
    have e₂ := Nat.div_add_mod n₂ d₂
    have hr : n₁ % d₁ * d₂ ≤ n₂ % d₂ * d₁ := by
      rw [← e₁, ← e₂, heq] at h
      have : d₁ * (n₂ / d₂) * d₂ = d₂ * (n₂ / d₂) * d₁ := by ring
      rw [Nat.add_mul, Nat.add_mul, this] at h
      exact Nat.le_of_add_le_add_left h
    unfold roundNearestEven
    rw [heq]
    by_cases c₁ : d₁ < 2 * (n₁ % d₁) ∨ (d₁ = 2 * (n₁ % d₁) ∧ n₂ / d₂ % 2 = 1)
    · rw [if_pos c₁]
      have c₂ : d₂ < 2 * (n₂ % d₂) ∨ (d₂ = 2 * (n₂ % d₂) ∧ n₂ / d₂ % 2 = 1) := by
        have key : d₁ * d₂ ≤ 2 * (n₂ % d₂) * d₁ := by
          have : d₁ ≤ 2 * (n₁ % d₁) := by omega
          calc d₁ * d₂ ≤ 2 * (n₁ % d₁) * d₂ := Nat.mul_le_mul_right _ this
            _ = 2 * (n₁ % d₁ * d₂) := by ring
            _ ≤ 2 * (n₂ % d₂ * d₁) := Nat.mul_le_mul_left _ hr
            _ = 2 * (n₂ % d₂) * d₁ := by ring
        have hle : d₂ ≤ 2 * (n₂ % d₂) := by
          rw [Nat.mul_comm d₁ d₂] at key
          exact Nat.le_of_mul_le_mul_right key h₁
        rcases c₁ with c | ⟨c, hodd⟩
        · left
          have : d₁ * d₂ < 2 * (n₂ % d₂) * d₁ := by
            calc d₁ * d₂ < 2 * (n₁ % d₁) * d₂ := Nat.mul_lt_mul_of_pos_right c h₂
              _ = 2 * (n₁ % d₁ * d₂) := by ring
              _ ≤ 2 * (n₂ % d₂ * d₁) := Nat.mul_le_mul_left _ hr
              _ = 2 * (n₂ % d₂) * d₁ := by ring
          rw [Nat.mul_comm d₁ d₂] at this
          exact Nat.lt_of_mul_lt_mul_right this
        · rcases Nat.lt_or_ge d₂ (2 * (n₂ % d₂)) with h3 | h3
          · exact .inl h3
          · exact .inr ⟨by omega, hodd⟩
      rw [if_pos c₂]
    · rw [if_neg c₁]; split <;> omega

/-! ### The magnitude bits before the cap at infinity -/

/-- The magnitude bits `roundMag` caps at infinity. -/
def Fmt.rawMag (f : Fmt) (n d : Nat) : Nat :=
  f.shift (n / d) * 2 ^ (f.prec - 1) + roundNearestEven n (d * 2 ^ f.shift (n / d))

theorem Fmt.roundMag_eq (f : Fmt) (n d : Nat) : f.roundMag n d = min f.infMag (f.rawMag n d) := rfl

theorem Fmt.roundMag_le_infMag (f : Fmt) (n d : Nat) : f.roundMag n d ≤ f.infMag := Nat.min_le_left _ _

theorem Fmt.shift_of_lt {f : Fmt} {q : Nat} (h : q < 2 ^ f.prec) : f.shift q = 0 := by simp [Fmt.shift, h]

/-- A shifted quotient has exactly the precision's bits. -/
theorem Fmt.shift_bounds {f : Fmt} (hp : 1 ≤ f.prec) {q : Nat} (h : 2 ^ f.prec ≤ q) :
    1 ≤ f.shift q ∧ 2 ^ (f.prec - 1 + f.shift q) ≤ q ∧ q < 2 ^ (f.prec + f.shift q) := by
  have hq : q ≠ 0 := by have := Nat.two_pow_pos f.prec; omega
  have hl : f.prec ≤ Nat.log2 q := (Nat.le_log2 hq).2 h
  have hs : f.shift q = Nat.log2 q - (f.prec - 1) := by simp [Fmt.shift, Nat.not_lt.2 h]
  refine ⟨by omega, ?_, ?_⟩
  · rw [hs, show f.prec - 1 + (Nat.log2 q - (f.prec - 1)) = Nat.log2 q by omega]
    exact Nat.log2_self_le hq
  · rw [hs, show f.prec + (Nat.log2 q - (f.prec - 1)) = Nat.log2 q + 1 by omega]
    exact Nat.lt_log2_self

theorem Fmt.shift_mono {f : Fmt} (hp : 1 ≤ f.prec) {q₁ q₂ : Nat} (h : q₁ ≤ q₂) : f.shift q₁ ≤ f.shift q₂ := by
  rcases Nat.lt_or_ge q₁ (2 ^ f.prec) with h1 | h1
  · rw [Fmt.shift_of_lt h1]; omega
  · have b₁ := Fmt.shift_bounds hp h1
    have b₂ := Fmt.shift_bounds hp (h1.trans h)
    by_contra hc
    have : 2 ^ (f.prec + f.shift q₂) ≤ 2 ^ (f.prec - 1 + f.shift q₁) := Nat.pow_le_pow_right (by omega) (by omega)
    omega

theorem pow_pred_mul_two {p : Nat} (hp : 1 ≤ p) : 2 ^ p = 2 * 2 ^ (p - 1) := by
  obtain ⟨k, rfl⟩ : ∃ k, p = k + 1 := ⟨p - 1, by omega⟩
  simp [Nat.pow_succ, Nat.mul_comm]

/-- `rawMag` with shift `j` lies between the binade's ends. -/
theorem Fmt.rawMag_bounds {f : Fmt} (hp : 1 ≤ f.prec) {n d : Nat} (hd : 0 < d) :
    (f.shift (n / d) ≠ 0 → (f.shift (n / d) + 1) * 2 ^ (f.prec - 1) ≤ f.rawMag n d) ∧
      f.rawMag n d ≤ (f.shift (n / d) + 2) * 2 ^ (f.prec - 1) := by
  have e := pow_pred_mul_two hp
  rcases Nat.lt_or_ge (n / d) (2 ^ f.prec) with h | h
  · have hs := Fmt.shift_of_lt h
    refine ⟨fun h0 => absurd hs h0, ?_⟩
    unfold Fmt.rawMag
    rw [hs]
    have := roundNearestEven_le n (d * 2 ^ 0)
    simp only [Nat.pow_zero, Nat.mul_one] at this ⊢
    omega
  · obtain ⟨h1, h2, h3⟩ := Fmt.shift_bounds hp h
    have hD : 0 < d * 2 ^ f.shift (n / d) := Nat.mul_pos hd (Nat.two_pow_pos _)
    have hdiv : n / (d * 2 ^ f.shift (n / d)) = n / d / 2 ^ f.shift (n / d) := (Nat.div_div_eq_div_mul _ _ _).symm
    have lo : 2 ^ (f.prec - 1) ≤ n / (d * 2 ^ f.shift (n / d)) := by
      rw [hdiv, Nat.le_div_iff_mul_le (Nat.two_pow_pos _), ← Nat.pow_add]; exact h2
    have hi : n / (d * 2 ^ f.shift (n / d)) < 2 ^ f.prec := by
      rw [hdiv, Nat.div_lt_iff_lt_mul (Nat.two_pow_pos _), ← Nat.pow_add]; exact h3
    have r1 := roundNearestEven_ge n (d * 2 ^ f.shift (n / d))
    have r2 := roundNearestEven_le n (d * 2 ^ f.shift (n / d))
    unfold Fmt.rawMag
    constructor
    · intro _; rw [Nat.add_mul]; omega
    · rw [Nat.add_mul]; omega

/-- The magnitude bits are monotone in the exact quotient. -/
theorem Fmt.rawMag_mono {f : Fmt} (hp : 1 ≤ f.prec) {n₁ d₁ n₂ d₂ : Nat} (h₁ : 0 < d₁) (h₂ : 0 < d₂)
    (h : n₁ * d₂ ≤ n₂ * d₁) : f.rawMag n₁ d₁ ≤ f.rawMag n₂ d₂ := by
  have hq : n₁ / d₁ ≤ n₂ / d₂ := by
    rw [Nat.le_div_iff_mul_le h₂]
    have : n₁ / d₁ * d₂ * d₁ ≤ n₂ * d₁ := by
      calc n₁ / d₁ * d₂ * d₁ = (n₁ / d₁ * d₁) * d₂ := by ring
        _ ≤ n₁ * d₂ := Nat.mul_le_mul_right _ (Nat.div_mul_le_self _ _)
        _ ≤ n₂ * d₁ := h
    exact Nat.le_of_mul_le_mul_right this h₁
  have hs := Fmt.shift_mono hp hq
  rcases Nat.lt_or_ge (f.shift (n₁ / d₁)) (f.shift (n₂ / d₂)) with hlt | hge
  · calc f.rawMag n₁ d₁ ≤ (f.shift (n₁ / d₁) + 2) * 2 ^ (f.prec - 1) := (Fmt.rawMag_bounds hp h₁).2
      _ ≤ (f.shift (n₂ / d₂) + 1) * 2 ^ (f.prec - 1) := Nat.mul_le_mul_right _ (by omega)
      _ ≤ f.rawMag n₂ d₂ := (Fmt.rawMag_bounds hp h₂).1 (by omega)
  · have heq : f.shift (n₁ / d₁) = f.shift (n₂ / d₂) := Nat.le_antisymm hs hge
    unfold Fmt.rawMag
    rw [heq]
    refine Nat.add_le_add_left (roundNearestEven_mono (Nat.mul_pos h₁ (Nat.two_pow_pos _))
      (Nat.mul_pos h₂ (Nat.two_pow_pos _)) ?_) _
    calc n₁ * (d₂ * 2 ^ f.shift (n₂ / d₂)) = n₁ * d₂ * 2 ^ f.shift (n₂ / d₂) := by ring
      _ ≤ n₂ * d₁ * 2 ^ f.shift (n₂ / d₂) := Nat.mul_le_mul_right _ h
      _ = n₂ * (d₁ * 2 ^ f.shift (n₂ / d₂)) := by ring

/-- Rounding to the format is monotone in the exact quotient (`40_numerics.md` R89: "narrow is monotone"). -/
theorem Fmt.roundMag_mono {f : Fmt} (hp : 1 ≤ f.prec) {n₁ d₁ n₂ d₂ : Nat} (h₁ : 0 < d₁) (h₂ : 0 < d₂)
    (h : n₁ * d₂ ≤ n₂ * d₁) : f.roundMag n₁ d₁ ≤ f.roundMag n₂ d₂ := by
  have := Fmt.rawMag_mono hp h₁ h₂ h
  simp only [Fmt.roundMag_eq]; omega

/-! ### Representable numbers -/

/-- A representable number of quanta rounds to its own magnitude bits. -/
theorem Fmt.rawMag_quanta {f : Fmt} (hp : 1 ≤ f.prec) (m : Nat) : f.rawMag (f.quanta m) 1 = m := by
  have e := pow_pred_mul_two hp
  have hpos := Nat.two_pow_pos (f.prec - 1)
  have hm := Nat.div_add_mod m (2 ^ (f.prec - 1))
  have hlt := Nat.mod_lt m hpos
  unfold Fmt.quanta
  split
  · have h0 : m < 2 ^ (f.prec - 1) := by
      rcases Nat.div_eq_zero_iff.1 ‹_› with h | h <;> omega
    unfold Fmt.rawMag
    rw [Nat.div_one, Fmt.shift_of_lt (by omega)]
    simp
  · generalize hE : m / 2 ^ (f.prec - 1) = E at *
    generalize hF : m % 2 ^ (f.prec - 1) = F at *
    obtain ⟨k, rfl⟩ : ∃ k, E = k + 1 := ⟨E - 1, by omega⟩
    simp only [Nat.add_sub_cancel]
    have hq : f.shift ((F + 2 ^ (f.prec - 1)) * 2 ^ k) = k := by
      rcases Nat.eq_zero_or_pos k with rfl | hk
      · exact Fmt.shift_of_lt (by simp; omega)
      · have big : 2 ^ f.prec ≤ (F + 2 ^ (f.prec - 1)) * 2 ^ k := by
          calc 2 ^ f.prec = 2 ^ (f.prec - 1) * 2 := by omega
            _ ≤ (F + 2 ^ (f.prec - 1)) * 2 ^ k :=
              Nat.mul_le_mul (by omega) (by simpa using Nat.pow_le_pow_right (n := 2) (by omega) hk)
        obtain ⟨_, h2, h3⟩ := Fmt.shift_bounds hp big
        have up : (F + 2 ^ (f.prec - 1)) * 2 ^ k < 2 ^ (f.prec + k) := by
          rw [Nat.pow_add]; exact Nat.mul_lt_mul_of_pos_right (by omega) (Nat.two_pow_pos _)
        have low : 2 ^ (f.prec - 1 + k) ≤ (F + 2 ^ (f.prec - 1)) * 2 ^ k := by
          rw [Nat.pow_add]; exact Nat.mul_le_mul_right _ (by omega)
        have a := (Nat.pow_lt_pow_iff_right (a := 2) (by omega)).1 (h2.trans_lt up)
        have b := (Nat.pow_lt_pow_iff_right (a := 2) (by omega)).1 (low.trans_lt h3)
        omega
    unfold Fmt.rawMag
    rw [Nat.div_one, hq, Nat.one_mul, roundNearestEven_exact _ (Nat.two_pow_pos _)]
    have : 2 ^ (f.prec - 1) * (k + 1) = k * 2 ^ (f.prec - 1) + 2 ^ (f.prec - 1) := by ring
    omega

/-- Below infinity, a representable number is not changed by rounding. -/
theorem Fmt.roundMag_quanta {f : Fmt} (hp : 1 ≤ f.prec) {m : Nat} (h : m ≤ f.infMag) :
    f.roundMag (f.quanta m) 1 = m := by
  rw [Fmt.roundMag_eq, Fmt.rawMag_quanta hp]; omega

/-- The quanta of magnitude bits are strictly monotone. -/
theorem Fmt.quanta_le_iff {f : Fmt} (hp : 1 ≤ f.prec) {m₁ m₂ : Nat} : f.quanta m₁ ≤ f.quanta m₂ ↔ m₁ ≤ m₂ := by
  have mono : ∀ {a b : Nat}, f.quanta a ≤ f.quanta b → a ≤ b := by
    intro a b h
    have := Fmt.rawMag_mono hp (n₁ := f.quanta a) (n₂ := f.quanta b) Nat.one_pos Nat.one_pos (by omega)
    rwa [Fmt.rawMag_quanta hp, Fmt.rawMag_quanta hp] at this
  refine ⟨mono, fun h => ?_⟩
  by_contra hc
  have h2 := mono (Nat.le_of_lt (Nat.not_le.1 hc))
  have : m₁ = m₂ := Nat.le_antisymm h h2
  subst this
  exact hc (le_refl _)

/-- A quotient that is at most a representable number rounds to at most that number. -/
theorem Fmt.roundMag_le_of_le_quanta {f : Fmt} (hp : 1 ≤ f.prec) {n d m : Nat} (hd : 0 < d)
    (h : n ≤ f.quanta m * d) : f.roundMag n d ≤ m := by
  rcases Nat.lt_or_ge f.infMag m with h' | h'
  · exact (Fmt.roundMag_le_infMag f n d).trans (Nat.le_of_lt h')
  · have := Fmt.roundMag_mono hp (n₁ := n) (n₂ := f.quanta m) hd Nat.one_pos (by omega)
    rwa [Fmt.roundMag_quanta hp h'] at this

/-- A quotient that is at least a representable number rounds to at least that number. -/
theorem Fmt.le_roundMag_of_quanta_le {f : Fmt} (hp : 1 ≤ f.prec) {n d m : Nat} (hd : 0 < d) (hm : m ≤ f.infMag)
    (h : f.quanta m * d ≤ n) : m ≤ f.roundMag n d := by
  have := Fmt.roundMag_mono hp (n₁ := f.quanta m) (n₂ := n) Nat.one_pos hd (by omega)
  rwa [Fmt.roundMag_quanta hp hm] at this

end Sys2Proof.Machine
end

