-- ==== Sys2Proof/Laws/Memory.lean ====
section
/-! SUPPORT. The laws of the output buffer: a read after a write, and the canonical form that every write keeps. -/

namespace Sys2Proof.Machine

@[simp] theorem Memory.readByte_nil (x : Nat) : Memory.readByte [] x = unlistedByte := rfl

theorem Memory.wfAbove_mono {lo lo' : Nat} {m : Memory} (h : Memory.wfAbove lo m = true) (hl : lo' ≤ lo) :
    Memory.wfAbove lo' m = true := by
  cases m with
  | nil => rfl
  | cons c m =>
    simp only [Memory.wfAbove, Bool.and_eq_true, decide_eq_true_eq] at h ⊢
    exact ⟨⟨by omega, h.1.2⟩, h.2⟩

/-- An address below every listed one reads as unlisted. -/
theorem Memory.readByte_below {lo x : Nat} {m : Memory} (h : Memory.wfAbove lo m = true) (hx : x < lo) :
    m.readByte x = unlistedByte := by
  induction m generalizing lo with
  | nil => rfl
  | cons c m ih =>
    simp only [Memory.wfAbove, Bool.and_eq_true, decide_eq_true_eq] at h
    simp only [Memory.readByte]
    rw [if_neg (by omega)]
    exact ih h.2 (by omega)

/-- A write leaves every other byte as it was. -/
theorem Memory.readByte_writeByte_other (m : Memory) {x y : Nat} (v : Byte) (h : x ≠ y) :
    (m.writeByte x v).readByte y = m.readByte y := by
  induction m with
  | nil => simp only [Memory.writeByte]; split <;> simp [Memory.readByte, h]
  | cons c m ih =>
    simp only [Memory.writeByte]
    split
    · split <;> simp [Memory.readByte, h]
    · split
      · subst_vars; split <;> simp [Memory.readByte, h]
      · simp [Memory.readByte, ih]

theorem Memory.readByte_writeByte_above {lo : Nat} {m : Memory} (h : Memory.wfAbove lo m = true) (x : Nat) (v : Byte) :
    (m.writeByte x v).readByte x = v := by
  induction m generalizing lo with
  | nil => simp only [Memory.writeByte]; split <;> simp_all [Memory.readByte]
  | cons c m ih =>
    simp only [Memory.wfAbove, Bool.and_eq_true, decide_eq_true_eq] at h
    simp only [Memory.writeByte]
    split
    · split
      · subst_vars
        simp only [Memory.readByte]
        rw [if_neg (by omega)]
        exact Memory.readByte_below h.2 (by omega)
      · simp [Memory.readByte]
    · split
      · split
        · subst_vars; exact Memory.readByte_below h.2 (by omega)
        · simp [Memory.readByte]
      · simp only [Memory.readByte]
        rw [if_neg (by omega)]
        exact ih h.2

/-- A byte just written reads as written. -/
theorem Memory.readByte_writeByte_same {m : Memory} (h : m.wf = true) (x : Nat) (v : Byte) :
    (m.writeByte x v).readByte x = v := Memory.readByte_writeByte_above h x v

theorem Memory.wfAbove_writeByte {lo x : Nat} {m : Memory} (h : Memory.wfAbove lo m = true) (hx : lo ≤ x) (v : Byte) :
    Memory.wfAbove lo (m.writeByte x v) = true := by
  induction m generalizing lo with
  | nil => simp only [Memory.writeByte]; split <;> simp_all [Memory.wfAbove]
  | cons c m ih =>
    simp only [Memory.wfAbove, Bool.and_eq_true, decide_eq_true_eq] at h
    simp only [Memory.writeByte]
    split
    · split
      · simp only [Memory.wfAbove, Bool.and_eq_true, decide_eq_true_eq]; exact h
      · simp only [Memory.wfAbove, Bool.and_eq_true, decide_eq_true_eq]
        exact ⟨⟨hx, ‹_›⟩, ⟨by omega, h.1.2⟩, h.2⟩
    · split
      · subst_vars
        split
        · exact Memory.wfAbove_mono h.2 (by omega)
        · simp only [Memory.wfAbove, Bool.and_eq_true, decide_eq_true_eq]
          exact ⟨⟨hx, ‹_›⟩, h.2⟩
      · simp only [Memory.wfAbove, Bool.and_eq_true, decide_eq_true_eq]
        exact ⟨h.1, ih h.2 (by omega)⟩

/-- Every byte write keeps the canonical form. -/
theorem Memory.wf_writeByte {m : Memory} (h : m.wf = true) (x : Nat) (v : Byte) : (m.writeByte x v).wf = true :=
  Memory.wfAbove_writeByte h (Nat.zero_le x) v

/-- Every cell write keeps the canonical form. -/
theorem Memory.wf_writeCell {m : Memory} (h : m.wf = true) (a : Nat) (v : Word) : (m.writeCell a v).wf = true := by
  unfold Memory.writeCell
  exact Memory.wf_writeByte (Memory.wf_writeByte (Memory.wf_writeByte (Memory.wf_writeByte h _ _) _ _) _ _) _ _

theorem Memory.within_cons {n : Nat} {c : Host.Cell} {m : Memory} :
    Memory.within n (c :: m) = true ↔ c.1 < 4 * n ∧ Memory.within n m = true := by
  simp [Memory.within]

theorem Memory.within_writeByte {n x : Nat} {m : Memory} (h : m.within n = true) (hx : x < 4 * n) (v : Byte) :
    (m.writeByte x v).within n = true := by
  induction m with
  | nil => simp only [Memory.writeByte]; split <;> simp_all [Memory.within]
  | cons c m ih =>
    have hc := Memory.within_cons.1 h
    simp only [Memory.writeByte]
    split
    · split
      · exact h
      · exact Memory.within_cons.2 ⟨hx, h⟩
    · split
      · split
        · exact hc.2
        · exact Memory.within_cons.2 ⟨hx, hc.2⟩
      · exact Memory.within_cons.2 ⟨hc.1, ih hc.2⟩

/-- A write to a cell of the buffer stays inside the buffer. -/
theorem Memory.within_writeCell {n a : Nat} {m : Memory} (h : m.within n = true) (ha : a < n) (v : Word) :
    (m.writeCell a v).within n = true := by
  unfold Memory.writeCell
  exact Memory.within_writeByte (Memory.within_writeByte (Memory.within_writeByte (Memory.within_writeByte h
    (by omega) _) (by omega) _) (by omega) _) (by omega) _

/-- A cell write leaves every byte of every other cell as it was. -/
theorem Memory.readByte_writeCell_other (m : Memory) {a x : Nat} (v : Word) (h : x / 4 ≠ a) :
    (m.writeCell a v).readByte x = m.readByte x := by
  unfold Memory.writeCell
  rw [Memory.readByte_writeByte_other _ _ (by omega), Memory.readByte_writeByte_other _ _ (by omega),
    Memory.readByte_writeByte_other _ _ (by omega), Memory.readByte_writeByte_other _ _ (by omega)]

theorem Memory.readCell_congr {m n : Memory} {a : Nat} (h : ∀ x, x / 4 = a → m.readByte x = n.readByte x) :
    m.readCell a = n.readCell a := by
  unfold Memory.readCell
  rw [h _ (by omega), h _ (by omega), h _ (by omega), h _ (by omega)]

/-- A cell write leaves every other cell as it was (`20_memory.md` R43). -/
theorem Memory.readCell_writeCell_other (m : Memory) {a b : Nat} (v : Word) (h : a ≠ b) :
    (m.writeCell a v).readCell b = m.readCell b :=
  Memory.readCell_congr (fun x hx => Memory.readByte_writeCell_other m v (by omega))

theorem bytes_append (v : Word) :
    v.extractLsb' 24 8 ++ v.extractLsb' 16 8 ++ v.extractLsb' 8 8 ++ v.extractLsb' 0 8 = v := by
  ext i hi
  simp only [BitVec.getElem_append, BitVec.getElem_extractLsb']
  split
  · simp [BitVec.getLsbD_eq_getElem, hi]
  · split
    · rw [← BitVec.getLsbD_eq_getElem]; congr 1; omega
    · split <;> (rw [← BitVec.getLsbD_eq_getElem]; congr 1; omega)

/-- A cell just written reads as written (`20_memory.md` R42, R43). -/
theorem Memory.readCell_writeCell_same {m : Memory} (h : m.wf = true) (a : Nat) (v : Word) :
    (m.writeCell a v).readCell a = v := by
  unfold Memory.readCell Memory.writeCell
  have h1 := Memory.wf_writeByte h (4 * a) (v.extractLsb' 0 8)
  have h2 := Memory.wf_writeByte h1 (4 * a + 1) (v.extractLsb' 8 8)
  have h3 := Memory.wf_writeByte h2 (4 * a + 2) (v.extractLsb' 16 8)
  rw [Memory.readByte_writeByte_same h3, Memory.readByte_writeByte_other _ _ (by omega),
    Memory.readByte_writeByte_same h2, Memory.readByte_writeByte_other _ _ (by omega),
    Memory.readByte_writeByte_other _ _ (by omega), Memory.readByte_writeByte_same h1,
    Memory.readByte_writeByte_other _ _ (by omega), Memory.readByte_writeByte_other _ _ (by omega),
    Memory.readByte_writeByte_other _ _ (by omega), Memory.readByte_writeByte_same h]
  exact bytes_append v

end Sys2Proof.Machine
end

