-- ==== Sys2Proof/Laws/Numerics.lean ====
section
/-! SUPPORT. The laws that lead from a bit pattern to its value and back, and what each operation of `40_numerics.md`
answers on finite operands. -/

namespace Sys2Proof.Machine

/-! ### Patterns and values, in any format -/

theorem Fmt.infMag_lt_signMag {f : Fmt} : f.infMag < f.signMag := by
  unfold Fmt.infMag Fmt.signMag
  rw [Nat.pow_add, Nat.mul_comm]
  have h1 := Nat.two_pow_pos f.expBits
  exact Nat.mul_lt_mul_of_pos_left (by omega) (Nat.two_pow_pos _)

theorem Fmt.pack_mod {f : Fmt} {neg : Bool} {m : Nat} (h : m < f.signMag) : f.pack neg m % f.signMag = m := by
  cases neg <;> simp [Fmt.pack, Nat.mod_eq_of_lt h]

theorem Fmt.pack_sign {f : Fmt} {neg : Bool} {m : Nat} (h : m < f.signMag) :
    decide (f.signMag ≤ f.pack neg m) = neg := by
  cases neg <;> simp [Fmt.pack, h]

theorem Fmt.pack_lt {f : Fmt} {neg : Bool} {m : Nat} (h : m < f.signMag) : f.pack neg m < 2 * f.signMag := by
  cases neg <;> simp only [Fmt.pack] <;> simp <;> omega

/-- The value of a packed sign and magnitude. -/
theorem Fmt.unpack_pack {f : Fmt} {neg : Bool} {m : Nat} (h : m ≤ f.infMag) :
    f.unpack (f.pack neg m) = if m = f.infMag then .inf neg else .fin neg (f.quanta m) := by
  have hm : m < f.signMag := h.trans_lt Fmt.infMag_lt_signMag
  unfold Fmt.unpack
  rw [Fmt.pack_mod hm, Fmt.pack_sign hm, if_neg (Nat.not_lt.2 h)]

/-- A pattern is its sign and its magnitude. -/
theorem Fmt.pack_of_bits {f : Fmt} {bits : Nat} (h : bits < 2 * f.signMag) :
    f.pack (decide (f.signMag ≤ bits)) (bits % f.signMag) = bits := by
  by_cases hs : f.signMag ≤ bits
  · have : bits % f.signMag = bits - f.signMag := by
      rw [Nat.mod_eq_sub_mod hs, Nat.mod_eq_of_lt (by omega)]
    simp [Fmt.pack, hs]; omega
  · simp [Fmt.pack, hs, Nat.mod_eq_of_lt (Nat.not_le.1 hs)]

/-- What a finite value says of its pattern. -/
theorem Fmt.unpack_fin {f : Fmt} {bits : Nat} {neg : Bool} {q : Nat} (h : f.unpack bits = .fin neg q) :
    bits % f.signMag < f.infMag ∧ neg = decide (f.signMag ≤ bits) ∧ q = f.quanta (bits % f.signMag) := by
  unfold Fmt.unpack at h
  split at h
  · simp at h
  · split at h
    · simp at h
    · simp only [FVal.fin.injEq] at h
      exact ⟨by omega, h.1.symm, h.2.symm⟩

/-- What an infinite value says of its pattern. -/
theorem Fmt.unpack_inf {f : Fmt} {bits : Nat} {neg : Bool} (h : f.unpack bits = .inf neg) :
    bits % f.signMag = f.infMag ∧ neg = decide (f.signMag ≤ bits) := by
  unfold Fmt.unpack at h
  split at h
  · simp at h
  · split at h
    · simp only [FVal.inf.injEq] at h; exact ⟨‹_›, h.symm⟩
    · simp at h

/-- What a NaN says of its pattern. -/
theorem Fmt.unpack_nan {f : Fmt} {bits : Nat} (h : f.unpack bits = .nan) : f.infMag < bits % f.signMag := by
  unfold Fmt.unpack at h
  split at h
  · assumption
  · split at h <;> simp at h

theorem Fmt.roundTo_lt {f : Fmt} (neg : Bool) (n d : Nat) : f.roundTo neg n d < 2 * f.signMag :=
  Fmt.pack_lt ((Fmt.roundMag_le_infMag f n d).trans_lt Fmt.infMag_lt_signMag)

/-- The value of a rounded result. -/
theorem Fmt.unpack_roundTo {f : Fmt} (neg : Bool) (n d : Nat) :
    f.unpack (f.roundTo neg n d) =
      if f.roundMag n d = f.infMag then .inf neg else .fin neg (f.quanta (f.roundMag n d)) :=
  Fmt.unpack_pack (Fmt.roundMag_le_infMag f n d)

@[simp] theorem Fmt.quanta_zero (f : Fmt) : f.quanta 0 = 0 := by simp [Fmt.quanta]

/-! ### The two formats -/

@[simp] theorem fmt32_signMag : fmt32.signMag = 2147483648 := by decide
@[simp] theorem fmt32_infMag : fmt32.infMag = 2139095040 := by decide
@[simp] theorem fmt32_prec : fmt32.prec = 24 := rfl
@[simp] theorem fmt32_quantum : fmt32.quantum = 149 := rfl
@[simp] theorem fmt32_canonicalNan : fmt32.canonicalNan = 2143289344 := by decide
@[simp] theorem fmt64_signMag : fmt64.signMag = 9223372036854775808 := by decide
@[simp] theorem fmt64_infMag : fmt64.infMag = 9218868437227405312 := by decide
@[simp] theorem fmt64_prec : fmt64.prec = 53 := rfl
@[simp] theorem fmt64_quantum : fmt64.quantum = 1074 := rfl
@[simp] theorem fmt64_canonicalNan : fmt64.canonicalNan = 9221120237041090560 := by decide

theorem fmt32_prec_pos : 1 ≤ fmt32.prec := by decide
theorem fmt64_prec_pos : 1 ≤ fmt64.prec := by decide

/-- A rounded f32 result keeps its pattern in a word. -/
theorem toNat_roundTo32 (neg : Bool) (n d : Nat) :
    (BitVec.ofNat 32 (fmt32.roundTo neg n d)).toNat = fmt32.roundTo neg n d := by
  have := Fmt.roundTo_lt (f := fmt32) neg n d
  rw [fmt32_signMag] at this
  rw [BitVec.toNat_ofNat]; exact Nat.mod_eq_of_lt (by omega)

/-- A rounded f64 result keeps its pattern in a word. -/
theorem toNat_roundTo64 (neg : Bool) (n d : Nat) :
    (BitVec.ofNat 64 (fmt64.roundTo neg n d)).toNat = fmt64.roundTo neg n d := by
  have := Fmt.roundTo_lt (f := fmt64) neg n d
  rw [fmt64_signMag] at this
  rw [BitVec.toNat_ofNat]; exact Nat.mod_eq_of_lt (by omega)

/-- The value of a rounded f32 result. -/
theorem val32_roundTo (neg : Bool) (n d : Nat) :
    val32 (BitVec.ofNat 32 (fmt32.roundTo neg n d)) =
      if fmt32.roundMag n d = fmt32.infMag then .inf neg else .fin neg (fmt32.quanta (fmt32.roundMag n d)) := by
  unfold val32; rw [toNat_roundTo32, Fmt.unpack_roundTo]

/-- The value of a rounded f64 result. -/
theorem val64_roundTo (neg : Bool) (n d : Nat) :
    val64 (BitVec.ofNat 64 (fmt64.roundTo neg n d)) =
      if fmt64.roundMag n d = fmt64.infMag then .inf neg else .fin neg (fmt64.quanta (fmt64.roundMag n d)) := by
  unfold val64; rw [toNat_roundTo64, Fmt.unpack_roundTo]

/-- What a finite f32 value says of its pattern. -/
theorem val32_fin {x : F32} {neg : Bool} {q : Nat} (h : val32 x = .fin neg q) :
    x.toNat % 2147483648 < 2139095040 ∧ neg = decide (2147483648 ≤ x.toNat) ∧
      q = fmt32.quanta (x.toNat % 2147483648) := by
  simpa using Fmt.unpack_fin (f := fmt32) h

/-- What a finite f64 value says of its pattern. -/
theorem val64_fin {x : F64} {neg : Bool} {q : Nat} (h : val64 x = .fin neg q) :
    x.toNat % 9223372036854775808 < 9218868437227405312 ∧ neg = decide (9223372036854775808 ≤ x.toNat) ∧
      q = fmt64.quanta (x.toNat % 9223372036854775808) := by
  simpa using Fmt.unpack_fin (f := fmt64) h

/-- A finite f32 rounds to itself. -/
theorem roundTo_of_val32 {x : F32} {neg : Bool} {q : Nat} (h : val32 x = .fin neg q) :
    fmt32.roundTo neg q 1 = x.toNat := by
  obtain ⟨h1, h2, h3⟩ := val32_fin h
  unfold Fmt.roundTo
  rw [h3, Fmt.roundMag_quanta fmt32_prec_pos (by rw [fmt32_infMag]; omega), h2]
  have := Fmt.pack_of_bits (f := fmt32) (bits := x.toNat) (by rw [fmt32_signMag]; have := x.isLt; omega)
  simpa using this

/-- A finite f64 rounds to itself. -/
theorem roundTo_of_val64 {x : F64} {neg : Bool} {q : Nat} (h : val64 x = .fin neg q) :
    fmt64.roundTo neg q 1 = x.toNat := by
  obtain ⟨h1, h2, h3⟩ := val64_fin h
  unfold Fmt.roundTo
  rw [h3, Fmt.roundMag_quanta fmt64_prec_pos (by rw [fmt64_infMag]; omega), h2]
  have := Fmt.pack_of_bits (f := fmt64) (bits := x.toNat) (by rw [fmt64_signMag]; have := x.isLt; omega)
  simpa using this

/-- Finiteness, by value. -/
theorem isFinite32_iff {x : F32} : isFinite32 x = true ↔ ∃ neg q, val32 x = .fin neg q := by
  unfold isFinite32; cases val32 x <;> simp

/-- Finiteness, by value. -/
theorem isFinite64_iff {x : F64} : isFinite64 x = true ↔ ∃ neg q, val64 x = .fin neg q := by
  unfold isFinite64; cases val64 x <;> simp

/-- NaN, by value. -/
theorem isNaN32_iff {x : F32} : isNaN32 x = true ↔ val32 x = .nan := by
  unfold isNaN32; cases val32 x <;> simp

/-! ### The operations on finite operands -/

theorem mul32_fin {x y : F32} {a b : Bool} {m n : Nat} (hx : val32 x = .fin a m) (hy : val32 y = .fin b n) :
    mul32 x y = BitVec.ofNat 32 (fmt32.roundTo (a != b) (m * n) (2 ^ 149)) := by
  unfold val32 at hx hy; simp [mul32, Fmt.mulBits, hx, hy]

theorem div32_fin {x y : F32} {a b : Bool} {m n : Nat} (hx : val32 x = .fin a m) (hy : val32 y = .fin b n)
    (hn : n ≠ 0) : div32 x y = BitVec.ofNat 32 (fmt32.roundTo (a != b) (m * 2 ^ 149) n) := by
  unfold val32 at hx hy; simp [div32, Fmt.divBits, hx, hy, hn]

theorem fmod32_fin {x y : F32} {a b : Bool} {m n : Nat} (hx : val32 x = .fin a m) (hy : val32 y = .fin b n)
    (hn : n ≠ 0) : fmod32 x y = BitVec.ofNat 32 (fmt32.roundTo a (m % n) 1) := by
  unfold val32 at hx hy; simp [fmod32, Fmt.fmodBits, hx, hy, hn]

theorem add32_fin {x y : F32} {a b : Bool} {m n : Nat} (hx : val32 x = .fin a m) (hy : val32 y = .fin b n) :
    add32 x y = BitVec.ofNat 32
      (if a = b then fmt32.roundTo a (m + n) 1 else if m = n then fmt32.pack false 0
        else if n < m then fmt32.roundTo a (m - n) 1 else fmt32.roundTo b (n - m) 1) := by
  unfold val32 at hx hy; simp [add32, Fmt.addBits, hx, hy]

theorem add64_fin {x y : F64} {a b : Bool} {m n : Nat} (hx : val64 x = .fin a m) (hy : val64 y = .fin b n) :
    add64 x y = BitVec.ofNat 64
      (if a = b then fmt64.roundTo a (m + n) 1 else if m = n then fmt64.pack false 0
        else if n < m then fmt64.roundTo a (m - n) 1 else fmt64.roundTo b (n - m) 1) := by
  unfold val64 at hx hy; simp [add64, Fmt.addBits, hx, hy]

theorem fmod64_fin {x y : F64} {a b : Bool} {m n : Nat} (hx : val64 x = .fin a m) (hy : val64 y = .fin b n)
    (hn : n ≠ 0) : fmod64 x y = BitVec.ofNat 64 (fmt64.roundTo a (m % n) 1) := by
  unfold val64 at hx hy; simp [fmod64, Fmt.fmodBits, hx, hy, hn]

theorem narrow_fin {x : F64} {a : Bool} {m : Nat} (hx : val64 x = .fin a m) :
    narrow x = BitVec.ofNat 32 (fmt32.roundTo a (m * 2 ^ fmt32.quantum) (2 ^ fmt64.quantum)) := by
  unfold val64 at hx; unfold narrow Fmt.convertBits; rw [hx]

theorem widen_fin {x : F32} {a : Bool} {m : Nat} (hx : val32 x = .fin a m) :
    widen x = BitVec.ofNat 64 (fmt64.roundTo a (m * 2 ^ fmt64.quantum) (2 ^ fmt32.quantum)) := by
  unfold val32 at hx; unfold widen Fmt.convertBits; rw [hx]

end Sys2Proof.Machine
end

