-- ==== Sys2Proof/Laws/NumRecords.lean ====
section
/-! SUPPORT. The laws of the numerics record (`40_numerics.md` R95, R96): what every record but the default keeps, and that
the laws can be met at the least error parameters, so that a record other than the default is not empty. -/

namespace Sys2Proof.Machine

/-! ### What a record keeps -/

/-- A record's sine is the default's or meets the laws of R95 with the record's SIN_ERR. -/
theorem sin32_cases (num : NumRecord) : sin32 num = sin32 .correctlyRounded ∨ SinLaws num.sinErr (sin32 num) := by
  cases num with
  | correctlyRounded => exact .inl rfl
  | other k s e =>
    cases h : Config.otherSin (SinLaws (NumRecord.other k s e).sinErr) k with
    | none => left; funext x; simp [sin32, h]
    | some f =>
      right
      have : sin32 (.other k s e) = f.1 := by funext x; simp [sin32, h]
      rw [this]; exact f.2

/-- A record's power of two is the default's or meets the laws of R96 with the record's EXP2_ERR. -/
theorem exp2_32_cases (num : NumRecord) :
    exp2_32 num = exp2_32 .correctlyRounded ∨ Exp2Laws num.exp2Err (exp2_32 num) := by
  cases num with
  | correctlyRounded => exact .inl rfl
  | other k s e =>
    cases h : Config.otherExp2 (Exp2Laws (NumRecord.other k s e).exp2Err) k with
    | none => left; funext x; simp [exp2_32, h]
    | some f =>
      right
      have : exp2_32 (.other k s e) = f.1 := by funext x; simp [exp2_32, h]
      rw [this]; exact f.2

/-- No record's SIN_ERR is below the default's. -/
theorem sinErr_ge (num : NumRecord) : 1 / 2 ^ 25 ≤ num.sinErr := by
  cases num <;> simp [NumRecord.sinErr]

/-- No record's EXP2_ERR is below the default's. -/
theorem exp2Err_ge (num : NumRecord) : 1 / 2 ^ 24 ≤ num.exp2Err := by
  cases num <;> simp [NumRecord.exp2Err]

/-! ### Patterns with a given number of quanta -/

/-- A significand `a` and an exponent `e`, `a = 2^24` included, as magnitude bits. -/
theorem quanta_significand {a e : Nat} (h1 : 2 ^ 23 ≤ a) (h2 : a ≤ 2 ^ 24) :
    fmt32.quanta (e * 2 ^ 23 + a) = a * 2 ^ e := by
  unfold Fmt.quanta
  rw [fmt32_prec, show (2 : Nat) ^ (24 - 1) = 8388608 from rfl]
  rw [show (2 : Nat) ^ 23 = 8388608 from rfl] at h1
  rw [show (2 : Nat) ^ 24 = 16777216 from rfl] at h2
  rcases Nat.lt_or_ge a 16777216 with h | h
  · have hd : (e * 8388608 + a) / 8388608 = e + 1 := by omega
    have hm : (e * 8388608 + a) % 8388608 = a - 8388608 := by omega
    rw [if_neg (by omega), hd, hm]
    congr 1; omega
  · obtain rfl : a = 16777216 := by omega
    have hd : (e * 8388608 + 16777216) / 8388608 = e + 2 := by omega
    have hm : (e * 8388608 + 16777216) % 8388608 = 0 := by omega
    rw [if_neg (by omega), hd, hm]
    rw [show e + 2 - 1 = e + 1 by omega, Nat.pow_succ]; omega

/-- The value of a finite pattern with a sign and magnitude bits. -/
theorem val32_pack {neg : Bool} {m : Nat} (h : m < fmt32.infMag) :
    val32 (BitVec.ofNat 32 (fmt32.pack neg m)) = .fin neg (fmt32.quanta m) := by
  have hlt : fmt32.pack neg m < 2 ^ 32 := by
    have := Fmt.pack_lt (f := fmt32) (neg := neg) (h.trans Fmt.infMag_lt_signMag)
    simp only [fmt32_signMag] at this; omega
  unfold val32
  rw [BitVec.toNat_ofNat, Nat.mod_eq_of_lt hlt, Fmt.unpack_pack h.le, if_neg h.ne]

/-- The number of a finite value. -/
theorem value32_of_fin {x : F32} {neg : Bool} {q : Nat} (h : val32 x = .fin neg q) :
    value32 x = (if neg then -(q : ℚ) else q) / 2 ^ 149 := by
  simp [value32, h]

/-! ### A sine that meets the laws -/

/-- Every multiple of 2^-24 in [-1, 1] is an f32. -/
theorem exists_f32_of_units (k : ℤ) (hk : |k| ≤ 2 ^ 24) :
    ∃ y : F32, magLeOne y = true ∧ value32 y = (k : ℚ) / 2 ^ 24 ∧ (k = 0 → y = 0) := by
  rcases eq_or_ne k 0 with rfl | h0
  · exact ⟨0, by decide, by simp [value32, val32, Fmt.unpack, Fmt.quanta], fun _ => rfl⟩
  obtain ⟨m, hm, hq⟩ : ∃ m, m ≤ 127 * 2 ^ 23 ∧ fmt32.quanta m = k.natAbs * 2 ^ 125 := by
    have hn : k.natAbs ≠ 0 := by omega
    have hle : k.natAbs ≤ 2 ^ 24 := by
      have : ((k.natAbs : ℕ) : ℤ) ≤ 2 ^ 24 := by rw [Int.natCast_natAbs]; exact hk
      exact_mod_cast this
    generalize k.natAbs = n at *
    rcases Nat.lt_or_ge n (2 ^ 24) with hlt | hge
    · have l1 := Nat.log2_self_le hn
      have l2 := Nat.lt_log2_self (n := n)
      have hL : Nat.log2 n < 24 := (Nat.log2_lt hn).2 hlt
      generalize Nat.log2 n = L at *
      have ha1 : 2 ^ 23 ≤ n * 2 ^ (23 - L) := by
        calc 2 ^ 23 = 2 ^ L * 2 ^ (23 - L) := by rw [← Nat.pow_add]; congr 1; omega
          _ ≤ _ := Nat.mul_le_mul_right _ l1
      have ha2 : n * 2 ^ (23 - L) ≤ 2 ^ 24 := by
        calc n * 2 ^ (23 - L) ≤ 2 ^ (L + 1) * 2 ^ (23 - L) := Nat.mul_le_mul_right _ l2.le
          _ = 2 ^ 24 := by rw [← Nat.pow_add]; congr 1; omega
      refine ⟨(102 + L) * 2 ^ 23 + n * 2 ^ (23 - L), ?_, ?_⟩
      · exact (Nat.add_le_add (Nat.mul_le_mul_right _ (by omega : 102 + L ≤ 125)) ha2).trans (by norm_num)
      · rw [quanta_significand ha1 ha2, Nat.mul_assoc, ← Nat.pow_add]
        congr 2; omega
    · obtain rfl : n = 2 ^ 24 := by omega
      exact ⟨125 * 2 ^ 23 + 2 ^ 24, by norm_num, quanta_significand (by norm_num) le_rfl⟩
  have hinf : m < fmt32.infMag := by rw [fmt32_infMag]; omega
  refine ⟨BitVec.ofNat 32 (fmt32.pack (decide (k < 0)) m), ?_, ?_, fun h => absurd h h0⟩
  · have hlt : fmt32.pack (decide (k < 0)) m < 2 ^ 32 := by
      have := Fmt.pack_lt (f := fmt32) (neg := decide (k < 0)) (hinf.trans Fmt.infMag_lt_signMag)
      simp only [fmt32_signMag] at this; omega
    unfold magLeOne
    rw [BitVec.toNat_ofNat, Nat.mod_eq_of_lt hlt, Fmt.pack_mod (hinf.trans Fmt.infMag_lt_signMag)]
    simp [one32]; omega
  · rw [value32_of_fin (val32_pack hinf), hq]
    have habs : ((k.natAbs : ℕ) : ℚ) = |(k : ℚ)| := by rw [Nat.cast_natAbs, Int.cast_abs]
    have hs : (if decide (k < 0) = true then -((k.natAbs * 2 ^ 125 : ℕ) : ℚ) else ((k.natAbs * 2 ^ 125 : ℕ) : ℚ)) =
        k * 2 ^ 125 := by
      push_cast
      rw [habs]
      rcases lt_or_ge k 0 with h | h
      · rw [if_pos (by simpa using h), abs_of_neg (by exact_mod_cast h)]; norm_num
      · rw [if_neg (by simpa using h), abs_of_nonneg (by exact_mod_cast h)]; norm_num
    rw [hs]; norm_num; ring

/-- Rounding to an integer keeps the order. -/
theorem round_mono {a b : ℝ} (h : a ≤ b) : round a ≤ round b := by
  rw [round_eq, round_eq]; exact Int.floor_le_floor (by linarith)

/-- The laws of R95 can be met with SIN_ERR = 2^-25, and so with any greater one. -/
theorem exists_sinLaws {err : ℚ} (h : 1 / 2 ^ 25 ≤ err) : ∃ f, SinLaws err f := by
  have hk : ∀ r : ℝ, |round (Real.sin r * 2 ^ 24)| ≤ 2 ^ 24 := by
    intro r
    have h1 := Real.sin_le_one r
    have h2 := Real.neg_one_le_sin r
    rw [abs_le]
    constructor
    · have : round ((-(2 ^ 24 : ℤ) : ℤ) : ℝ) ≤ round (Real.sin r * 2 ^ 24) :=
        round_mono (by push_cast; nlinarith)
      rwa [round_intCast] at this
    · have : round (Real.sin r * 2 ^ 24) ≤ round (((2 ^ 24 : ℤ) : ℤ) : ℝ) :=
        round_mono (by push_cast; nlinarith)
      rwa [round_intCast] at this
  choose g hg1 hg2 hg3 using fun r : ℝ => exists_f32_of_units _ (hk r)
  refine ⟨fun x => if isFinite32 x = true then g ((value32 x : ℚ) : ℝ) else nan32, ?_, ?_, ?_, ?_⟩
  · intro x hx; simp only [hx, if_true]; exact hg1 _
  · intro x hx
    have : isNaN32 nan32 = true := by decide
    simpa [hx] using this
  · intro x hx
    have hfin : isFinite32 x = true := by
      have hx' : x.toNat ≤ 1086918619 := hx
      unfold isFinite32 val32 Fmt.unpack
      have hm : x.toNat % fmt32.signMag = x.toNat := Nat.mod_eq_of_lt (by rw [fmt32_signMag]; omega)
      rw [hm, fmt32_infMag, if_neg (by omega), if_neg (by omega)]
    simp only [hfin, if_true]
    rw [hg2]
    push_cast
    have hr := abs_sub_round (Real.sin ((value32 x : ℚ) : ℝ) * 2 ^ 24)
    generalize Real.sin ((value32 x : ℚ) : ℝ) = s at *
    have e : ((round (s * 2 ^ 24) : ℤ) : ℝ) / 2 ^ 24 - s = -((s * 2 ^ 24 - round (s * 2 ^ 24)) / 2 ^ 24) := by
      field_simp; ring
    rw [e, abs_neg, abs_div, abs_of_pos (by positivity : (0 : ℝ) < 2 ^ 24)]
    have h' : ((1 / 2 ^ 25 : ℚ) : ℝ) ≤ (err : ℝ) := by exact_mod_cast h
    push_cast at h'
    refine le_trans ?_ h'
    rw [div_le_iff₀ (by positivity)]
    refine hr.trans ?_
    norm_num
  · have h0 : isFinite32 0 = true := by decide
    have hv : value32 0 = 0 := by simp [value32, val32, Fmt.unpack, Fmt.quanta]
    simp only [h0, if_true]
    exact hg3 _ (by rw [hv]; simp)

/-! ### A power of two that meets the laws -/

/-- Patterns up to that of infinity are ordered as IEEE 754 orders them. -/
theorem lt32_of_toNat_le {a b : F32} (h : a.toNat ≤ b.toNat) (hb : b.toNat ≤ inf32.toNat) : lt32 b a = false := by
  have hb' : b.toNat ≤ 2139095040 := hb
  have val : ∀ z : F32, z.toNat ≤ 2139095040 →
      val32 z = if z.toNat = 2139095040 then .inf false else .fin false (fmt32.quanta z.toNat) := by
    intro z hz
    unfold val32 Fmt.unpack
    rw [fmt32_signMag, Nat.mod_eq_of_lt (by omega), fmt32_infMag, if_neg (by omega),
      decide_eq_false (by omega)]
  unfold lt32
  rw [val a (h.trans hb'), val b hb']
  by_cases h1 : b.toNat = 2139095040 <;> by_cases h2 : a.toNat = 2139095040
  · simp [h1, h2]
  · simp [h1, h2]
  · omega
  · simp only [h1, h2, if_false, decide_eq_false_iff_not, not_lt]
    exact (Fmt.quanta_le_iff fmt32_prec_pos).2 h

/-- The numbers of finite values are ordered as IEEE 754 orders them. -/
theorem value32_le {x y : F32} {a b : Bool} {m n : Nat} (hx : val32 x = .fin a m) (hy : val32 y = .fin b n)
    (h : lt32 y x = false) : value32 x ≤ value32 y := by
  rw [value32_of_fin hx, value32_of_fin hy]
  refine div_le_div_of_nonneg_right ?_ (by positivity)
  unfold lt32 at h
  rw [hx, hy] at h
  have hm : (0 : ℚ) ≤ m := Nat.cast_nonneg m
  have hn : (0 : ℚ) ≤ n := Nat.cast_nonneg n
  cases a <;> cases b <;> simp at h ⊢
  · exact_mod_cast h
  · obtain ⟨rfl, rfl⟩ := h; simp
  · linarith
  · exact_mod_cast h

/-- A finite f32 below 128 is at most the greatest such, 128 - 2^-17. -/
theorem value32_le_of_lt_128 {x : F32} (hx : isFinite32 x = true) (h : value32 x < 128) :
    value32 x ≤ 128 - 1 / 2 ^ 17 := by
  obtain ⟨a, q, hv⟩ := isFinite32_iff.1 hx
  obtain ⟨h1, -, hq⟩ := val32_fin hv
  rw [value32_of_fin hv] at h ⊢
  have hq0 : (0 : ℚ) ≤ q := Nat.cast_nonneg q
  cases a
  · simp only [Bool.false_eq_true, if_false] at h ⊢
    have hlt : q < 128 * 2 ^ 149 := by
      have : (q : ℚ) < 128 * 2 ^ 149 := by rwa [div_lt_iff₀ (by positivity)] at h
      exact_mod_cast this
    have key : q ≤ (2 ^ 24 - 1) * 2 ^ 132 := by
      have e1 : fmt32.quanta (132 * 2 ^ 23 + 2 ^ 24) = 2 ^ 24 * 2 ^ 132 := quanta_significand (by norm_num) le_rfl
      have e2 : fmt32.quanta (132 * 2 ^ 23 + (2 ^ 24 - 1)) = (2 ^ 24 - 1) * 2 ^ 132 :=
        quanta_significand (by norm_num) (by norm_num)
      have hne : ¬ fmt32.quanta (132 * 2 ^ 23 + 2 ^ 24) ≤ q := by rw [e1]; omega
      rw [hq, Fmt.quanta_le_iff fmt32_prec_pos] at hne
      rw [← e2, hq, Fmt.quanta_le_iff fmt32_prec_pos]
      omega
    rw [div_le_iff₀ (by positivity)]
    have : (q : ℚ) ≤ ((2 ^ 24 - 1) * 2 ^ 132 : ℕ) := by exact_mod_cast key
    refine this.trans (le_of_eq ?_)
    norm_num
  · simp only [if_true]
    have : -(q : ℚ) / 2 ^ 149 ≤ 0 := div_nonpos_of_nonpos_of_nonneg (by linarith) (by positivity)
    linarith [show (0 : ℚ) ≤ 128 - 1 / 2 ^ 17 by norm_num]

/-- The significand of 2^r rounded to 24 bits, with its exponent: what `expPattern` encodes. -/
theorem significand_bounds (r : ℝ) :
    2 ^ 23 ≤ round ((2 : ℝ) ^ Int.fract r * 2 ^ 23) ∧ round ((2 : ℝ) ^ Int.fract r * 2 ^ 23) ≤ 2 ^ 24 := by
  have h1 : (1 : ℝ) ≤ 2 ^ Int.fract r := Real.one_le_rpow (by norm_num) (Int.fract_nonneg r)
  have h2 : (2 : ℝ) ^ Int.fract r ≤ 2 := by
    calc (2 : ℝ) ^ Int.fract r ≤ 2 ^ (1 : ℝ) := Real.rpow_le_rpow_of_exponent_le (by norm_num) (Int.fract_lt_one r).le
      _ = 2 := Real.rpow_one 2
  constructor
  · have := round_mono (a := ((2 ^ 23 : ℤ) : ℝ)) (b := (2 : ℝ) ^ Int.fract r * 2 ^ 23) (by push_cast; nlinarith)
    rwa [round_intCast] at this
  · have := round_mono (a := (2 : ℝ) ^ Int.fract r * 2 ^ 23) (b := ((2 ^ 24 : ℤ) : ℝ)) (by push_cast; nlinarith)
    rwa [round_intCast] at this

/-- Magnitude bits near 2^r for `-126 ≤ r ≤ 128 - 2^-17`: finite, within 2^-24 of 2^r, and monotone in `r`. -/
theorem exists_expPattern : ∃ P : ℝ → Nat,
    (∀ r, -126 ≤ r → r ≤ 128 - 1 / 2 ^ 17 → P r < 2139095040 ∧
      |((fmt32.quanta (P r) : ℕ) : ℝ) / 2 ^ 149 / (2 : ℝ) ^ r - 1| ≤ 1 / 2 ^ 24) ∧
    (∀ r s, -126 ≤ r → r ≤ s → P r ≤ P s) ∧ P 0 = 1065353216 := by
  refine ⟨fun r => (⌊r⌋ + 126).toNat * 2 ^ 23 + (round ((2 : ℝ) ^ Int.fract r * 2 ^ 23)).toNat, ?_, ?_, ?_⟩
  · intro r hr1 hr2
    beta_reduce
    obtain ⟨b1, b2⟩ := significand_bounds r
    have hn1 : -126 ≤ ⌊r⌋ := Int.le_floor.2 (by push_cast; exact hr1)
    have hn2 : ⌊r⌋ < 128 := Int.floor_lt.2 (by push_cast; linarith [show (0 : ℝ) < 1 / 2 ^ 17 by positivity])
    obtain ⟨e, he⟩ : ∃ e : ℕ, ⌊r⌋ = (e : ℤ) - 126 := ⟨(⌊r⌋ + 126).toNat, by omega⟩
    have hde : (⌊r⌋ + 126).toNat = e := by omega
    have hround := abs_sub_round ((2 : ℝ) ^ Int.fract r * 2 ^ 23)
    have hfr : r = ⌊r⌋ + Int.fract r := (Int.floor_add_fract r).symm
    have hpow : (2 : ℝ) ^ r = (2 : ℝ) ^ Int.fract r * (2 ^ e / 2 ^ 126) := by
      conv_lhs => rw [hfr]
      rw [Real.rpow_add (by norm_num), Real.rpow_intCast, he, zpow_sub₀ (by norm_num), zpow_natCast, mul_comm]
      norm_num
    have ht1 : (1 : ℝ) ≤ 2 ^ Int.fract r := Real.one_le_rpow (by norm_num) (Int.fract_nonneg r)
    have htop : ⌊r⌋ = 127 → round ((2 : ℝ) ^ Int.fract r * 2 ^ 23) < 2 ^ 24 := by
      intro h127
      have hf : Int.fract r ≤ 1 - 1 / 2 ^ 17 := by
        have : r = 127 + Int.fract r := by rw [h127] at hfr; exact_mod_cast hfr
        linarith
      have hlt : (2 : ℝ) ^ Int.fract r ≤ 2 * (1 - 1 / 2 ^ 19) := by
        calc (2 : ℝ) ^ Int.fract r ≤ 2 ^ (1 - 1 / 2 ^ 17 : ℝ) :=
              Real.rpow_le_rpow_of_exponent_le (by norm_num) hf
          _ = 2 * (2 : ℝ) ^ (-(1 / 2 ^ 17) : ℝ) := by
              rw [sub_eq_add_neg, Real.rpow_add (by norm_num), Real.rpow_one]
          _ ≤ 2 * (1 - 1 / 2 ^ 19) := by
              refine mul_le_mul_of_nonneg_left ?_ (by norm_num)
              rw [Real.rpow_def_of_pos (by norm_num)]
              have hl : (1 / 2 : ℝ) < Real.log 2 := by linarith [Real.log_two_gt_d9]
              have hx : Real.log 2 * -(1 / 2 ^ 17) ≤ -(1 / 2 ^ 18) := by
                have : (0 : ℝ) < 1 / 2 ^ 17 := by positivity
                nlinarith
              refine (Real.exp_le_exp.2 hx).trans ?_
              have := Real.add_one_le_exp (1 / 2 ^ 18 : ℝ)
              rw [Real.exp_neg]
              calc (Real.exp (1 / 2 ^ 18))⁻¹ ≤ (1 / 2 ^ 18 + 1 : ℝ)⁻¹ := inv_anti₀ (by positivity) this
                _ ≤ 1 - 1 / 2 ^ 19 := by norm_num
      have := round_mono (a := (2 : ℝ) ^ Int.fract r * 2 ^ 23) (b := ((2 ^ 24 - 32 : ℤ) : ℝ)) (by
        push_cast
        refine (mul_le_mul_of_nonneg_right hlt (by positivity)).trans ?_
        norm_num)
      rw [round_intCast] at this
      omega
    generalize round ((2 : ℝ) ^ Int.fract r * 2 ^ 23) = M at *
    obtain ⟨a, rfl⟩ : ∃ a : ℕ, M = a := ⟨M.toNat, by omega⟩
    have ha1 : 2 ^ 23 ≤ a := by exact_mod_cast b1
    have ha2 : a ≤ 2 ^ 24 := by exact_mod_cast b2
    simp only [hde, Int.toNat_natCast]
    refine ⟨?_, ?_⟩
    · rcases Nat.lt_or_ge e 253 with h | h
      · have : e * 2 ^ 23 ≤ 252 * 2 ^ 23 := Nat.mul_le_mul_right _ (by omega)
        have := Nat.add_le_add this ha2
        norm_num at this ⊢
        omega
      · have h253 : e = 253 := by omega
        have := htop (by omega)
        have ha3 : a < 2 ^ 24 := by exact_mod_cast this
        rw [h253]; norm_num at ha3 ⊢; omega
    · rw [quanta_significand ha1 ha2, hpow]
      push_cast at hround ⊢
      generalize (2 : ℝ) ^ Int.fract r = t at *
      have ht0 : (0 : ℝ) < t := by linarith
      have e1 : (a : ℝ) * 2 ^ e / 2 ^ 149 / (t * (2 ^ e / 2 ^ 126)) - 1 = -((t * 2 ^ 23 - a) / (t * 2 ^ 23)) := by
        have : (2 : ℝ) ^ e ≠ 0 := by positivity
        field_simp
        ring
      rw [e1, abs_neg, abs_div, abs_of_pos (by positivity : (0 : ℝ) < t * 2 ^ 23), div_le_iff₀ (by positivity)]
      refine hround.trans ?_
      norm_num
      linarith
  · intro r s hr hrs
    obtain ⟨b1, b2⟩ := significand_bounds r
    obtain ⟨c1, c2⟩ := significand_bounds s
    have hn1 : -126 ≤ ⌊r⌋ := Int.le_floor.2 (by push_cast; exact hr)
    have hle : ⌊r⌋ ≤ ⌊s⌋ := Int.floor_le_floor hrs
    rcases hle.lt_or_eq with hlt | heq
    · have : (⌊r⌋ + 126).toNat + 1 ≤ (⌊s⌋ + 126).toNat := by omega
      have := Nat.mul_le_mul_right (2 ^ 23) this
      norm_num at this b1 b2 c1 c2 ⊢
      omega
    · have hfr : Int.fract r ≤ Int.fract s := by
        have h1 := Int.floor_add_fract r
        have h2 := Int.floor_add_fract s
        rw [heq] at h1
        linarith
      have := round_mono (a := (2 : ℝ) ^ Int.fract r * 2 ^ 23) (b := (2 : ℝ) ^ Int.fract s * 2 ^ 23)
        (mul_le_mul_of_nonneg_right (Real.rpow_le_rpow_of_exponent_le (by norm_num) hfr) (by positivity))
      simp only [heq]
      omega
  · have : round ((2 : ℝ) ^ 23) = 8388608 := by
      rw [show (2 : ℝ) ^ 23 = ((8388608 : ℤ) : ℝ) by norm_num]; exact round_intCast _
    simp [this]

/-- The laws of R96 can be met with EXP2_ERR = 2^-24, and so with any greater one. -/
theorem exists_exp2Laws {err : ℚ} (h : 1 / 2 ^ 24 ≤ err) : ∃ f, Exp2Laws err f := by
  obtain ⟨P, hP, hmono, hP0⟩ := exists_expPattern
  have h' : ((1 / 2 ^ 24 : ℚ) : ℝ) ≤ (err : ℝ) := by exact_mod_cast h
  push_cast at h'
  let g : F32 → Nat := fun x =>
    match val32 x with
    | .nan => 0
    | .inf neg => if neg then 0 else 2139095040
    | .fin _ _ =>
      if value32 x < -126 then 0 else if 128 ≤ value32 x then 2139095040 else P ((value32 x : ℚ) : ℝ)
  let f : F32 → F32 := fun x => if isNaN32 x = true then nan32 else BitVec.ofNat 32 (g x)
  have gfin : ∀ x, isFinite32 x = true → g x =
      if value32 x < -126 then 0 else if 128 ≤ value32 x then 2139095040 else P ((value32 x : ℚ) : ℝ) := by
    intro x hx
    obtain ⟨a, q, hv⟩ := isFinite32_iff.1 hx
    simp only [g, hv]
  have mid : ∀ x, isFinite32 x = true → -126 ≤ value32 x → value32 x < 128 →
      P ((value32 x : ℚ) : ℝ) < 2139095040 ∧
        |((fmt32.quanta (P ((value32 x : ℚ) : ℝ)) : ℕ) : ℝ) / 2 ^ 149 / (2 : ℝ) ^ ((value32 x : ℚ) : ℝ) - 1| ≤
          1 / 2 ^ 24 := by
    intro x hx h1 h2
    refine hP _ (by exact_mod_cast h1) ?_
    have := value32_le_of_lt_128 hx h2
    have h3 : ((value32 x : ℚ) : ℝ) ≤ ((128 - 1 / 2 ^ 17 : ℚ) : ℝ) := by exact_mod_cast this
    push_cast at h3
    exact h3
  have gle : ∀ x, g x ≤ 2139095040 := by
    intro x
    cases hv : val32 x with
    | nan => simp [g, hv]
    | inf neg => cases neg <;> simp [g, hv]
    | fin a q =>
      have hx : isFinite32 x = true := isFinite32_iff.2 ⟨a, q, hv⟩
      rw [gfin x hx]
      split
      · omega
      · split
        · exact le_rfl
        · exact (mid x hx (by linarith) (by linarith)).1.le
  have fnat : ∀ x, isNaN32 x = false → (f x).toNat = g x := by
    intro x hx
    have := gle x
    simp only [f, hx, Bool.false_eq_true, if_false, BitVec.toNat_ofNat]
    exact Nat.mod_eq_of_lt (by omega)
  have notNan : ∀ x, isFinite32 x = true → isNaN32 x = false := by
    intro x hx
    obtain ⟨a, q, hv⟩ := isFinite32_iff.1 hx
    simp [isNaN32, hv]
  have feq : ∀ x, isFinite32 x = true → f x = BitVec.ofNat 32 (g x) := by
    intro x hx; simp only [f, notNan x hx, Bool.false_eq_true, if_false]
  have zero : ∀ x, isFinite32 x = true → value32 x = 0 → f x = one32 := by
    intro x hx hv
    rw [feq x hx, gfin x hx, hv, if_neg (by norm_num), if_neg (by norm_num), Rat.cast_zero, hP0]; rfl
  have v0 : value32 0 = 0 := by simp [value32, val32, Fmt.unpack, Fmt.quanta]
  have v1 : value32 0x80000000 = 0 := by simp [value32, val32, Fmt.unpack, Fmt.quanta]
  refine ⟨f, ⟨zero 0 (by decide) v0, zero _ (by decide) v1⟩, ?_, ⟨?_, ?_, ?_, ?_, ?_⟩, ?_, ?_⟩
  · intro x hx h1 h2
    obtain ⟨m1, m2⟩ := mid x hx h1 h2
    have hf : f x = BitVec.ofNat 32 (fmt32.pack false (P ((value32 x : ℚ) : ℝ))) := by
      rw [feq x hx, gfin x hx, if_neg (by linarith), if_neg (by linarith)]; rfl
    have hv := val32_pack (neg := false) (m := P ((value32 x : ℚ) : ℝ)) (by rw [fmt32_infMag]; exact m1)
    rw [← hf] at hv
    refine ⟨isFinite32_iff.2 ⟨_, _, hv⟩, ?_⟩
    have e : ((value32 (f x) : ℚ) : ℝ) = ((fmt32.quanta (P ((value32 x : ℚ) : ℝ)) : ℕ) : ℝ) / 2 ^ 149 := by
      rw [value32_of_fin hv]; simp
    rw [e]
    exact m2.trans h'
  · intro x hx
    rw [fnat x hx]; exact gle x
  · intro x hx h1
    rw [feq x hx, gfin x hx, if_neg (by linarith), if_pos h1]; rfl
  · have : g inf32 = 2139095040 := by simp [g, show val32 inf32 = .inf false by decide]
    simp only [f, show isNaN32 inf32 = false by decide, Bool.false_eq_true, if_false, this]; rfl
  · refine BitVec.eq_of_toNat_eq ((fnat _ (by decide)).trans ?_)
    have : ∀ x, val32 x = .inf true → g x = 0 := by intro x hx; simp [g, hx]
    exact this 0xFF800000 (by decide)
  · intro x hx h1
    have : f x = 0 := by rw [feq x hx, gfin x hx, if_pos h1]; rfl
    rw [this, v0]
    refine ⟨by decide, ?_⟩
    have : (0 : ℚ) ≤ err := le_trans (by positivity) h
    positivity
  · intro x hx
    have : isNaN32 nan32 = true := by decide
    simpa [f, hx] using this
  · intro x y hx hy hxy
    refine lt32_of_toNat_le ?_ (by rw [fnat y hy]; exact gle y)
    rw [fnat x hx, fnat y hy]
    cases hvx : val32 x with
    | nan => simp [isNaN32, hvx] at hx
    | inf a =>
      cases a
      · cases hvy : val32 y with
        | nan => simp [isNaN32, hvy] at hy
        | inf b => cases b <;> simp [lt32, hvx, hvy] at hxy; simp [g, hvx, hvy]
        | fin b n => simp [lt32, hvx, hvy] at hxy
      · simp [g, hvx]
    | fin a m =>
      have fx : isFinite32 x = true := isFinite32_iff.2 ⟨a, m, hvx⟩
      cases hvy : val32 y with
      | nan => simp [isNaN32, hvy] at hy
      | inf b =>
        cases b
        · have := gle x; simpa [g, hvy] using this
        · simp [lt32, hvx, hvy] at hxy
      | fin b n =>
        have fy : isFinite32 y = true := isFinite32_iff.2 ⟨b, n, hvy⟩
        have hle := value32_le hvx hvy hxy
        rcases lt_or_ge (value32 x) (-126) with h1 | h1
        · rw [gfin x fx, if_pos h1]; exact Nat.zero_le _
        · rcases lt_or_ge (value32 y) 128 with h2 | h2
          · rw [gfin x fx, gfin y fy, if_neg (by linarith), if_neg (by linarith), if_neg (by linarith),
              if_neg (by linarith)]
            exact hmono _ _ (by exact_mod_cast h1) (by exact_mod_cast hle)
          · have := gle x
            rwa [gfin y fy, if_neg (by linarith), if_pos h2]

end Sys2Proof.Machine
end

