-- ==== Sys2Proof/Laws/PerInstr.lean ====
section
/-! SUPPORT. The statements made per command: the word of a command selects the row of the opcode table that the command
belongs to (`30_encoding.md` R64). -/

namespace Sys2Proof.Laws

/-- The command's encoding satisfies `w AND mask = match` for the command's own row, whatever its operands. -/
def EncodesRow.Statement (i : Instr) : Prop := encode i &&& i.op.mask = i.op.pattern

/-- The fields of a word that is put together from fields, one by one, decide its masked value. -/
theorem and_mask_of_fields (op idx sel rsv : BitVec 8) (a b : Word) (mop midx msel mrsv : BitVec 8) (ma mb : Word) :
    (op ++ idx ++ sel ++ rsv ++ a ++ b) &&& (mop ++ midx ++ msel ++ mrsv ++ ma ++ mb) =
      (op &&& mop) ++ (idx &&& midx) ++ (sel &&& msel) ++ (rsv &&& mrsv) ++ (a &&& ma) ++ (b &&& mb) := by
  simp only [BitVec.and_append]

theorem EncodesRow.cfgw (reg : BitVec 8) (value : Word) : EncodesRow.Statement (.cfgw reg value) := by
  show (0x01#8 ++ reg ++ 0#8 ++ 0#8 ++ value ++ 0#32) &&& (0xFF#8 ++ 0#8 ++ 0xFF#8 ++ 0xFF#8 ++ 0#32 ++ 0xFFFFFFFF#32) = _
  rw [and_mask_of_fields]; simp only [BitVec.and_zero]; rfl

theorem EncodesRow.cfgr (reg : BitVec 8) : EncodesRow.Statement (.cfgr reg) := by
  show (0x02#8 ++ reg ++ 0#8 ++ 0#8 ++ 0#32 ++ 0#32) &&&
    (0xFF#8 ++ 0#8 ++ 0xFF#8 ++ 0xFF#8 ++ 0xFFFFFFFF#32 ++ 0xFFFFFFFF#32) = _
  rw [and_mask_of_fields]; simp only [BitVec.and_zero]; rfl

theorem EncodesRow.start : EncodesRow.Statement .start := rfl
theorem EncodesRow.stop : EncodesRow.Statement .stop := rfl
theorem EncodesRow.clrerr : EncodesRow.Statement .clrerr := rfl

theorem EncodesRow.seed (voice : BitVec 8) (value : Word) : EncodesRow.Statement (.seed voice value) := by
  show (0x06#8 ++ voice ++ 0#8 ++ 0#8 ++ value ++ 0#32) &&&
    (0xFF#8 ++ 0#8 ++ 0xFF#8 ++ 0xFF#8 ++ 0#32 ++ 0xFFFFFFFF#32) = _
  rw [and_mask_of_fields]; simp only [BitVec.and_zero]; rfl

theorem EncodesRow.vrd (voice field : BitVec 8) : EncodesRow.Statement (.vrd voice field) := by
  show (0x07#8 ++ voice ++ field ++ 0#8 ++ 0#32 ++ 0#32) &&&
    (0xFF#8 ++ 0#8 ++ 0#8 ++ 0xFF#8 ++ 0xFFFFFFFF#32 ++ 0xFFFFFFFF#32) = _
  rw [and_mask_of_fields]; simp only [BitVec.and_zero]; rfl

theorem EncodesRow.noteOn (note : Word) (velocity : F32) : EncodesRow.Statement (.noteOn note velocity) := by
  show (0x10#8 ++ 0#8 ++ 0#8 ++ 0#8 ++ note ++ velocity) &&&
    (0xFF#8 ++ 0xFF#8 ++ 0xFF#8 ++ 0xFF#8 ++ 0#32 ++ 0#32) = _
  rw [and_mask_of_fields]; simp only [BitVec.and_zero]; rfl

theorem EncodesRow.noteOff (note : Word) : EncodesRow.Statement (.noteOff note) := by
  show (0x11#8 ++ 0#8 ++ 0#8 ++ 0#8 ++ note ++ 0#32) &&&
    (0xFF#8 ++ 0xFF#8 ++ 0xFF#8 ++ 0xFF#8 ++ 0#32 ++ 0xFFFFFFFF#32) = _
  rw [and_mask_of_fields]; simp only [BitVec.and_zero]; rfl

theorem EncodesRow.render (frames base : Word) : EncodesRow.Statement (.render frames base) := by
  show (0x20#8 ++ 0#8 ++ 0#8 ++ 0#8 ++ frames ++ base) &&&
    (0xFF#8 ++ 0xFF#8 ++ 0xFF#8 ++ 0xFF#8 ++ 0#32 ++ 0#32) = _
  rw [and_mask_of_fields]; simp only [BitVec.and_zero]; rfl

end Sys2Proof.Laws
end

