-- ==== Sys2Proof/Laws/State.lean ====
section
/-! SUPPORT. What each update of the state leaves in each field, true by rfl, so that no later proof unfolds a record
update. -/

namespace Sys2Proof.Machine

/-! ### respond -/

@[simp] theorem State.respond_build (s : State) (code : BitVec 8) (data : Word) : (s.respond code data).build = s.build := rfl
@[simp] theorem State.respond_voices (s : State) (code : BitVec 8) (data : Word) : (s.respond code data).voices = s.voices := rfl
@[simp] theorem State.respond_rng (s : State) (code : BitVec 8) (data : Word) : (s.respond code data).rng = s.rng := rfl
@[simp] theorem State.respond_cfg (s : State) (code : BitVec 8) (data : Word) : (s.respond code data).cfg = s.cfg := rfl
@[simp] theorem State.respond_mode (s : State) (code : BitVec 8) (data : Word) : (s.respond code data).mode = s.mode := rfl
@[simp] theorem State.respond_err (s : State) (code : BitVec 8) (data : Word) : (s.respond code data).err = s.err := rfl
@[simp] theorem State.respond_errcode (s : State) (code : BitVec 8) (data : Word) : (s.respond code data).errcode = s.errcode := rfl
@[simp] theorem State.respond_trigCtr (s : State) (code : BitVec 8) (data : Word) : (s.respond code data).trigCtr = s.trigCtr := rfl
@[simp] theorem State.respond_obuf (s : State) (code : BitVec 8) (data : Word) : (s.respond code data).obuf = s.obuf := rfl
@[simp] theorem State.respond_queue (s : State) (code : BitVec 8) (data : Word) : (s.respond code data).queue = s.queue := rfl
@[simp] theorem State.respond_responses (s : State) (code : BitVec 8) (data : Word) : (s.respond code data).responses = s.responses ++ [responseWord code data] := rfl
@[simp] theorem State.respond_freeUsed (s : State) (code : BitVec 8) (data : Word) : (s.respond code data).freeUsed = s.freeUsed := rfl

/-! ### respondOk -/

@[simp] theorem State.respondOk_build (s : State) (data : Word) : (s.respondOk data).build = s.build := rfl
@[simp] theorem State.respondOk_voices (s : State) (data : Word) : (s.respondOk data).voices = s.voices := rfl
@[simp] theorem State.respondOk_rng (s : State) (data : Word) : (s.respondOk data).rng = s.rng := rfl
@[simp] theorem State.respondOk_cfg (s : State) (data : Word) : (s.respondOk data).cfg = s.cfg := rfl
@[simp] theorem State.respondOk_mode (s : State) (data : Word) : (s.respondOk data).mode = s.mode := rfl
@[simp] theorem State.respondOk_err (s : State) (data : Word) : (s.respondOk data).err = s.err := rfl
@[simp] theorem State.respondOk_errcode (s : State) (data : Word) : (s.respondOk data).errcode = s.errcode := rfl
@[simp] theorem State.respondOk_trigCtr (s : State) (data : Word) : (s.respondOk data).trigCtr = s.trigCtr := rfl
@[simp] theorem State.respondOk_obuf (s : State) (data : Word) : (s.respondOk data).obuf = s.obuf := rfl
@[simp] theorem State.respondOk_queue (s : State) (data : Word) : (s.respondOk data).queue = s.queue := rfl
@[simp] theorem State.respondOk_responses (s : State) (data : Word) : (s.respondOk data).responses = s.responses ++ [responseWord okCode data] := rfl
@[simp] theorem State.respondOk_freeUsed (s : State) (data : Word) : (s.respondOk data).freeUsed = s.freeUsed := rfl

/-! ### raise -/

@[simp] theorem State.raise_build (s : State) (c : FaultCode) : (s.raise c).build = s.build := rfl
@[simp] theorem State.raise_voices (s : State) (c : FaultCode) : (s.raise c).voices = s.voices := rfl
@[simp] theorem State.raise_rng (s : State) (c : FaultCode) : (s.raise c).rng = s.rng := rfl
@[simp] theorem State.raise_cfg (s : State) (c : FaultCode) : (s.raise c).cfg = s.cfg := rfl
@[simp] theorem State.raise_mode (s : State) (c : FaultCode) : (s.raise c).mode = s.mode := rfl
@[simp] theorem State.raise_err (s : State) (c : FaultCode) : (s.raise c).err = true := rfl
@[simp] theorem State.raise_errcode (s : State) (c : FaultCode) : (s.raise c).errcode = errcodeAfter s.err s.errcode c.code := rfl
@[simp] theorem State.raise_trigCtr (s : State) (c : FaultCode) : (s.raise c).trigCtr = s.trigCtr := rfl
@[simp] theorem State.raise_obuf (s : State) (c : FaultCode) : (s.raise c).obuf = s.obuf := rfl
@[simp] theorem State.raise_queue (s : State) (c : FaultCode) : (s.raise c).queue = s.queue := rfl
@[simp] theorem State.raise_responses (s : State) (c : FaultCode) : (s.raise c).responses = s.responses ++ [responseWord c.code 0] := rfl
@[simp] theorem State.raise_freeUsed (s : State) (c : FaultCode) : (s.raise c).freeUsed = s.freeUsed := rfl

/-! ### clearErr -/

@[simp] theorem State.clearErr_build (s : State) : s.clearErr.build = s.build := rfl
@[simp] theorem State.clearErr_voices (s : State) : s.clearErr.voices = s.voices := rfl
@[simp] theorem State.clearErr_rng (s : State) : s.clearErr.rng = s.rng := rfl
@[simp] theorem State.clearErr_cfg (s : State) : s.clearErr.cfg = s.cfg := rfl
@[simp] theorem State.clearErr_mode (s : State) : s.clearErr.mode = s.mode := rfl
@[simp] theorem State.clearErr_err (s : State) : s.clearErr.err = false := rfl
@[simp] theorem State.clearErr_errcode (s : State) : s.clearErr.errcode = 0 := rfl
@[simp] theorem State.clearErr_trigCtr (s : State) : s.clearErr.trigCtr = s.trigCtr := rfl
@[simp] theorem State.clearErr_obuf (s : State) : s.clearErr.obuf = s.obuf := rfl
@[simp] theorem State.clearErr_queue (s : State) : s.clearErr.queue = s.queue := rfl
@[simp] theorem State.clearErr_responses (s : State) : s.clearErr.responses = s.responses := rfl
@[simp] theorem State.clearErr_freeUsed (s : State) : s.clearErr.freeUsed = s.freeUsed := rfl

/-! ### memWrite -/

@[simp] theorem State.memWrite_build (s : State) (a : Nat) (v : F32) : (s.memWrite a v).build = s.build := rfl
@[simp] theorem State.memWrite_voices (s : State) (a : Nat) (v : F32) : (s.memWrite a v).voices = s.voices := rfl
@[simp] theorem State.memWrite_rng (s : State) (a : Nat) (v : F32) : (s.memWrite a v).rng = s.rng := rfl
@[simp] theorem State.memWrite_cfg (s : State) (a : Nat) (v : F32) : (s.memWrite a v).cfg = s.cfg := rfl
@[simp] theorem State.memWrite_mode (s : State) (a : Nat) (v : F32) : (s.memWrite a v).mode = s.mode := rfl
@[simp] theorem State.memWrite_err (s : State) (a : Nat) (v : F32) : (s.memWrite a v).err = s.err := rfl
@[simp] theorem State.memWrite_errcode (s : State) (a : Nat) (v : F32) : (s.memWrite a v).errcode = s.errcode := rfl
@[simp] theorem State.memWrite_trigCtr (s : State) (a : Nat) (v : F32) : (s.memWrite a v).trigCtr = s.trigCtr := rfl
@[simp] theorem State.memWrite_obuf (s : State) (a : Nat) (v : F32) : (s.memWrite a v).obuf = s.obuf.writeCell a v := rfl
@[simp] theorem State.memWrite_queue (s : State) (a : Nat) (v : F32) : (s.memWrite a v).queue = s.queue := rfl
@[simp] theorem State.memWrite_responses (s : State) (a : Nat) (v : F32) : (s.memWrite a v).responses = s.responses := rfl
@[simp] theorem State.memWrite_freeUsed (s : State) (a : Nat) (v : F32) : (s.memWrite a v).freeUsed = s.freeUsed := rfl

/-! ### setVoice -/

@[simp] theorem State.setVoice_build (s : State) (i : Nat) (v : Voice) : (s.setVoice i v).build = s.build := rfl
@[simp] theorem State.setVoice_voices (s : State) (i : Nat) (v : Voice) : (s.setVoice i v).voices = s.voices.set i v := rfl
@[simp] theorem State.setVoice_rng (s : State) (i : Nat) (v : Voice) : (s.setVoice i v).rng = s.rng := rfl
@[simp] theorem State.setVoice_cfg (s : State) (i : Nat) (v : Voice) : (s.setVoice i v).cfg = s.cfg := rfl
@[simp] theorem State.setVoice_mode (s : State) (i : Nat) (v : Voice) : (s.setVoice i v).mode = s.mode := rfl
@[simp] theorem State.setVoice_err (s : State) (i : Nat) (v : Voice) : (s.setVoice i v).err = s.err := rfl
@[simp] theorem State.setVoice_errcode (s : State) (i : Nat) (v : Voice) : (s.setVoice i v).errcode = s.errcode := rfl
@[simp] theorem State.setVoice_trigCtr (s : State) (i : Nat) (v : Voice) : (s.setVoice i v).trigCtr = s.trigCtr := rfl
@[simp] theorem State.setVoice_obuf (s : State) (i : Nat) (v : Voice) : (s.setVoice i v).obuf = s.obuf := rfl
@[simp] theorem State.setVoice_queue (s : State) (i : Nat) (v : Voice) : (s.setVoice i v).queue = s.queue := rfl
@[simp] theorem State.setVoice_responses (s : State) (i : Nat) (v : Voice) : (s.setVoice i v).responses = s.responses := rfl
@[simp] theorem State.setVoice_freeUsed (s : State) (i : Nat) (v : Voice) : (s.setVoice i v).freeUsed = s.freeUsed := rfl

/-! ### setRng -/

@[simp] theorem State.setRng_build (s : State) (i : Nat) (r : Word) : (s.setRng i r).build = s.build := rfl
@[simp] theorem State.setRng_voices (s : State) (i : Nat) (r : Word) : (s.setRng i r).voices = s.voices := rfl
@[simp] theorem State.setRng_rng (s : State) (i : Nat) (r : Word) : (s.setRng i r).rng = s.rng.set i r := rfl
@[simp] theorem State.setRng_cfg (s : State) (i : Nat) (r : Word) : (s.setRng i r).cfg = s.cfg := rfl
@[simp] theorem State.setRng_mode (s : State) (i : Nat) (r : Word) : (s.setRng i r).mode = s.mode := rfl
@[simp] theorem State.setRng_err (s : State) (i : Nat) (r : Word) : (s.setRng i r).err = s.err := rfl
@[simp] theorem State.setRng_errcode (s : State) (i : Nat) (r : Word) : (s.setRng i r).errcode = s.errcode := rfl
@[simp] theorem State.setRng_trigCtr (s : State) (i : Nat) (r : Word) : (s.setRng i r).trigCtr = s.trigCtr := rfl
@[simp] theorem State.setRng_obuf (s : State) (i : Nat) (r : Word) : (s.setRng i r).obuf = s.obuf := rfl
@[simp] theorem State.setRng_queue (s : State) (i : Nat) (r : Word) : (s.setRng i r).queue = s.queue := rfl
@[simp] theorem State.setRng_responses (s : State) (i : Nat) (r : Word) : (s.setRng i r).responses = s.responses := rfl
@[simp] theorem State.setRng_freeUsed (s : State) (i : Nat) (r : Word) : (s.setRng i r).freeUsed = s.freeUsed := rfl

/-! ### writeCfg -/

@[simp] theorem State.writeCfg_build (s : State) (r : CfgReg) (v : Word) : (s.writeCfg r v).build = s.build := rfl
@[simp] theorem State.writeCfg_voices (s : State) (r : CfgReg) (v : Word) : (s.writeCfg r v).voices = s.voices := rfl
@[simp] theorem State.writeCfg_rng (s : State) (r : CfgReg) (v : Word) : (s.writeCfg r v).rng = s.rng := rfl
@[simp] theorem State.writeCfg_cfg (s : State) (r : CfgReg) (v : Word) : (s.writeCfg r v).cfg = s.cfg.write r v := rfl
@[simp] theorem State.writeCfg_mode (s : State) (r : CfgReg) (v : Word) : (s.writeCfg r v).mode = s.mode := rfl
@[simp] theorem State.writeCfg_err (s : State) (r : CfgReg) (v : Word) : (s.writeCfg r v).err = s.err := rfl
@[simp] theorem State.writeCfg_errcode (s : State) (r : CfgReg) (v : Word) : (s.writeCfg r v).errcode = s.errcode := rfl
@[simp] theorem State.writeCfg_trigCtr (s : State) (r : CfgReg) (v : Word) : (s.writeCfg r v).trigCtr = s.trigCtr := rfl
@[simp] theorem State.writeCfg_obuf (s : State) (r : CfgReg) (v : Word) : (s.writeCfg r v).obuf = s.obuf := rfl
@[simp] theorem State.writeCfg_queue (s : State) (r : CfgReg) (v : Word) : (s.writeCfg r v).queue = s.queue := rfl
@[simp] theorem State.writeCfg_responses (s : State) (r : CfgReg) (v : Word) : (s.writeCfg r v).responses = s.responses := rfl
@[simp] theorem State.writeCfg_freeUsed (s : State) (r : CfgReg) (v : Word) : (s.writeCfg r v).freeUsed = s.freeUsed := rfl

/-! ### openRenderPath -/

@[simp] theorem State.openRenderPath_build (s : State) : s.openRenderPath.build = s.build := rfl
@[simp] theorem State.openRenderPath_voices (s : State) : s.openRenderPath.voices = List.replicate s.build.maxVoices Voice.idle := rfl
@[simp] theorem State.openRenderPath_rng (s : State) : s.openRenderPath.rng = s.rng := rfl
@[simp] theorem State.openRenderPath_cfg (s : State) : s.openRenderPath.cfg = s.cfg := rfl
@[simp] theorem State.openRenderPath_mode (s : State) : s.openRenderPath.mode = .run := rfl
@[simp] theorem State.openRenderPath_err (s : State) : s.openRenderPath.err = s.err := rfl
@[simp] theorem State.openRenderPath_errcode (s : State) : s.openRenderPath.errcode = s.errcode := rfl
@[simp] theorem State.openRenderPath_trigCtr (s : State) : s.openRenderPath.trigCtr = 0 := rfl
@[simp] theorem State.openRenderPath_obuf (s : State) : s.openRenderPath.obuf = s.obuf := rfl
@[simp] theorem State.openRenderPath_queue (s : State) : s.openRenderPath.queue = s.queue := rfl
@[simp] theorem State.openRenderPath_responses (s : State) : s.openRenderPath.responses = s.responses := rfl
@[simp] theorem State.openRenderPath_freeUsed (s : State) : s.openRenderPath.freeUsed = s.freeUsed := rfl

/-! ### releaseAll -/

@[simp] theorem State.releaseAll_build (s : State) (note : Word) : (s.releaseAll note).build = s.build := rfl
@[simp] theorem State.releaseAll_voices (s : State) (note : Word) : (s.releaseAll note).voices = s.voices.mapIdx (fun i v => if i < s.voiceLimit then v.release note else v) := rfl
@[simp] theorem State.releaseAll_rng (s : State) (note : Word) : (s.releaseAll note).rng = s.rng := rfl
@[simp] theorem State.releaseAll_cfg (s : State) (note : Word) : (s.releaseAll note).cfg = s.cfg := rfl
@[simp] theorem State.releaseAll_mode (s : State) (note : Word) : (s.releaseAll note).mode = s.mode := rfl
@[simp] theorem State.releaseAll_err (s : State) (note : Word) : (s.releaseAll note).err = s.err := rfl
@[simp] theorem State.releaseAll_errcode (s : State) (note : Word) : (s.releaseAll note).errcode = s.errcode := rfl
@[simp] theorem State.releaseAll_trigCtr (s : State) (note : Word) : (s.releaseAll note).trigCtr = s.trigCtr := rfl
@[simp] theorem State.releaseAll_obuf (s : State) (note : Word) : (s.releaseAll note).obuf = s.obuf := rfl
@[simp] theorem State.releaseAll_queue (s : State) (note : Word) : (s.releaseAll note).queue = s.queue := rfl
@[simp] theorem State.releaseAll_responses (s : State) (note : Word) : (s.releaseAll note).responses = s.responses := rfl
@[simp] theorem State.releaseAll_freeUsed (s : State) (note : Word) : (s.releaseAll note).freeUsed = s.freeUsed := rfl

/-! ### putNextCommand -/

@[simp] theorem State.putNextCommand_build (s : State) (w : CmdWord) : (s.putNextCommand w).build = s.build := rfl
@[simp] theorem State.putNextCommand_voices (s : State) (w : CmdWord) : (s.putNextCommand w).voices = s.voices := rfl
@[simp] theorem State.putNextCommand_rng (s : State) (w : CmdWord) : (s.putNextCommand w).rng = s.rng := rfl
@[simp] theorem State.putNextCommand_cfg (s : State) (w : CmdWord) : (s.putNextCommand w).cfg = s.cfg := rfl
@[simp] theorem State.putNextCommand_mode (s : State) (w : CmdWord) : (s.putNextCommand w).mode = s.mode := rfl
@[simp] theorem State.putNextCommand_err (s : State) (w : CmdWord) : (s.putNextCommand w).err = s.err := rfl
@[simp] theorem State.putNextCommand_errcode (s : State) (w : CmdWord) : (s.putNextCommand w).errcode = s.errcode := rfl
@[simp] theorem State.putNextCommand_trigCtr (s : State) (w : CmdWord) : (s.putNextCommand w).trigCtr = s.trigCtr := rfl
@[simp] theorem State.putNextCommand_obuf (s : State) (w : CmdWord) : (s.putNextCommand w).obuf = s.obuf := rfl
@[simp] theorem State.putNextCommand_queue (s : State) (w : CmdWord) : (s.putNextCommand w).queue = w :: s.queue.tail := rfl
@[simp] theorem State.putNextCommand_responses (s : State) (w : CmdWord) : (s.putNextCommand w).responses = s.responses := rfl
@[simp] theorem State.putNextCommand_freeUsed (s : State) (w : CmdWord) : (s.putNextCommand w).freeUsed = s.freeUsed := rfl

/-! ### bumpTrigCtr and trigger -/

@[simp] theorem State.bumpTrigCtr_build (s : State) : s.bumpTrigCtr.build = s.build := by unfold State.bumpTrigCtr; split <;> rfl
@[simp] theorem State.bumpTrigCtr_voices (s : State) : s.bumpTrigCtr.voices = s.voices := by unfold State.bumpTrigCtr; split <;> rfl
@[simp] theorem State.bumpTrigCtr_rng (s : State) : s.bumpTrigCtr.rng = s.rng := by unfold State.bumpTrigCtr; split <;> rfl
@[simp] theorem State.bumpTrigCtr_cfg (s : State) : s.bumpTrigCtr.cfg = s.cfg := by unfold State.bumpTrigCtr; split <;> rfl
@[simp] theorem State.bumpTrigCtr_mode (s : State) : s.bumpTrigCtr.mode = s.mode := by unfold State.bumpTrigCtr; split <;> rfl
@[simp] theorem State.bumpTrigCtr_err (s : State) : s.bumpTrigCtr.err = s.err := by unfold State.bumpTrigCtr; split <;> rfl
@[simp] theorem State.bumpTrigCtr_errcode (s : State) : s.bumpTrigCtr.errcode = s.errcode := by unfold State.bumpTrigCtr; split <;> rfl
@[simp] theorem State.bumpTrigCtr_obuf (s : State) : s.bumpTrigCtr.obuf = s.obuf := by unfold State.bumpTrigCtr; split <;> rfl
@[simp] theorem State.bumpTrigCtr_queue (s : State) : s.bumpTrigCtr.queue = s.queue := by unfold State.bumpTrigCtr; split <;> rfl
@[simp] theorem State.bumpTrigCtr_responses (s : State) : s.bumpTrigCtr.responses = s.responses := by unfold State.bumpTrigCtr; split <;> rfl

theorem State.bumpTrigCtr_trigCtr (s : State) (h : s.trigCtr ≠ BitVec.allOnes 64) :
    s.bumpTrigCtr.trigCtr = s.trigCtr + 1 := by unfold State.bumpTrigCtr; rw [if_neg h]

@[simp] theorem State.trigger_build (s : State) (i : Nat) (note : Word) (velocity : F32) : (s.trigger i note velocity).build = s.build := by simp [State.trigger]
@[simp] theorem State.trigger_voices (s : State) (i : Nat) (note : Word) (velocity : F32) : (s.trigger i note velocity).voices = s.voices.set i (s.triggered note velocity) := by simp [State.trigger]
@[simp] theorem State.trigger_rng (s : State) (i : Nat) (note : Word) (velocity : F32) : (s.trigger i note velocity).rng = s.rng := by simp [State.trigger]
@[simp] theorem State.trigger_cfg (s : State) (i : Nat) (note : Word) (velocity : F32) : (s.trigger i note velocity).cfg = s.cfg := by simp [State.trigger]
@[simp] theorem State.trigger_mode (s : State) (i : Nat) (note : Word) (velocity : F32) : (s.trigger i note velocity).mode = s.mode := by simp [State.trigger]
@[simp] theorem State.trigger_err (s : State) (i : Nat) (note : Word) (velocity : F32) : (s.trigger i note velocity).err = s.err := by simp [State.trigger]
@[simp] theorem State.trigger_errcode (s : State) (i : Nat) (note : Word) (velocity : F32) : (s.trigger i note velocity).errcode = s.errcode := by simp [State.trigger]
@[simp] theorem State.trigger_obuf (s : State) (i : Nat) (note : Word) (velocity : F32) : (s.trigger i note velocity).obuf = s.obuf := by simp [State.trigger]
@[simp] theorem State.trigger_queue (s : State) (i : Nat) (note : Word) (velocity : F32) : (s.trigger i note velocity).queue = s.queue := by simp [State.trigger]
@[simp] theorem State.trigger_responses (s : State) (i : Nat) (note : Word) (velocity : F32) : (s.trigger i note velocity).responses = s.responses := by simp [State.trigger]

/-! ### Host.Outcome -/

@[simp] theorem inMode_self (s : State) (k : Result) : s.inMode s.mode k = k := by simp [State.inMode]

theorem inMode_of_eq {s : State} {m : Mode} (h : s.mode = m) (k : Result) : s.inMode m k = k := by simp [State.inMode, h]

theorem inMode_of_ne {s : State} {m : Mode} (h : s.mode ≠ m) (k : Result) :
    s.inMode m k = .next (s.raise .illegalInMode) := by simp [State.inMode, h]

/-- All that the mode check can do. -/
theorem inMode_next {s t : State} {m : Mode} {k : Result} (h : s.inMode m k = .next t) :
    (s.mode = m ∧ k = .next t) ∨ (s.mode ≠ m ∧ t = s.raise .illegalInMode) := by
  unfold State.inMode at h
  split at h
  · exact .inl ⟨‹_›, h⟩
  · exact .inr ⟨‹_›, by simpa using h.symm⟩

/-! ### The voice file -/

theorem State.voice_setVoice_same (s : State) {i : Nat} (h : i < s.voices.length) (v : Voice) :
    (s.setVoice i v).voice i = v := by
  simp [State.voice, State.setVoice, List.getD_eq_getElem?_getD, h]

theorem State.voice_setVoice_other (s : State) {i j : Nat} (h : i ≠ j) (v : Voice) :
    (s.setVoice i v).voice j = s.voice j := by
  simp [State.voice, State.setVoice, List.getD_eq_getElem?_getD, List.getElem?_set_ne h]

theorem State.rngOf_setRng_same (s : State) {i : Nat} (h : i < s.rng.length) (r : Word) :
    (s.setRng i r).rngOf i = r := by
  simp [State.rngOf, State.setRng, List.getD_eq_getElem?_getD, h]

theorem State.rngOf_setRng_other (s : State) {i j : Nat} (h : i ≠ j) (r : Word) :
    (s.setRng i r).rngOf j = s.rngOf j := by
  simp [State.rngOf, State.setRng, List.getD_eq_getElem?_getD, List.getElem?_set_ne h]

/-- A slot that is not built reads as Idle. -/
theorem State.voice_of_length_le (s : State) {i : Nat} (h : s.voices.length ≤ i) : s.voice i = Voice.idle := by
  simp [State.voice, List.getD_eq_getElem?_getD, List.getElem?_eq_none h]

@[simp] theorem Voice.idle_active : Voice.idle.active = false := rfl
@[simp] theorem Voice.idle_note : Voice.idle.note = 0xFFFFFFFF := rfl
@[simp] theorem Voice.idle_phase : Voice.idle.phase = 0 := rfl

@[simp] theorem Voice.advance_active (v : Voice) : v.advance.active = v.active := rfl
@[simp] theorem Voice.advance_note (v : Voice) : v.advance.note = v.note := rfl
@[simp] theorem Voice.advance_velocity (v : Voice) : v.advance.velocity = v.velocity := rfl
@[simp] theorem Voice.advance_frequency (v : Voice) : v.advance.frequency = v.frequency := rfl
@[simp] theorem Voice.advance_sampleRate (v : Voice) : v.advance.sampleRate = v.sampleRate := rfl
@[simp] theorem Voice.advance_trig (v : Voice) : v.advance.trig = v.trig := rfl
@[simp] theorem Voice.advance_increment (v : Voice) : v.advance.increment = v.increment := rfl

@[simp] theorem State.triggered_active (s : State) (note : Word) (velocity : F32) :
    (s.triggered note velocity).active = true := rfl
@[simp] theorem State.triggered_note (s : State) (note : Word) (velocity : F32) :
    (s.triggered note velocity).note = note := rfl
@[simp] theorem State.triggered_sampleRate (s : State) (note : Word) (velocity : F32) :
    (s.triggered note velocity).sampleRate = s.cfg.sampleRate := rfl
@[simp] theorem State.triggered_phase (s : State) (note : Word) (velocity : F32) :
    (s.triggered note velocity).phase = 0 := rfl
@[simp] theorem State.triggered_trig (s : State) (note : Word) (velocity : F32) :
    (s.triggered note velocity).trig = s.trigCtr := rfl

end Sys2Proof.Machine
end

