-- ==== Sys2Proof/Laws/Render.lean ====
section
/-! SUPPORT. What a RENDER's loops leave in each field, and all that a tick, a frame and a block of frames can do. -/

namespace Sys2Proof.Machine

/-! ### One tick -/

@[simp] theorem State.tick_build (s : State) (w : Waveform) (i : Nat) : (s.tick w i).1.build = s.build := rfl
@[simp] theorem State.tick_cfg (s : State) (w : Waveform) (i : Nat) : (s.tick w i).1.cfg = s.cfg := rfl
@[simp] theorem State.tick_mode (s : State) (w : Waveform) (i : Nat) : (s.tick w i).1.mode = s.mode := rfl
@[simp] theorem State.tick_err (s : State) (w : Waveform) (i : Nat) : (s.tick w i).1.err = s.err := rfl
@[simp] theorem State.tick_errcode (s : State) (w : Waveform) (i : Nat) : (s.tick w i).1.errcode = s.errcode := rfl
@[simp] theorem State.tick_trigCtr (s : State) (w : Waveform) (i : Nat) : (s.tick w i).1.trigCtr = s.trigCtr := rfl
@[simp] theorem State.tick_queue (s : State) (w : Waveform) (i : Nat) : (s.tick w i).1.queue = s.queue := rfl
@[simp] theorem State.tick_responses (s : State) (w : Waveform) (i : Nat) : (s.tick w i).1.responses = s.responses := rfl
@[simp] theorem State.tick_freeUsed (s : State) (w : Waveform) (i : Nat) : (s.tick w i).1.freeUsed = s.freeUsed := rfl
@[simp] theorem State.tick_obuf (s : State) (w : Waveform) (i : Nat) : (s.tick w i).1.obuf = s.obuf := rfl

@[simp] theorem State.tick_voices (s : State) (w : Waveform) (i : Nat) :
    (s.tick w i).1.voices = s.voices.set i (s.voice i).advance := rfl

@[simp] theorem State.tick_rng (s : State) (w : Waveform) (i : Nat) :
    (s.tick w i).1.rng = s.rng.set i (s.sampleSlot w i (s.voice i).advance).2 := rfl

/-- The slot that ticks has its phase advanced. -/
theorem State.tick_voice_same (s : State) (w : Waveform) {i : Nat} (h : i < s.voices.length) :
    (s.tick w i).1.voice i = (s.voice i).advance := by
  simp [State.voice, List.getD_eq_getElem?_getD, h]

/-- Every other slot stays. -/
theorem State.tick_voice_other (s : State) (w : Waveform) {i j : Nat} (h : i ≠ j) :
    (s.tick w i).1.voice j = s.voice j := by
  simp [State.voice, List.getD_eq_getElem?_getD, List.getElem?_set_ne h]

/-- A tick keeps whether a slot sounds. -/
theorem State.tick_voice_active (s : State) (w : Waveform) (i j : Nat) :
    ((s.tick w i).1.voice j).active = (s.voice j).active := by
  by_cases h : i = j
  · subst h
    by_cases hl : i < s.voices.length
    · rw [State.tick_voice_same s w hl]; rfl
    · rw [State.voice_of_length_le _ (by simp; omega), State.voice_of_length_le s (by omega)]
  · rw [State.tick_voice_other s w h]

/-! ### The ticks of one frame -/

@[simp] theorem State.tickSlots_build (s : State) (w : Waveform) (is : List Nat) : (s.tickSlots w is).1.build = s.build := by
  induction is generalizing s with
  | nil => rfl
  | cons i is ih => simp [State.tickSlots, ih]

@[simp] theorem State.tickSlots_cfg (s : State) (w : Waveform) (is : List Nat) : (s.tickSlots w is).1.cfg = s.cfg := by
  induction is generalizing s with
  | nil => rfl
  | cons i is ih => simp [State.tickSlots, ih]

@[simp] theorem State.tickSlots_mode (s : State) (w : Waveform) (is : List Nat) : (s.tickSlots w is).1.mode = s.mode := by
  induction is generalizing s with
  | nil => rfl
  | cons i is ih => simp [State.tickSlots, ih]

@[simp] theorem State.tickSlots_err (s : State) (w : Waveform) (is : List Nat) : (s.tickSlots w is).1.err = s.err := by
  induction is generalizing s with
  | nil => rfl
  | cons i is ih => simp [State.tickSlots, ih]

@[simp] theorem State.tickSlots_errcode (s : State) (w : Waveform) (is : List Nat) : (s.tickSlots w is).1.errcode = s.errcode := by
  induction is generalizing s with
  | nil => rfl
  | cons i is ih => simp [State.tickSlots, ih]

@[simp] theorem State.tickSlots_trigCtr (s : State) (w : Waveform) (is : List Nat) : (s.tickSlots w is).1.trigCtr = s.trigCtr := by
  induction is generalizing s with
  | nil => rfl
  | cons i is ih => simp [State.tickSlots, ih]

@[simp] theorem State.tickSlots_queue (s : State) (w : Waveform) (is : List Nat) : (s.tickSlots w is).1.queue = s.queue := by
  induction is generalizing s with
  | nil => rfl
  | cons i is ih => simp [State.tickSlots, ih]

@[simp] theorem State.tickSlots_responses (s : State) (w : Waveform) (is : List Nat) : (s.tickSlots w is).1.responses = s.responses := by
  induction is generalizing s with
  | nil => rfl
  | cons i is ih => simp [State.tickSlots, ih]

@[simp] theorem State.tickSlots_freeUsed (s : State) (w : Waveform) (is : List Nat) : (s.tickSlots w is).1.freeUsed = s.freeUsed := by
  induction is generalizing s with
  | nil => rfl
  | cons i is ih => simp [State.tickSlots, ih]

@[simp] theorem State.tickSlots_obuf (s : State) (w : Waveform) (is : List Nat) : (s.tickSlots w is).1.obuf = s.obuf := by
  induction is generalizing s with
  | nil => rfl
  | cons i is ih => simp [State.tickSlots, ih]

@[simp] theorem State.tickSlots_voices_length (s : State) (w : Waveform) (is : List Nat) :
    (s.tickSlots w is).1.voices.length = s.voices.length := by
  induction is generalizing s with
  | nil => rfl
  | cons i is ih => simp [State.tickSlots, ih]

@[simp] theorem State.tickSlots_rng_length (s : State) (w : Waveform) (is : List Nat) :
    (s.tickSlots w is).1.rng.length = s.rng.length := by
  induction is generalizing s with
  | nil => rfl
  | cons i is ih => simp [State.tickSlots, ih]

@[simp] theorem State.tickSlots_samples_length (s : State) (w : Waveform) (is : List Nat) :
    (s.tickSlots w is).2.length = is.length := by
  induction is generalizing s with
  | nil => rfl
  | cons i is ih => simp [State.tickSlots, ih]

theorem State.tickSlots_voice_active (s : State) (w : Waveform) (is : List Nat) (j : Nat) :
    ((s.tickSlots w is).1.voice j).active = (s.voice j).active := by
  induction is generalizing s with
  | nil => rfl
  | cons i is ih => simp only [State.tickSlots]; rw [ih, State.tick_voice_active]

/-- All that the ticks of a frame do to the voice file: the slots listed advance, the others stay. -/
theorem State.tickSlots_voice (s : State) (w : Waveform) {is : List Nat} (hn : is.Nodup)
    (hl : ∀ i ∈ is, i < s.voices.length) (j : Nat) :
    (s.tickSlots w is).1.voice j = if j ∈ is then (s.voice j).advance else s.voice j := by
  induction is generalizing s with
  | nil => simp [State.tickSlots]
  | cons i is ih =>
    simp only [State.tickSlots]
    have hi : i ∉ is := (List.nodup_cons.1 hn).1
    rw [ih _ (List.nodup_cons.1 hn).2 (fun k hk => by simpa using hl k (List.mem_cons_of_mem _ hk))]
    by_cases hj : i = j
    · subst hj
      rw [if_neg hi, if_pos (List.mem_cons_self ..), State.tick_voice_same s w (hl i (List.mem_cons_self ..))]
    · rw [State.tick_voice_other s w hj]
      have : j ∈ i :: is ↔ j ∈ is := by simp [Ne.symm hj]
      simp [this]

/-! ### The channels of one frame -/

@[simp] theorem State.mixChannels_build (s : State) (ys : List Samples) (a n c : Nat) :
    (s.mixChannels ys a n c).build = s.build := by
  induction n generalizing s c with
  | zero => rfl
  | succ n ih => simp [State.mixChannels, ih]

@[simp] theorem State.mixChannels_cfg (s : State) (ys : List Samples) (a n c : Nat) :
    (s.mixChannels ys a n c).cfg = s.cfg := by
  induction n generalizing s c with
  | zero => rfl
  | succ n ih => simp [State.mixChannels, ih]

@[simp] theorem State.mixChannels_mode (s : State) (ys : List Samples) (a n c : Nat) :
    (s.mixChannels ys a n c).mode = s.mode := by
  induction n generalizing s c with
  | zero => rfl
  | succ n ih => simp [State.mixChannels, ih]

@[simp] theorem State.mixChannels_err (s : State) (ys : List Samples) (a n c : Nat) :
    (s.mixChannels ys a n c).err = s.err := by
  induction n generalizing s c with
  | zero => rfl
  | succ n ih => simp [State.mixChannels, ih]

@[simp] theorem State.mixChannels_errcode (s : State) (ys : List Samples) (a n c : Nat) :
    (s.mixChannels ys a n c).errcode = s.errcode := by
  induction n generalizing s c with
  | zero => rfl
  | succ n ih => simp [State.mixChannels, ih]

@[simp] theorem State.mixChannels_trigCtr (s : State) (ys : List Samples) (a n c : Nat) :
    (s.mixChannels ys a n c).trigCtr = s.trigCtr := by
  induction n generalizing s c with
  | zero => rfl
  | succ n ih => simp [State.mixChannels, ih]

@[simp] theorem State.mixChannels_queue (s : State) (ys : List Samples) (a n c : Nat) :
    (s.mixChannels ys a n c).queue = s.queue := by
  induction n generalizing s c with
  | zero => rfl
  | succ n ih => simp [State.mixChannels, ih]

@[simp] theorem State.mixChannels_responses (s : State) (ys : List Samples) (a n c : Nat) :
    (s.mixChannels ys a n c).responses = s.responses := by
  induction n generalizing s c with
  | zero => rfl
  | succ n ih => simp [State.mixChannels, ih]

@[simp] theorem State.mixChannels_freeUsed (s : State) (ys : List Samples) (a n c : Nat) :
    (s.mixChannels ys a n c).freeUsed = s.freeUsed := by
  induction n generalizing s c with
  | zero => rfl
  | succ n ih => simp [State.mixChannels, ih]

@[simp] theorem State.mixChannels_voices (s : State) (ys : List Samples) (a n c : Nat) :
    (s.mixChannels ys a n c).voices = s.voices := by
  induction n generalizing s c with
  | zero => rfl
  | succ n ih => simp [State.mixChannels, ih]

@[simp] theorem State.mixChannels_rng (s : State) (ys : List Samples) (a n c : Nat) :
    (s.mixChannels ys a n c).rng = s.rng := by
  induction n generalizing s c with
  | zero => rfl
  | succ n ih => simp [State.mixChannels, ih]

/-- The channels mixed write the cells `a + c` to `a + c + n - 1` and leave every other byte as it was. -/
theorem State.mixChannels_readByte_other (s : State) (ys : List Samples) (a n c x : Nat)
    (h : x / 4 < a + c ∨ a + c + n ≤ x / 4) :
    (s.mixChannels ys a n c).obuf.readByte x = s.obuf.readByte x := by
  induction n generalizing s c with
  | zero => rfl
  | succ n ih =>
    simp only [State.mixChannels]
    rw [ih _ _ (by omega), State.memWrite_obuf, Memory.readByte_writeCell_other _ _ (by omega)]

theorem State.mixChannels_wf (s : State) (ys : List Samples) (a n c : Nat) (h : s.obuf.wf = true) :
    (s.mixChannels ys a n c).obuf.wf = true := by
  induction n generalizing s c with
  | zero => exact h
  | succ n ih => exact ih _ _ (Memory.wf_writeCell h _ _)

theorem State.mixChannels_within (s : State) (ys : List Samples) {k : Nat} (a n c : Nat)
    (h : s.obuf.within k = true) (hk : a + c + n ≤ k) : (s.mixChannels ys a n c).obuf.within k = true := by
  induction n generalizing s c with
  | zero => exact h
  | succ n ih => exact ih _ _ (Memory.within_writeCell h (by omega) _) (by omega)

/-- Each cell of the channels mixed holds its sum (`44_pool_mixer.md` R171). -/
theorem State.mixChannels_readCell (s : State) (ys : List Samples) (a n c k : Nat) (h : s.obuf.wf = true)
    (hk : c ≤ k ∧ k < c + n) :
    (s.mixChannels ys a n c).memRead (a + k) = mixCell ys k (s.memRead (a + k)) := by
  induction n generalizing s c with
  | zero => omega
  | succ n ih =>
    simp only [State.mixChannels]
    by_cases hc : c = k
    · subst hc
      have keep : ∀ x, x / 4 = a + c →
          ((s.memWrite (a + c) (mixCell ys c (s.memRead (a + c)))).mixChannels ys a n (c + 1)).obuf.readByte x =
            (s.memWrite (a + c) (mixCell ys c (s.memRead (a + c)))).obuf.readByte x :=
        fun x hx => State.mixChannels_readByte_other _ ys a n (c + 1) x (by omega)
      show Memory.readCell _ (a + c) = _
      rw [Memory.readCell_congr keep, State.memWrite_obuf, Memory.readCell_writeCell_same h]
    · rw [ih _ _ (Memory.wf_writeCell h _ _) (by omega)]
      congr 1
      exact Memory.readCell_writeCell_other _ _ (by omega)

/-! ### The Sounding slots -/

theorem State.mem_soundingSlots (s : State) (i : Nat) :
    i ∈ s.soundingSlots ↔ (i < s.voiceLimit ∧ i < s.voices.length) ∧ (s.voice i).active = true := by
  simp [State.soundingSlots, State.pool, List.length_take]

theorem State.soundingSlots_nodup (s : State) : s.soundingSlots.Nodup :=
  List.Nodup.filter _ List.nodup_range

/-- The Sounding slots depend on the configuration, the number of slots and which of them sound. -/
theorem State.soundingSlots_congr {s t : State} (hc : t.cfg = s.cfg) (hl : t.voices.length = s.voices.length)
    (ha : ∀ i, (t.voice i).active = (s.voice i).active) : t.soundingSlots = s.soundingSlots := by
  simp [State.soundingSlots, State.pool, State.voiceLimit, List.length_take, hc, hl, ha]

/-! ### One frame, and a block of frames -/

/-- A frame is its ticks and then its channels. -/
theorem State.renderFrame_eq (s : State) (w : Waveform) (base f : Nat) :
    s.renderFrame w base f = if s.soundingSlots = [] then s else
      (s.tickSlots w s.soundingSlots).1.mixChannels (s.tickSlots w s.soundingSlots).2
        (cellIndex base s.cfg.channels.toNat f 0) s.cfg.channels.toNat 0 := by
  unfold State.renderFrame
  have hl := State.tickSlots_samples_length s w s.soundingSlots
  split
  · rename_i h
    rw [h] at hl
    have h0 : s.soundingSlots = [] := List.length_eq_zero_iff.1 hl.symm
    rw [if_pos h0, h0]; rfl
  · rename_i y ys h
    rw [h] at hl
    have h0 : s.soundingSlots ≠ [] := by intro hc; rw [hc] at hl; simp at hl
    rw [if_neg h0, h]

@[simp] theorem State.renderFrame_build (s : State) (w : Waveform) (base f : Nat) : (s.renderFrame w base f).build = s.build := by
  rw [State.renderFrame_eq]; split <;> simp

@[simp] theorem State.renderFrames_build (s : State) (w : Waveform) (base n f : Nat) : (s.renderFrames w base n f).build = s.build := by
  induction n generalizing s f with
  | zero => rfl
  | succ n ih => simp [State.renderFrames, ih]

@[simp] theorem State.renderFrame_cfg (s : State) (w : Waveform) (base f : Nat) : (s.renderFrame w base f).cfg = s.cfg := by
  rw [State.renderFrame_eq]; split <;> simp

@[simp] theorem State.renderFrames_cfg (s : State) (w : Waveform) (base n f : Nat) : (s.renderFrames w base n f).cfg = s.cfg := by
  induction n generalizing s f with
  | zero => rfl
  | succ n ih => simp [State.renderFrames, ih]

@[simp] theorem State.renderFrame_mode (s : State) (w : Waveform) (base f : Nat) : (s.renderFrame w base f).mode = s.mode := by
  rw [State.renderFrame_eq]; split <;> simp

@[simp] theorem State.renderFrames_mode (s : State) (w : Waveform) (base n f : Nat) : (s.renderFrames w base n f).mode = s.mode := by
  induction n generalizing s f with
  | zero => rfl
  | succ n ih => simp [State.renderFrames, ih]

@[simp] theorem State.renderFrame_err (s : State) (w : Waveform) (base f : Nat) : (s.renderFrame w base f).err = s.err := by
  rw [State.renderFrame_eq]; split <;> simp

@[simp] theorem State.renderFrames_err (s : State) (w : Waveform) (base n f : Nat) : (s.renderFrames w base n f).err = s.err := by
  induction n generalizing s f with
  | zero => rfl
  | succ n ih => simp [State.renderFrames, ih]

@[simp] theorem State.renderFrame_errcode (s : State) (w : Waveform) (base f : Nat) : (s.renderFrame w base f).errcode = s.errcode := by
  rw [State.renderFrame_eq]; split <;> simp

@[simp] theorem State.renderFrames_errcode (s : State) (w : Waveform) (base n f : Nat) : (s.renderFrames w base n f).errcode = s.errcode := by
  induction n generalizing s f with
  | zero => rfl
  | succ n ih => simp [State.renderFrames, ih]

@[simp] theorem State.renderFrame_trigCtr (s : State) (w : Waveform) (base f : Nat) : (s.renderFrame w base f).trigCtr = s.trigCtr := by
  rw [State.renderFrame_eq]; split <;> simp

@[simp] theorem State.renderFrames_trigCtr (s : State) (w : Waveform) (base n f : Nat) : (s.renderFrames w base n f).trigCtr = s.trigCtr := by
  induction n generalizing s f with
  | zero => rfl
  | succ n ih => simp [State.renderFrames, ih]

@[simp] theorem State.renderFrame_queue (s : State) (w : Waveform) (base f : Nat) : (s.renderFrame w base f).queue = s.queue := by
  rw [State.renderFrame_eq]; split <;> simp

@[simp] theorem State.renderFrames_queue (s : State) (w : Waveform) (base n f : Nat) : (s.renderFrames w base n f).queue = s.queue := by
  induction n generalizing s f with
  | zero => rfl
  | succ n ih => simp [State.renderFrames, ih]

@[simp] theorem State.renderFrame_responses (s : State) (w : Waveform) (base f : Nat) : (s.renderFrame w base f).responses = s.responses := by
  rw [State.renderFrame_eq]; split <;> simp

@[simp] theorem State.renderFrames_responses (s : State) (w : Waveform) (base n f : Nat) : (s.renderFrames w base n f).responses = s.responses := by
  induction n generalizing s f with
  | zero => rfl
  | succ n ih => simp [State.renderFrames, ih]

@[simp] theorem State.renderFrame_freeUsed (s : State) (w : Waveform) (base f : Nat) : (s.renderFrame w base f).freeUsed = s.freeUsed := by
  rw [State.renderFrame_eq]; split <;> simp

@[simp] theorem State.renderFrames_freeUsed (s : State) (w : Waveform) (base n f : Nat) : (s.renderFrames w base n f).freeUsed = s.freeUsed := by
  induction n generalizing s f with
  | zero => rfl
  | succ n ih => simp [State.renderFrames, ih]

theorem State.renderFrame_voice (s : State) (w : Waveform) (base f j : Nat) :
    (s.renderFrame w base f).voice j = if j ∈ s.soundingSlots then (s.voice j).advance else s.voice j := by
  rw [State.renderFrame_eq]
  by_cases h0 : s.soundingSlots = []
  · rw [if_pos h0, h0]; simp
  · rw [if_neg h0]
    have := State.tickSlots_voice s w s.soundingSlots_nodup
      (fun i hi => ((State.mem_soundingSlots s i).1 hi).1.2) j
    rw [← this]
    simp [State.voice]

@[simp] theorem State.renderFrame_voices_length (s : State) (w : Waveform) (base f : Nat) :
    (s.renderFrame w base f).voices.length = s.voices.length := by
  rw [State.renderFrame_eq]; split <;> simp

@[simp] theorem State.renderFrame_rng_length (s : State) (w : Waveform) (base f : Nat) :
    (s.renderFrame w base f).rng.length = s.rng.length := by
  rw [State.renderFrame_eq]; split <;> simp

/-- Which slots sound is constant throughout a RENDER (`44_pool_mixer.md` R173). -/
@[simp] theorem State.renderFrame_soundingSlots (s : State) (w : Waveform) (base f : Nat) :
    (s.renderFrame w base f).soundingSlots = s.soundingSlots :=
  State.soundingSlots_congr (by simp) (by simp) (fun i => by rw [State.renderFrame_voice]; split <;> simp)

theorem State.renderFrame_readByte_other (s : State) (w : Waveform) (base f x : Nat)
    (h : x / 4 < base + f * s.cfg.channels.toNat ∨ base + (f + 1) * s.cfg.channels.toNat ≤ x / 4) :
    (s.renderFrame w base f).obuf.readByte x = s.obuf.readByte x := by
  rw [State.renderFrame_eq]
  split
  · rfl
  · rw [State.mixChannels_readByte_other _ _ _ _ _ _ (by simp only [cellIndex]; rw [Nat.add_mul] at h; omega)]
    simp

theorem State.renderFrame_wf (s : State) (w : Waveform) (base f : Nat) (h : s.obuf.wf = true) :
    (s.renderFrame w base f).obuf.wf = true := by
  rw [State.renderFrame_eq]
  split
  · exact h
  · exact State.mixChannels_wf _ _ _ _ _ (by simpa using h)

theorem State.renderFrame_within (s : State) (w : Waveform) (base f : Nat) {k : Nat} (h : s.obuf.within k = true)
    (hk : base + (f + 1) * s.cfg.channels.toNat ≤ k) : (s.renderFrame w base f).obuf.within k = true := by
  rw [State.renderFrame_eq]
  split
  · exact h
  · exact State.mixChannels_within _ _ _ _ _ (by simpa using h) (by simp only [cellIndex]; rw [Nat.add_mul] at hk; omega)

theorem State.renderFrames_wf (s : State) (w : Waveform) (base n f : Nat) (h : s.obuf.wf = true) :
    (s.renderFrames w base n f).obuf.wf = true := by
  induction n generalizing s f with
  | zero => exact h
  | succ n ih => exact ih _ _ (State.renderFrame_wf s w base f h)

theorem State.renderFrames_within (s : State) (w : Waveform) (base n f : Nat) {k : Nat} (h : s.obuf.within k = true)
    (hk : base + (f + n) * s.cfg.channels.toNat ≤ k) : (s.renderFrames w base n f).obuf.within k = true := by
  induction n generalizing s f with
  | zero => exact h
  | succ n ih =>
    have : (f + 1) * s.cfg.channels.toNat ≤ (f + (n + 1)) * s.cfg.channels.toNat := Nat.mul_le_mul_right _ (by omega)
    refine ih _ _ (State.renderFrame_within s w base f h (by omega)) ?_
    rw [State.renderFrame_cfg, show f + 1 + n = f + (n + 1) by omega]; exact hk

@[simp] theorem State.renderFrames_voices_length (s : State) (w : Waveform) (base n f : Nat) :
    (s.renderFrames w base n f).voices.length = s.voices.length := by
  induction n generalizing s f with
  | zero => rfl
  | succ n ih => simp [State.renderFrames, ih]

@[simp] theorem State.renderFrames_rng_length (s : State) (w : Waveform) (base n f : Nat) :
    (s.renderFrames w base n f).rng.length = s.rng.length := by
  induction n generalizing s f with
  | zero => rfl
  | succ n ih => simp [State.renderFrames, ih]

@[simp] theorem State.renderFrames_soundingSlots (s : State) (w : Waveform) (base n f : Nat) :
    (s.renderFrames w base n f).soundingSlots = s.soundingSlots := by
  induction n generalizing s f with
  | zero => rfl
  | succ n ih => simp [State.renderFrames, ih]

/-- The last frame of a block can be taken off its end. -/
theorem State.renderFrames_succ (s : State) (w : Waveform) (base n f : Nat) :
    s.renderFrames w base (n + 1) f = (s.renderFrames w base n f).renderFrame w base (f + n) := by
  induction n generalizing s f with
  | zero => rfl
  | succ n ih =>
    rw [State.renderFrames, ih, State.renderFrames, show f + 1 + n = f + (n + 1) by omega]

/-- All that a RENDER in RUN can answer. -/
theorem State.renderBlock_next {s t : State} {frames base : Word} (h : s.renderBlock frames base = .next t) :
    (s.build.obufWords < renderNeed frames base s.cfg.channels ∧ t = s.raise .obufRange) ∨
      (renderNeed frames base s.cfg.channels ≤ s.build.obufWords ∧ (frames = 0 ∨ s.soundingSlots = []) ∧
        t = s.respondOk 0) ∨
      (renderNeed frames base s.cfg.channels ≤ s.build.obufWords ∧ ∃ w, waveformOf s.cfg.waveform = some w ∧
        t = (s.renderFrames w base.toNat frames.toNat 0).respondOk 0) := by
  unfold State.renderBlock at h
  split at h
  · exact .inl ⟨‹_›, by simpa using h.symm⟩
  · split at h
    · exact .inr (.inl ⟨by omega, ‹_›, by simpa using h.symm⟩)
    · split at h
      · exact .inr (.inr ⟨by omega, _, ‹_›, by simpa using h.symm⟩)
      · simp at h

/-- All that a NOTE_ON in RUN can answer. -/
theorem State.dispatchNoteOn_next {s t : State} {note : Word} {velocity : F32}
    (h : s.dispatchNoteOn note velocity = .next t) :
    ∃ i, noteOnTarget s.pool note = some i ∧ t = (s.trigger i note velocity).respondOk 0 := by
  unfold State.dispatchNoteOn at h
  split at h
  · exact ⟨_, ‹_›, by simpa using h.symm⟩
  · simp at h

/-- The slot a NOTE_ON chooses lies in the pool. -/
theorem oldestFrom_lt (vs : List Voice) (i best : Nat) (stamp : BitVec 64) (h : best < i) :
    oldestFrom vs i best stamp < i + vs.length := by
  induction vs generalizing i best stamp with
  | nil => simpa [oldestFrom] using h
  | cons v vs ih =>
    simp only [oldestFrom, List.length_cons]
    split
    · have := ih (i + 1) i v.trig (by omega); omega
    · have := ih (i + 1) best stamp (by omega); omega

theorem noteOnTarget_lt {pool : List Voice} {note : Word} {i : Nat} (h : noteOnTarget pool note = some i) :
    i < pool.length := by
  unfold noteOnTarget at h
  split at h
  · rename_i j hj
    obtain rfl : j = i := by simpa using h
    exact (List.findIdx?_eq_some_iff_findIdx_eq.1 hj).1
  · split at h
    · rename_i j hj
      obtain rfl : j = i := by simpa using h
      exact (List.findIdx?_eq_some_iff_findIdx_eq.1 hj).1
    · split at h
      · simp at h
      · rename_i v vs _ _
        have := oldestFrom_lt vs 1 0 v.trig (by omega)
        obtain rfl : _ = i := by simpa using h
        simp only [List.length_cons]; omega

end Sys2Proof.Machine
end

