-- ==== Sys2Proof/Laws/Step.lean ====
section
/-! SUPPORT. All that each command, and a step, can answer: one inversion lemma each, in the terms of Safety.lean. -/

namespace Sys2Proof.Machine

/-! ### The two ways to answer -/

/-- The response word of a fault. -/
theorem responseWord_fault (c : BitVec 8) : responseWord c 0 = c ++ 0#56 := by
  revert c; decide +kernel

/-- Taking a fault, written out. -/
theorem State.raise_eq_faulted (s : State) (c : FaultCode) : s.raise c = s.faulted c.code := by
  show ({ s with
    err := true, errcode := errcodeAfter s.err s.errcode c.code
    responses := s.responses ++ [responseWord c.code 0] } : State) = s.faulted c.code
  rw [responseWord_fault]; rfl

/-- The response word of a completed command. -/
theorem responseWord_ok (d : Word) : responseWord okCode d = 0#32 ++ d := by
  show (0#8 ++ 0#24 ++ d : BitVec 64) = 0#32 ++ d
  rw [show (0#8 ++ 0#24 : BitVec 32) = 0#32 from rfl]

/-- Completing a command, written out. -/
theorem State.respondOk_eq_answered (s : State) (d : Word) : s.respondOk d = s.answered d := by
  show ({ s with responses := s.responses ++ [responseWord okCode d] } : State) = s.answered d
  rw [responseWord_ok]; rfl

/-! ### The checks of START -/

/-- Finiteness in terms of the bits. -/
theorem isFinite32_bits (x : F32) : isFinite32 x = true ↔ x.toNat % 2147483648 < 2139095040 := by
  unfold isFinite32 val32 Fmt.unpack
  rw [fmt32_infMag, fmt32_signMag]
  by_cases h1 : 2139095040 < x.toNat % 2147483648
  · rw [if_pos h1]; simp; omega
  · rw [if_neg h1]
    by_cases h2 : x.toNat % 2147483648 = 2139095040
    · rw [if_pos h2]; simp; omega
    · rw [if_neg h2]; simp; omega

/-- A pattern below infinity's, sign clear: its value. -/
theorem val32_of_lt {x : F32} (h : x.toNat < 2139095040) : val32 x = .fin false (fmt32.quanta x.toNat) := by
  unfold val32 Fmt.unpack
  rw [fmt32_infMag, fmt32_signMag, Nat.mod_eq_of_lt (by omega), if_neg (by omega), if_neg (by omega)]
  simp; omega

/-- Only the zero magnitude has zero quanta. -/
theorem quanta32_pos {m : Nat} (h : 0 < m) : 0 < fmt32.quanta m := by
  have := (Fmt.quanta_le_iff (f := fmt32) fmt32_prec_pos (m₁ := m) (m₂ := 0)).1
  rw [Fmt.quanta_zero] at this
  omega

/-- START's check of the sample rate, in terms of the bits (R183, R208). -/
theorem validSampleRate_iff (x : F32) : validSampleRate x = true ↔ 0 < x.toNat ∧ x.toNat < 0x7F800000 := by
  have hx := x.isLt
  have h0 : val32 0 = .fin false 0 := by decide
  unfold validSampleRate lt32
  rw [Bool.and_eq_true, isFinite32_bits, h0]
  constructor
  · rintro ⟨h1, h2⟩
    rcases Nat.lt_or_ge x.toNat 2139095040 with hlt | hge
    · refine ⟨Nat.pos_of_ne_zero fun hz => ?_, hlt⟩
      rw [val32_of_lt hlt, hz] at h2; simp at h2
    · exfalso
      cases hv : val32 x with
      | nan => rw [hv] at h2; simp at h2
      | inf b => unfold val32 at hv; have := Fmt.unpack_inf hv; simp at this; omega
      | fin b n =>
        obtain ⟨-, h4, -⟩ := val32_fin hv
        have hb : b = true := by rw [h4]; simp; omega
        rw [hv, hb] at h2; simp at h2
  · rintro ⟨h1, h2⟩
    rw [val32_of_lt h2]
    have := quanta32_pos h1
    refine ⟨by omega, ?_⟩
    simpa using this

/-- The configuration check, case by case, in order (R183). -/
theorem State.configFault_cases (s : State) :
    (¬ validSampleRate s.cfg.sampleRate = true ∧ s.configFault = some .cfgSampleRate) ∨
      (validSampleRate s.cfg.sampleRate = true ∧
        (s.cfg.voiceCount.toNat < 1 ∨ s.build.maxVoices < s.cfg.voiceCount.toNat) ∧
        s.configFault = some .cfgVoiceCount) ∨
      (validSampleRate s.cfg.sampleRate = true ∧ 1 ≤ s.cfg.voiceCount.toNat ∧
        s.cfg.voiceCount.toNat ≤ s.build.maxVoices ∧ 4 < s.cfg.waveform.toNat ∧ s.configFault = some .cfgWaveform) ∨
      (validSampleRate s.cfg.sampleRate = true ∧ 1 ≤ s.cfg.voiceCount.toNat ∧
        s.cfg.voiceCount.toNat ≤ s.build.maxVoices ∧ s.cfg.waveform.toNat ≤ 4 ∧ s.configFault = none) := by
  unfold State.configFault
  by_cases h1 : validSampleRate s.cfg.sampleRate = true
  · rw [if_neg (by simp [h1])]
    by_cases h2 : s.cfg.voiceCount.toNat < 1 ∨ s.build.maxVoices < s.cfg.voiceCount.toNat
    · rw [if_pos h2]; exact .inr (.inl ⟨h1, h2, rfl⟩)
    · rw [if_neg h2]
      by_cases h3 : 4 < s.cfg.waveform.toNat
      · rw [if_pos h3]; exact .inr (.inr (.inl ⟨h1, by omega, by omega, h3, rfl⟩))
      · rw [if_neg h3]; exact .inr (.inr (.inr ⟨h1, by omega, by omega, by omega, rfl⟩))
  · rw [if_pos (by simpa using h1)]; exact .inl ⟨h1, rfl⟩

/-! ### One lemma per command: all that it can answer -/

theorem execCfgr_next {reg : BitVec 8} {s t : State} (h : execCfgr reg s = .next t) :
    (∃ r, cfgRegOf reg = some r ∧ t = s.respondOk (s.cfgValue r)) ∨
      (cfgRegOf reg = none ∧ t = s.raise .badRegister) := by
  unfold execCfgr at h
  split at h
  · exact .inl ⟨_, ‹_›, by simpa using h.symm⟩
  · exact .inr ⟨‹_›, by simpa using h.symm⟩

theorem State.storeCfg_cases (s : State) (reg : BitVec 8) (value : Word) :
    (∃ r, cfgRegOf reg = some r ∧ r.writable = true ∧ s.storeCfg reg value = (s.writeCfg r value).respondOk 0) ∨
      s.storeCfg reg value = s.raise .badRegister := by
  unfold State.storeCfg
  split
  · split
    · exact .inl ⟨_, ‹_›, ‹_›, rfl⟩
    · exact .inr rfl
  · exact .inr rfl

theorem execCfgw_next {reg : BitVec 8} {value : Word} {s t : State} (h : execCfgw reg value s = .next t) :
    (s.mode = .config ∧ ∃ r, cfgRegOf reg = some r ∧ r.writable = true ∧ t = (s.writeCfg r value).respondOk 0) ∨
      (s.mode = .config ∧ t = s.raise .badRegister) ∨ (s.mode ≠ .config ∧ t = s.raise .illegalInMode) := by
  obtain ⟨hm, hk⟩ | ⟨hm, rfl⟩ := inMode_next h
  · obtain rfl : s.storeCfg reg value = t := by simpa using hk
    obtain ⟨r, h1, h2, h3⟩ | h3 := s.storeCfg_cases reg value
    · exact .inl ⟨hm, r, h1, h2, h3⟩
    · exact .inr (.inl ⟨hm, h3⟩)
  · exact .inr (.inr ⟨hm, rfl⟩)

theorem execStart_next {s t : State} (h : execStart s = .next t) :
    (s.mode = .config ∧ s.configFault = none ∧ t = s.openRenderPath.respondOk 0) ∨
      (s.mode = .config ∧ ∃ c, s.configFault = some c ∧ t = s.raise c) ∨
      (s.mode ≠ .config ∧ t = s.raise .illegalInMode) := by
  obtain ⟨hm, hk⟩ | ⟨hm, rfl⟩ := inMode_next h
  · split at hk
    · exact .inr (.inl ⟨hm, _, ‹_›, by simpa using hk.symm⟩)
    · exact .inl ⟨hm, ‹_›, by simpa using hk.symm⟩
  · exact .inr (.inr ⟨hm, rfl⟩)

theorem execStop_next {s t : State} (h : execStop s = .next t) :
    (s.mode = .run ∧ t = State.respondOk { s with mode := .config } 0) ∨
      (s.mode ≠ .run ∧ t = s.raise .illegalInMode) := by
  obtain ⟨hm, hk⟩ | ⟨hm, rfl⟩ := inMode_next h
  · exact .inl ⟨hm, by simpa using hk.symm⟩
  · exact .inr ⟨hm, rfl⟩

theorem execClrerr_next {s t : State} (h : execClrerr s = .next t) : t = s.clearErr.respondOk 0 := by
  simpa [execClrerr] using h.symm

theorem execSeed_next {voice : BitVec 8} {value : Word} {s t : State} (h : execSeed voice value s = .next t) :
    (s.build.maxVoices ≤ voice.toNat ∧ t = s.raise .badIndex) ∨
      (voice.toNat < s.build.maxVoices ∧ value = 0 ∧ t = s.raise .badOperand) ∨
      (voice.toNat < s.build.maxVoices ∧ value ≠ 0 ∧ t = (s.setRng voice.toNat value).respondOk 0) := by
  unfold execSeed at h
  split at h
  · exact .inl ⟨‹_›, by simpa using h.symm⟩
  · split at h
    · exact .inr (.inl ⟨by omega, ‹_›, by simpa using h.symm⟩)
    · exact .inr (.inr ⟨by omega, ‹_›, by simpa using h.symm⟩)

theorem execVrd_next {voice field : BitVec 8} {s t : State} (h : execVrd voice field s = .next t) :
    t = s.raise .badIndex ∨ (voice.toNat < s.build.maxVoices ∧ ∃ f, voiceFieldOf field = some f ∧
      t = s.respondOk (s.voiceFieldValue voice.toNat f)) := by
  unfold execVrd at h
  split at h
  · exact .inl (by simpa using h.symm)
  · split at h
    · exact .inr ⟨by omega, _, ‹_›, by simpa using h.symm⟩
    · exact .inl (by simpa using h.symm)

theorem execNoteOn_next {note : Word} {velocity : F32} {s t : State} (h : execNoteOn note velocity s = .next t) :
    (s.mode = .run ∧ ∃ i, noteOnTarget s.pool note = some i ∧ i < s.pool.length ∧
        t = (s.trigger i note velocity).respondOk 0) ∨
      (s.mode ≠ .run ∧ t = s.raise .illegalInMode) := by
  obtain ⟨hm, hk⟩ | ⟨hm, rfl⟩ := inMode_next h
  · obtain ⟨i, h1, h2⟩ := State.dispatchNoteOn_next hk
    exact .inl ⟨hm, i, h1, noteOnTarget_lt h1, h2⟩
  · exact .inr ⟨hm, rfl⟩

theorem execNoteOff_next {note : Word} {s t : State} (h : execNoteOff note s = .next t) :
    (s.mode = .run ∧ t = (s.releaseAll note).respondOk 0) ∨ (s.mode ≠ .run ∧ t = s.raise .illegalInMode) := by
  obtain ⟨hm, hk⟩ | ⟨hm, rfl⟩ := inMode_next h
  · exact .inl ⟨hm, by simpa using hk.symm⟩
  · exact .inr ⟨hm, rfl⟩

theorem execRender_next {frames base : Word} {s t : State} (h : execRender frames base s = .next t) :
    (s.mode = .run ∧ s.build.obufWords < renderNeed frames base s.cfg.channels ∧ t = s.raise .obufRange) ∨
      (s.mode = .run ∧ renderNeed frames base s.cfg.channels ≤ s.build.obufWords ∧
        (frames = 0 ∨ s.soundingSlots = []) ∧ t = s.respondOk 0) ∨
      (s.mode = .run ∧ renderNeed frames base s.cfg.channels ≤ s.build.obufWords ∧
        ∃ w, waveformOf s.cfg.waveform = some w ∧
          t = (s.renderFrames w base.toNat frames.toNat 0).respondOk 0) ∨
      (s.mode ≠ .run ∧ t = s.raise .illegalInMode) := by
  obtain ⟨hm, hk⟩ | ⟨hm, rfl⟩ := inMode_next h
  · obtain h1 | h1 | h1 := State.renderBlock_next hk
    · exact .inl ⟨hm, h1⟩
    · exact .inr (.inl ⟨hm, h1⟩)
    · exact .inr (.inr (.inl ⟨hm, h1⟩))
  · exact .inr (.inr (.inr ⟨hm, rfl⟩))

/-! ### A step -/

/-- All that a step can do: hold the state, reject a word, or run the command it decodes to. -/
theorem step_cases {s : State} {o : Result} (h : step s = o) :
    (s.queue = [] ∧ o = .next s) ∨
      ∃ w rest, s.queue = w :: rest ∧
        ((∃ e, decode w = .rejected e ∧ o = .next (State.raise { s with queue := rest } .illegalCommand)) ∨
          ∃ i, decode w = .instr i ∧ o = exec i { s with queue := rest }) := by
  subst h
  cases hq : s.queue with
  | nil => exact .inl ⟨rfl, by simp [step, State.takeCommand, hq]⟩
  | cons w rest =>
    refine .inr ⟨w, rest, rfl, ?_⟩
    cases hd : decode w with
    | instr i => exact .inr ⟨i, rfl, by simp [step, State.takeCommand, hq, hd]⟩
    | rejected e => exact .inl ⟨e, rfl, by simp [step, State.takeCommand, hq, hd]⟩

/-- The waveform is named whenever the selector is at most 4. -/
theorem waveformOf_isSome {w : Word} (h : w.toNat ≤ 4) : ∃ k, waveformOf w = some k := by
  have hw : w = 0#32 ∨ w = 1#32 ∨ w = 2#32 ∨ w = 3#32 ∨ w = 4#32 := by bv_omega
  rcases hw with rfl | rfl | rfl | rfl | rfl <;> exact ⟨_, rfl⟩

end Sys2Proof.Machine
end

