-- ==== Sys2Proof/Laws/Values.lean ====
section
/-! SUPPORT. The numbers by fields, in which the statements speak, are the numbers by quanta, in which the model
computes. -/

namespace Sys2Proof.Machine

/-- Finiteness by the exponent field is finiteness by value. -/
theorem finite32_iff {x : F32} : finite32 x ↔ isFinite32 x = true := by
  have hx := x.isLt
  unfold finite32 ieeeFinite isFinite32 val32 Fmt.unpack
  rw [fmt32_signMag, fmt32_infMag]
  norm_num
  split_ifs <;> simp <;> omega

/-- NaN by the exponent and fraction fields is NaN by value. -/
theorem nanBits32_iff {x : F32} : nanBits32 x ↔ isNaN32 x = true := by
  have hx := x.isLt
  unfold nanBits32 ieeeNaN isNaN32 val32 Fmt.unpack
  rw [fmt32_signMag, fmt32_infMag]
  norm_num
  split_ifs <;> simp <;> omega

/-- The number of a finite pattern by its fields is its number of quanta with its sign. -/
theorem real32_eq_value32 {x : F32} (h : finite32 x) : real32 x = value32 x := by
  obtain ⟨neg, q, hv⟩ := isFinite32_iff.1 (finite32_iff.1 h)
  obtain ⟨h1, h2, h3⟩ := val32_fin hv
  have hx := x.isLt
  have hsign : ieeeSign 8 23 x.toNat = neg := by
    unfold ieeeSign
    rw [h2, Nat.testBit_eq_decide_div_mod_eq]
    norm_num
    omega
  have hmag : ieeeMagnitude 8 23 x.toNat = (q : ℚ) / 2 ^ 149 := by
    unfold ieeeMagnitude
    rw [h3]
    unfold Fmt.quanta
    rw [fmt32_prec, show (2 : Nat) ^ (24 - 1) = 8388608 from rfl,
      show (2 : Nat) ^ 8 = 256 from rfl]
    generalize hn : x.toNat = n at *
    have hE : n / 8388608 % 256 = n % 2147483648 / 8388608 := by omega
    have hF : n % 8388608 = n % 2147483648 % 8388608 := by omega
    rw [hE, hF]
    generalize n % 2147483648 = m at *
    by_cases hz : m / 8388608 = 0
    · rw [if_pos hz, if_pos hz]
      have : m % 8388608 = m := by omega
      rw [this]
      norm_num
      ring
    · rw [if_neg hz, if_neg hz]
      obtain ⟨e, he⟩ : ∃ e, m / 8388608 = e + 1 := ⟨m / 8388608 - 1, by omega⟩
      rw [he]
      push_cast
      rw [show (e : ℤ) + 1 - 127 = (e : ℤ) - 126 by ring, zpow_sub₀ (by norm_num), zpow_natCast]
      norm_num
      ring
  rw [value32_of_fin hv]
  unfold real32 ieeeValue
  rw [hsign, hmag]
  cases neg <;> simp
  ring

end Sys2Proof.Machine
end

