-- ==== Sys2Proof/Machine/Assembler.lean ====
section
/-! DEFINITION. The assembler notation of the spec (`30_encoding.md` R70, R71): one spelling of each command, and the
expansion of each pseudo-instruction. No step uses this file. -/

namespace Sys2Proof.Machine

/-- The name of a register (R70; `10_state.md` R20). -/
def CfgReg.name : CfgReg → String
  | .status => "STATUS"
  | .voiceCount => "VOICE_COUNT"
  | .waveform => "WAVEFORM"
  | .gain => "GAIN"
  | .refNote => "REF_NOTE"
  | .refFreq => "REF_FREQ"
  | .sampleRate => "SAMPLE_RATE"
  | .channels => "CHANNELS"
  | .maxVoices => "MAX_VOICES"
  | .obufSize => "OBUF_SIZE"

/-- The number of a register (`10_state.md` R20). -/
def CfgReg.number : CfgReg → BitVec 8
  | .status => 0x00
  | .voiceCount => 0x01
  | .waveform => 0x02
  | .gain => 0x03
  | .refNote => 0x04
  | .refFreq => 0x05
  | .sampleRate => 0x06
  | .channels => 0x07
  | .maxVoices => 0x08
  | .obufSize => 0x09

/-- The name of a voice field (`45_system_commands.md` R190). -/
def VoiceField.name : VoiceField → String
  | .active => "ACTIVE"
  | .note => "NOTE"
  | .velocity => "VELOCITY"
  | .frequency => "FREQUENCY"
  | .phaseLo => "PHASE_LO"
  | .phaseHi => "PHASE_HI"
  | .sampleRate => "SAMPLE_RATE"
  | .trigLo => "TRIG_LO"
  | .trigHi => "TRIG_HI"
  | .rng => "RNG"

/-- A number in `0x` hexadecimal, the spelling of an exact bit pattern (R70). -/
def hexOf (n : Nat) : String := "0x" ++ String.ofList ((Nat.toDigits 16 n).map Char.toUpper)

/-- A register operand: its name, or its number where it has none (R70). -/
def regOperand (reg : BitVec 8) : String :=
  match cfgRegOf reg with
  | some r => r.name
  | none => hexOf reg.toNat

/-- A field selector operand: its name, or its number where it has none (R70). -/
def fieldOperand (field : BitVec 8) : String :=
  match voiceFieldOf field with
  | some f => f.name
  | none => hexOf field.toNat

/-- One assembler line of a command (R70): notes in decimal, indices and counts in decimal, bit patterns in
hexadecimal. -/
def assemblerLine : Instr → String
  | .cfgw reg value => "CFGW " ++ regOperand reg ++ ", " ++ hexOf value.toNat
  | .cfgr reg => "CFGR " ++ regOperand reg
  | .start => "START"
  | .stop => "STOP"
  | .clrerr => "CLRERR"
  | .seed voice value => "SEED " ++ toString voice.toNat ++ ", " ++ hexOf value.toNat
  | .vrd voice field => "VRD " ++ toString voice.toNat ++ ", " ++ fieldOperand field
  | .noteOn note velocity => "NOTE_ON " ++ toString note.toInt ++ ", " ++ hexOf velocity.toNat
  | .noteOff note => "NOTE_OFF " ++ toString note.toInt
  | .render frames base => "RENDER " ++ toString frames.toNat ++ ", " ++ toString base.toNat

/-- `NOTE_ON note` (R71): velocity 1.0. -/
def pseudoNoteOn (note : Word) : List Instr := [.noteOn note 0x3F800000]

/-- `FRAME base` (R71). -/
def pseudoFrame (base : Word) : List Instr := [.render 1 base]

/-- `CFG.<NAME> value` (R71). -/
def pseudoCfg (r : CfgReg) (value : Word) : List Instr := [.cfgw r.number value]

/-- `SETUP sr, ch, n, wf, g` (R71): six commands. -/
def pseudoSetup (sr : F32) (ch n wf : Word) (g : F32) : List Instr :=
  [.cfgw CfgReg.sampleRate.number sr, .cfgw CfgReg.channels.number ch, .cfgw CfgReg.voiceCount.number n,
    .cfgw CfgReg.waveform.number wf, .cfgw CfgReg.gain.number g, .start]

end Sys2Proof.Machine
end

