-- ==== Sys2Proof/Tests/Slice0.lean ====
section
/-! SUPPORT. The model's own tests: the smoke tests of WellFormed, the decoding of words written out from the spec, one-step
tests with values from `95_test_vectors.md` and the worked examples, and, for every statement with hypotheses, a state and
operands that meet them. -/

namespace Sys2Proof.Tests
open Sys2Proof.Machine

/-! ### States -/

/-- The next state of an answer. -/
def after (o : Result) : Option State :=
  match o with
  | .next s => some s
  | .fault _ => none
  | .refused _ => none

/-- An answer that evaluates to a next state. -/
theorem next_of_some {o : Result} (h : (after o).isSome = true) : ∃ t, o = .next t := by
  cases o with
  | next t => exact ⟨t, rfl⟩
  | fault r => simp [after] at h
  | refused r => simp [after] at h

/-- An answer that evaluates to a next state with a property. -/
theorem next_with {o : Result} (p : State → Bool) (h : (after o).any p = true) : ∃ t, o = .next t ∧ p t = true := by
  cases o with
  | next t => exact ⟨t, rfl, h⟩
  | fault r => simp [after] at h
  | refused r => simp [after] at h

/-- A configured machine before START: 48000.0, gain 0.5. -/
def boot : State := { State.reset with cfg := { ConfigRegs.reset with sampleRate := 0x473B8000, gain := 0x3F000000 } }

/-- The same after START. -/
def running : State := { boot with mode := .run }

/-- A voice triggered with note 69 (`43_voice.md` R142). -/
def a440 : Voice where
  active := true
  note := 69
  velocity := 0x3F800000
  frequency := 0x43DC0000
  phase := 0
  sampleRate := 0x473B8000
  trig := 0

/-- The running machine with note 69 sounding in slot 0. -/
def playing : State := { running with voices := a440 :: List.replicate 7 Voice.idle, trigCtr := 1 }

/-- The same with another waveform. -/
def playingWave (w : Word) : State := { playing with cfg := { playing.cfg with waveform := w } }

/-- A machine with one word waiting. -/
def waiting (s : State) (w : CmdWord) : State := { s with queue := [w] }

/-- The slots of `playing`. -/
theorem playing_voice (i : Nat) : playing.voice i = if i = 0 then a440 else Voice.idle := by
  match i with
  | 0 | 1 | 2 | 3 | 4 | 5 | 6 | 7 => rfl
  | n + 8 => rfl

/-- The slots of `running`. -/
theorem running_voice (i : Nat) : running.voice i = Voice.idle := by
  match i with
  | 0 | 1 | 2 | 3 | 4 | 5 | 6 | 7 => rfl
  | n + 8 => rfl

/-! ### WellFormed refuses each ill-formed term -/

theorem test_wf_accepts : [Instr.cfgw 1 0, .cfgw 7 0, .cfgr 9, .start, .seed 7 1, .vrd 7 9, .render 0 0].all
    (Instr.wellFormed Build.default) = true := by decide
theorem test_wf_refuses_write_to_status : (Instr.cfgw 0 1).wellFormed Build.default = false := by decide
theorem test_wf_refuses_write_to_max_voices : (Instr.cfgw 8 1).wellFormed Build.default = false := by decide
theorem test_wf_refuses_read_of_no_register : (Instr.cfgr 0x0A).wellFormed Build.default = false := by decide
theorem test_wf_refuses_seed_of_unbuilt_slot : (Instr.seed 8 1).wellFormed Build.default = false := by decide
theorem test_wf_refuses_zero_seed : (Instr.seed 0 0).wellFormed Build.default = false := by decide
theorem test_wf_refuses_vrd_of_unbuilt_slot : (Instr.vrd 8 0).wellFormed Build.default = false := by decide
theorem test_wf_refuses_vrd_of_no_field : (Instr.vrd 0 0x0A).wellFormed Build.default = false := by decide

/-! ### Decoding: the legal words of `95_test_vectors.md` 2.1 -/

theorem test_decode_cfgw : decode 0x01040000_FFFFFFFD_00000000 = .instr (.cfgw 0x04 0xFFFFFFFD) := by decide
theorem test_decode_cfgr : decode 0x02090000_00000000_00000000 = .instr (.cfgr 0x09) := by decide
theorem test_decode_start : decode 0x03000000_00000000_00000000 = .instr .start := by decide
theorem test_decode_stop : decode 0x04000000_00000000_00000000 = .instr .stop := by decide
theorem test_decode_clrerr : decode 0x05000000_00000000_00000000 = .instr .clrerr := by decide
theorem test_decode_seed : decode 0x06000000_DEADBEEF_00000000 = .instr (.seed 0 0xDEADBEEF) := by decide
theorem test_decode_vrd : decode 0x07030900_00000000_00000000 = .instr (.vrd 3 9) := by decide
theorem test_decode_note_on : decode 0x10000000_0000003C_3F000000 = .instr (.noteOn 60 0x3F000000) := by decide
theorem test_decode_note_off : decode 0x11000000_FFFFFFFF_00000000 = .instr (.noteOff (-1)) := by decide
theorem test_decode_render : decode 0x20000000_00000001_0000000A = .instr (.render 1 10) := by decide

/-- The bytes of a word, bits 7:0 first (`20_memory.md` R47). -/
theorem test_decode_bytes : decodeBytes [0x0A, 0, 0, 0, 1, 0, 0, 0, 0, 0, 0, 0x20] = .instr (.render 1 10) := by
  decide

/-- The illegal words of `95_test_vectors.md` 2.2. -/
theorem test_decode_illegal : ([0x00000000_00000000_00000000, 0x08000000_00000000_00000000,
    0x12000000_00000045_00000000, 0x21000000_00000001_00000000, 0xFF000000_00000000_00000000,
    0x03000000_00000000_00000001, 0x03010000_00000000_00000000, 0x04000000_00000001_00000000,
    0x05000001_00000000_00000000, 0x01060001_473B8000_00000000, 0x01060100_473B8000_00000000,
    0x01060000_473B8000_00000001, 0x02050000_00000001_00000000, 0x06000100_DEADBEEF_00000000,
    0x07000100_00000001_00000000, 0x10010000_00000045_3F800000, 0x11000000_00000045_3F800000,
    0x20000001_00000001_00000000] : List CmdWord).all
      (fun w => match decode w with | .instr _ => false | .rejected _ => true) = true := by decide

/-- `SETUP 48000.0, 1, 1, Sine, 0.5` (R71): its first and last words. -/
theorem test_setup_expands : (pseudoSetup 0x473B8000 1 1 0 0x3F000000).map encode =
    [0x01060000_473B8000_00000000, 0x01070000_00000001_00000000, 0x01010000_00000001_00000000,
      0x01020000_00000000_00000000, 0x01030000_3F000000_00000000, 0x03000000_00000000_00000000] := by decide

/-! ### One step of each command, with values of the spec -/

/-- R181: `CFGW WAVEFORM, Square` in CONFIG. -/
theorem test_cfgw_stores : (after (exec (.cfgw 0x02 1) boot)).map (fun t => (t.cfg.waveform, t.responses)) =
    some (1, [0x00000000_00000000]) := by decide
/-- R205: in RUN a bad register number is not looked at. -/
theorem test_cfgw_mode_first : (after (exec (.cfgw 0x40 0) running)).map (fun t => (t.cfg, t.responses)) =
    some (running.cfg, [0x02000000_00000000]) := by decide
/-- 3.7: STATUS in RUN with first fault CFG_WAVEFORM. -/
theorem test_cfgr_status : (after (exec (.cfgr 0x00) { running with err := true, errcode := 0x12 })).map (·.responses) =
    some [0x00000000_00001203] := by decide
/-- R180: `CFGR 0x0A`. -/
theorem test_cfgr_bad : (after (exec (.cfgr 0x0A) State.reset)).map (fun t => (t.err, t.errcode, t.responses)) =
    some (true, 0x03, [0x03000000_00000000]) := by decide
/-- R184 (a): straight after reset START fails. -/
theorem test_start_after_reset : (after (exec .start State.reset)).map (fun t => (t.mode, t.responses)) =
    some (.config, [0x10000000_00000000]) := by decide
/-- R183: START silences a voice left sounding and keeps `err`. -/
theorem test_start_opens : (after (exec .start { playing with mode := .config, err := true, errcode := 0x12 })).map
    (fun t => (t.mode, t.voices, t.trigCtr, t.err)) = some (.run, List.replicate 8 Voice.idle, 0, true) := by
  decide
/-- R185: a voice sounding at STOP keeps its fields. -/
theorem test_stop_keeps_voices : (after (exec .stop playing)).map (fun t => (t.mode, t.voices, t.trigCtr)) =
    some (.config, playing.voices, 1) := by decide
/-- R212: CLRERR clears both flags. -/
theorem test_clrerr : (after (exec .clrerr { boot with err := true, errcode := 0x02 })).map
    (fun t => (t.err, t.errcode, t.mode)) = some (false, 0, .config) := by decide
/-- 3.8: index before operand. -/
theorem test_seed_index_first : (after (exec (.seed 8 0) boot)).map (fun t => (t.rng, t.responses)) =
    some ([1, 2, 3, 4, 5, 6, 7, 8], [0x04000000_00000000]) := by decide
/-- 2.1: `SEED 7, 1`. -/
theorem test_seed_stores : (after (exec (.seed 7 1) running)).map (·.rng) = some [1, 2, 3, 4, 5, 6, 7, 1] := by
  decide
/-- 2.1: `VRD 3, RNG` after reset. -/
theorem test_vrd_rng : (after (exec (.vrd 3 9) State.reset)).map (·.responses) = some [0x00000000_00000004] := by
  decide
/-- 4.1: the high half of a phase. -/
theorem test_vrd_phase_hi : (after (exec (.vrd 0 5)
    { playing with voices := [{ a440 with phase := 0x3FCD7D348BD51D05 }] })).map (·.responses) =
      some [0x00000000_3FCD7D34] := by decide
/-- R142: the worked trigger. -/
theorem test_note_on_triggers : (after (exec (.noteOn 69 0x3F800000) running)).map
    (fun t => (t.voices.take 2, t.trigCtr)) = some ([a440, Voice.idle], 1) := by decide +kernel
/-- R164: with both slots sounding the older one is stolen. -/
theorem test_note_on_steals_oldest : (after (exec (.noteOn 67 0x3F800000) { running with
      cfg := { running.cfg with voiceCount := 2 }
      voices := [{ a440 with note := 60, trig := 5 }, { a440 with note := 64, trig := 1 }, Voice.idle]
      trigCtr := 6 })).map (fun t => t.voices.map (fun v => (v.active, v.note, v.frequency, v.trig))) =
    some [(true, 60, 0x43DC0000, 5), (true, 67, 0x43C3FF6A, 6), (false, 0xFFFFFFFF, 0, 0)] := by decide +kernel
/-- R143: a release keeps the other fields. -/
theorem test_note_off_releases : (after (exec (.noteOff 69) playing)).map (fun t => (t.voices.take 1, t.trigCtr)) =
    some ([{ a440 with active := false, note := 0xFFFFFFFF }], 1) := by decide
/-- R150: `NOTE_OFF -1` matches no Idle slot. -/
theorem test_note_off_minus_one : (after (exec (.noteOff (-1)) playing)).map (·.voices) = some playing.voices := by
  decide
/-- 4.1: the first two cells of the Sine program, over a buffer of zeros. -/
theorem test_render_sine : (after (exec (.render 2 0) playing)).map
    (fun t => (t.memRead 0, t.memRead 1, t.memRead 2, (t.voice 0).phase)) =
      some (0x3CEBC841, 0x3D6B642B, 0, 0x3FBD7D348BD51D05) := by decide +kernel
/-- 4.1 with Noise: one draw per frame from `rng[0] = 1`. -/
theorem test_render_noise : (after (exec (.render 1 0) (playingWave 4))).map (fun t => (t.memRead 0, t.rng.take 2)) =
    some (0x3EB6DB68, [0x2DBDB6B6, 2]) := by decide

/-- R116: the worked frequencies. -/
theorem test_frequencies : ([69, 81, 57, 60, 64, 70, 68, 0, 127, -1] : List Int).map
    (fun n => noteToFrequency .correctlyRounded ConfigRegs.reset (BitVec.ofInt 32 n)) =
      [0x43DC0000, 0x445C0000, 0x435C0000, 0x4382D012, 0x43A4D054, 0x43E914F7, 0x43CFA700, 0x4102D012, 0x4643FF6C,
        0x40F6F10E] := by decide +kernel

/-- The fetch of the table's numbering runs the word. -/
theorem test_fetch_word : (after (step (State.reset.withFetchWord 96 0x02050000_00000000_00000000))).map
    (fun t => (t.queue, t.responses)) = some ([], [0x00000000_43DC0000]) := by decide

/-! ### Witnesses: a state and operands for the hypotheses of each statement -/

theorem test_witness_EncodeDecodeRoundTrip :
    decode 0x06000000_DEADBEEF_00000000 = .instr (.seed 0 0xDEADBEEF) := by decide

theorem test_witness_DecodeFollowsOpcodeTable :
    (0x10000000_00000045_3F800000 : CmdWord) &&& Op.noteOn.mask = Op.noteOn.pattern ∧
      (0x11000000_00000045_3F800000 : CmdWord) &&& Op.noteOff.mask ≠ Op.noteOff.pattern := by decide

theorem test_witness_IllegalWordRaises :
    (waiting running 0x08000000_00000000_00000000).queue = [0x08000000_00000000_00000000] ∧
      (∀ o : Op, (0x08000000_00000000_00000000 : CmdWord) &&& o.mask ≠ o.pattern) ∧
      (∀ o : Op, (0x03000000_00000000_00000001 : CmdWord) &&& o.mask ≠ o.pattern) := by
  refine ⟨rfl, ?_, ?_⟩ <;> intro o <;> cases o <;> decide

theorem test_witness_StepRunsDecodedCommand : State.reset.queue = [] ∧
    (waiting boot 0x03000000_00000000_00000000).queue = [0x03000000_00000000_00000000] ∧
    decode 0x03000000_00000000_00000000 = .instr .start := by decide

theorem test_witness_OneResponsePerCommand :
    (waiting State.reset 0x02050000_00000000_00000000).queue = [0x02050000_00000000_00000000] ∧
      ∃ t, step (waiting State.reset 0x02050000_00000000_00000000) = .next t ∧
        decide (t.responses = [0x00#8 ++ 0#24 ++ 0x43DC0000#32]) = true := ⟨rfl, next_with _ (by decide)⟩

theorem test_witness_FaultChangesNothingElse :
    (∃ t, step (waiting State.reset 0x020A0000_00000000_00000000) = .next t ∧
      decide (t.responses = State.reset.responses ++ [0x03#8 ++ 0#24 ++ 0#32]) = true) ∧
    ∃ t, step (waiting State.reset 0x02000000_00000000_00000000) = .next t ∧
      decide (t.responses = State.reset.responses ++ [0x00#8 ++ 0#24 ++ 0#32]) = true :=
  ⟨next_with _ (by decide), next_with _ (by decide)⟩

theorem test_witness_ErrorFlagsAreALog :
    (∃ t, exec (.cfgr 0x40) { boot with err := true, errcode := 0x02 } = .next t) ∧
      ({ boot with err := true, errcode := 0x02 } : State).err = true ∧ Instr.cfgr 0x40 ≠ .clrerr :=
  ⟨next_of_some (by decide), rfl, by decide⟩

theorem test_witness_modes : running.mode = .run ∧ boot.mode = .config := by decide

/-- CFGR: the boundary of the register numbers. -/
theorem test_witness_CfgrReads : 0x09 < (0x0A : BitVec 8).toNat ∧ 0x09 < (0xFF : BitVec 8).toNat := by decide

/-- CFGW: the boundaries of the read-only and absent numbers. -/
theorem test_witness_CfgwStores : boot.mode = .config ∧ running.mode = .run ∧
    ((0x00 : BitVec 8) = 0x00) ∧ 0x07 < (0x08 : BitVec 8).toNat ∧ 0x07 < (0xFF : BitVec 8).toNat := by decide

/-- START: each check at the ends of its range (`95_test_vectors.md` 3.7). -/
theorem test_witness_StartChecksAndOpens : boot.mode = .config ∧
    ([0, 0x7F800000, 0x80000000] : List Word).all (fun x => !(decide (0 < x.toNat) && decide (x.toNat < 0x7F800000))) ∧
    ([1, 0x7F7FFFFF, boot.cfg.sampleRate] : List Word).all
      (fun x => decide (0 < x.toNat) && decide (x.toNat < 0x7F800000)) ∧
    boot.build.maxVoices < (9 : Word).toNat ∧ (8 : Word).toNat ≤ boot.build.maxVoices ∧ (1 : Word) ≠ 0 ∧
    4 < (5 : Word).toNat ∧ (4 : Word).toNat ≤ 4 := by decide

theorem test_witness_ClrerrAcknowledges : boot.err = false ∧ boot.errcode = 0 := by decide

theorem test_witness_SeedLoads : boot.build.maxVoices ≤ (8 : BitVec 8).toNat ∧ (7 : BitVec 8).toNat < boot.build.maxVoices ∧
    (1 : Word) ≠ 0 ∧ boot.formed = true := by decide

theorem test_witness_VrdReads : boot.build.maxVoices ≤ (8 : BitVec 8).toNat ∧ 0x09 < (0x0A : BitVec 8).toNat ∧
    (7 : BitVec 8).toNat < playing.build.maxVoices ∧ playing.voices[(7 : BitVec 8).toNat]? = some Voice.idle ∧
    playing.voices[(0 : BitVec 8).toNat]? = some a440 := by decide

theorem test_witness_ModeChangesOnlyByStartAndStop :
    (∃ t, step (waiting boot 0x03000000_00000000_00000000) = .next t ∧ decide (t.mode ≠ boot.mode) = true) ∧
      ∃ t, step (waiting running 0x04000000_00000000_00000000) = .next t ∧ decide (t.mode ≠ running.mode) = true :=
  ⟨next_with _ (by decide), next_with _ (by decide)⟩

theorem test_witness_ModesProtectState :
    (∃ t, step (waiting playing 0x11000000_00000045_00000000) = .next t) ∧ playing.mode = .run ∧
      (∃ t, step (waiting boot 0x06000000_DEADBEEF_00000000) = .next t ∧
        decide (boot.mode = .config ∧ t.mode = .config ∧ t.rng ≠ boot.rng) = true) ∧
      ∃ t, step (waiting boot 0x04000000_00000000_00000000) = .next t ∧ decide (t.err ≠ boot.err) = true :=
  ⟨next_of_some (by decide), rfl, next_with _ (by decide), next_with _ (by decide)⟩

/-- WhoWritesWhat: a RENDER of Noise changes OBUF, a source and a phase; a NOTE_OFF changes whether a slot sounds. -/
theorem test_witness_WhoWritesWhat :
    (after (step (waiting (playingWave 4) 0x20000000_00000001_00000000))).map
        (fun t => (decide (t.obuf ≠ playing.obuf), decide (t.rngOf 0 ≠ playing.rngOf 0),
          decide ((t.voice 0).phase ≠ (playing.voice 0).phase))) = some (true, true, true) ∧
      (after (step (waiting playing 0x11000000_00000045_00000000))).map
        (fun t => decide ((t.voice 0).active ≠ (playing.voice 0).active)) = some true := by decide +kernel

/-- NOTE_ON: the hypotheses, and a state for each of the three steps of R160. -/
theorem test_witness_NoteOnTriggersTheChosenSlot :
    playing.formed = true ∧ playing.mode = .run ∧ 1 ≤ playing.cfg.voiceCount.toNat ∧
      playing.cfg.voiceCount.toNat ≤ playing.build.maxVoices ∧ playing.trigCtr.toNat + 1 < 2 ^ 64 ∧
      playing.chooses 69 0 ∧ playing.chooses 60 0 ∧ running.chooses 60 0 := by
  refine ⟨by decide, rfl, by decide, by decide, by decide, ?_, ?_, ?_⟩
  · exact ⟨by decide, .inl ⟨⟨rfl, rfl⟩, fun i hi => absurd hi (Nat.not_lt_zero i)⟩⟩
  · refine ⟨by decide, .inr (.inr ⟨fun i hi => ?_, fun i hi => ?_⟩)⟩ <;>
      obtain rfl : i = 0 := Nat.lt_one_iff.1 hi
    · exact ⟨fun h => absurd h.2 (by decide), rfl⟩
    · exact .inr ⟨rfl, Nat.le_refl 0⟩
  · refine ⟨by decide, .inr (.inl ⟨fun i _ h => ?_, rfl, fun i hi => absurd hi (Nat.not_lt_zero i)⟩)⟩
    rw [State.boundAt, running_voice] at h; exact absurd h.1 (by decide)

theorem test_witness_NoteOffReleasesTheBoundSlot : playing.mode = .run ∧ 0 < playing.cfg.voiceCount.toNat ∧
    playing.boundAt 69 0 ∧ ¬ playing.boundAt 60 0 ∧ playing.oneVoicePerNote := by
  refine ⟨rfl, by decide, ⟨rfl, rfl⟩, fun h => absurd h.2 (by decide), ?_⟩
  intro i j hi hj hij
  exact absurd (Nat.lt_one_iff.1 hi) (fun h => hij (h.trans (Nat.lt_one_iff.1 hj).symm))

theorem test_witness_UnmatchedNoteOffChangesNothing : playing.mode = .run ∧
    ∀ i, i < playing.cfg.voiceCount.toNat → ¬ playing.boundAt 60 i := by
  refine ⟨rfl, fun i hi h => ?_⟩
  obtain rfl : i = 0 := Nat.lt_one_iff.1 hi
  exact absurd h.2 (by decide)

/-- RENDER's range at its boundary (`95_test_vectors.md` 3.6). -/
theorem test_witness_RenderRangeCheck : playing.mode = .run ∧
    playing.build.obufWords < (1048577 : Word).toNat + (0 : Word).toNat * playing.cfg.channels.toNat ∧
    (1048576 : Word).toNat + (0 : Word).toNat * playing.cfg.channels.toNat ≤ playing.build.obufWords := by
  decide

theorem test_witness_RenderCompletes : (playingWave 4).formed = true ∧ (playingWave 4).mode = .run ∧
    (playingWave 4).cfg.waveform.toNat ≤ 4 ∧ (playingWave 4).cfg.waveform = 4 ∧ playing.cfg.waveform ≠ 4 ∧
    (10 : Word).toNat + (2 : Word).toNat * playing.cfg.channels.toNat ≤ playing.build.obufWords ∧
    playing.soundsAt 0 ∧ ¬ playing.soundsAt 1 ∧ 39 / 4 < (10 : Word).toNat ∧
    (10 : Word).toNat + (2 : Word).toNat * playing.cfg.channels.toNat ≤ 48 / 4 := by
  refine ⟨by decide, rfl, by decide, rfl, by decide, by decide, ⟨by decide, rfl⟩, ?_, by decide, by decide⟩
  exact fun h => absurd h.1 (by decide)

theorem test_witness_RenderCellSum : playing.formed = true ∧ playing.mode = .run ∧
    waveformOf playing.cfg.waveform = some .sine ∧
    (0 : Word).toNat + (2 : Word).toNat * playing.cfg.channels.toNat ≤ playing.build.obufWords ∧
    (∃ t, exec (.render 2 0) playing = .next t) ∧ 1 < (2 : Word).toNat ∧ 0 < playing.cfg.channels.toNat :=
  ⟨by decide, rfl, rfl, by decide, next_of_some (by decide), by decide, by decide⟩

theorem test_witness_SilentRenderChangesNothing : running.mode = .run ∧
    (0 : Word).toNat + (4 : Word).toNat * running.cfg.channels.toNat ≤ running.build.obufWords ∧
    (∀ i, ¬ running.soundsAt i) ∧ (0 : Word) = 0 := by
  refine ⟨rfl, by decide, fun i h => ?_, rfl⟩
  rw [State.soundsAt, running_voice] at h; exact absurd h.2 (by decide)

theorem test_witness_RenderSplits : (1 : Word).toNat ≤ (2 : Word).toNat ∧ playing.mode = .run ∧
    (0 : Word).toNat + (2 : Word).toNat * playing.cfg.channels.toNat ≤ playing.build.obufWords ∧
    (0 : Word).toNat + (1 : Word).toNat * playing.cfg.channels.toNat < 2 ^ 32 ∧
    ∃ t, exec (.render 2 0) playing = .next t :=
  ⟨by decide, rfl, by decide, by decide, next_of_some (by decide)⟩

theorem test_witness_UnreachableStops : ({ running with cfg := { running.cfg with voiceCount := 0 } } : State).mode = .run ∧
    (playingWave 5).mode = .run ∧ 4 < (playingWave 5).cfg.waveform.toNat ∧ (1 : Word) ≠ 0 ∧ (playingWave 5).soundsAt 0 ∧
    (0 : Word).toNat + (1 : Word).toNat * (playingWave 5).cfg.channels.toNat ≤ (playingWave 5).build.obufWords :=
  ⟨rfl, rfl, by decide, by decide, ⟨by decide, rfl⟩, by decide⟩

theorem test_witness_VelocityIsNeverHeard : (∀ voice, Instr.render 2 0 ≠ .vrd voice 0x02) ∧
    playing.sameButVelocity
      { playing with voices := { a440 with velocity := 0x7FC00000 } :: List.replicate 7 Voice.idle } ∧
    ∃ t, exec (.render 2 0) playing = .next t :=
  ⟨fun _ h => by simp at h, ⟨rfl, rfl⟩, next_of_some (by decide)⟩

theorem test_witness_ObufReachesNoOtherState : ∃ t, exec (.render 2 0) playing = .next t :=
  next_of_some (by decide)

/-- Finite operands, a NaN, an infinity, a zero and their boundaries. -/
theorem test_witness_arithmetic : finite32 0x3F800000 ∧ finite32 0x7F7FFFFF ∧ finite32 0x00000001 ∧
    nanBits32 0x7F800001 ∧ ¬ finite32 0x7F800000 ∧ ¬ nanBits32 0x7F800000 ∧ ¬ nanBits32 0xFF800000 ∧
    finite64 0x3FF0000000000000 ∧ ¬ finite64 0x7FF0000000000000 ∧ ¬ nanBits64 0x7FF0000000000000 ∧
    nanBits64 0x7FF8000000000000 ∧ ¬ finite32 0xFF800000 ∧ ¬ finite64 0xFFF0000000000000 ∧
    ¬ nanBits64 0xFFF0000000000000 := by
  simp only [finite32, finite64, nanBits32, nanBits64, ieeeFinite, ieeeNaN]; decide

/-- The values of 1.0, both zeros and -1.0: non-zero and zero divisors and remainders. -/
theorem test_witness_values : real32 0x3F800000 = 1 ∧ real32 0 = 0 ∧ real32 0x80000000 = 0 ∧ real32 0xBF800000 = -1 ∧
    real64 0x3FF0000000000000 = 1 ∧ real64 0 = 0 ∧ real64 0x8000000000000000 = 0 := by
  simp only [real32, real64, ieeeValue]; decide +kernel

theorem test_witness_NarrowRoundsPhases : key64 0 ≤ key64 0x3FF0000000000000 ∧
    (0x401921FB54442D17 : F64).toNat < 0x401921FB54442D18 ∧
    0x401921FB50000000 < (0x401921FB50000001 : F64).toNat := by decide

theorem test_witness_IntegerToFloatRounds : |(16777216 : Int)| ≤ 2 ^ 24 ∧ |(-16777216 : Int)| ≤ 2 ^ 24 := by decide

theorem test_witness_ClampToUnitInterval : key32 0xBF800000 < 0 ∧ key32 0x80000001 < 0 ∧
    key32 0x3F800000 < key32 0x3F800001 ∧ key32 0x80000000 = 0 ∧ 0 ≤ key32 0x3F800000 := by decide

theorem test_witness_PowerOfTwo : key32 0x43000000 ≤ key32 0x7F800000 ∧ key32 0xC2FC0001 < key32 0xC2FC0000 ∧
    key32 0x80000000 ≤ key32 0x00000000 := by decide

/-- The numbers below -126 and from -126 up to 128, of laws E3 and E4. -/
theorem test_witness_PowerOfTwoLaws : finite32 0xC2FC0001 ∧ real32 0xC2FC0001 < -126 ∧ finite32 0xC2FC0000 ∧
    -126 ≤ real32 0xC2FC0000 ∧ real32 0x42FFFFFF < 128 ∧ (0x40C90FDB : F32).toNat ≤ 0x40C90FDB := by
  refine ⟨?_, ?_, ?_, ?_, ?_, by decide⟩
  · simp only [finite32, ieeeFinite]; decide
  · simp only [real32, ieeeValue]; decide +kernel
  · simp only [finite32, ieeeFinite]; decide
  · simp only [real32, ieeeValue]; decide +kernel
  · simp only [real32, ieeeValue]; decide +kernel

/-- Whichever zero the default sine answers at -0.0, it is a zero. -/
theorem test_sine_of_negative_zero :
    sin32 .correctlyRounded 0x80000000 = 0 ∨ sin32 .correctlyRounded 0x80000000 = 0x80000000 := by
  show (if _ then _ else _) = _ ∨ (if _ then _ else _) = _
  split
  · exact .inr rfl
  · exact .inl rfl

theorem test_witness_AnchorNoteIsExact : finite32 ConfigRegs.reset.refFreq := by
  simp only [finite32, ieeeFinite]; decide

/-- The gain 1.0 at the ends of the phase domain; a NaN phase. -/
theorem test_witness_OscillatorIsBounded : finite32 one32 ∧ 0 ≤ real32 one32 ∧ real32 one32 ≤ 1 ∧
    (0x40C90FDB : F32).toNat ≤ 0x40C90FDB ∧ (0 : F32).toNat ≤ 0x40C90FDB ∧ nanBits32 nan32 := by
  refine ⟨?_, ?_, ?_, by decide, by decide, ?_⟩
  · simp only [finite32, ieeeFinite]; decide
  · simp only [real32, ieeeValue]; decide +kernel
  · simp only [real32, ieeeValue]; decide +kernel
  · simp only [nanBits32, ieeeNaN]; decide

theorem test_witness_RandomSourceLaws : (1 : Word) ≠ 0 := by decide

theorem test_witness_PhaseLaw : phaseInRange a440.phase ∧ a440.incrementOk ∧ finite32 a440.frequency ∧
    0 ≤ real32 a440.frequency ∧ finite32 a440.sampleRate ∧ 0 < real32 a440.sampleRate := by
  refine ⟨by show _ < _; decide +kernel, .inl (by decide +kernel), ?_, ?_, ?_, ?_⟩
  · simp only [finite32, ieeeFinite]; decide
  · simp only [real32, ieeeValue]; decide +kernel
  · simp only [finite32, ieeeFinite]; decide
  · simp only [real32, ieeeValue]; decide +kernel

theorem test_witness_ResetDuringRenderLeavesAPrefix : playing.formed = true ∧ playing.mode = .run ∧
    (0 : Word).toNat + (2 : Word).toNat * playing.cfg.channels.toNat ≤ playing.build.obufWords ∧
    (∃ t, exec (.render 2 0) playing = .next t) ∧
    (playing.resetInRender 2 0 1 0).memRead 0 = 0x3CEBC841 ∧ (playing.resetInRender 2 0 1 0).memRead 1 = 0 ∧
    playing.soundsAt 0 ∧ 1 < (2 : Word).toNat ∧ 1 ≤ playing.cfg.channels.toNat :=
  ⟨by decide +kernel, rfl, by decide +kernel, next_of_some (by decide +kernel), by decide +kernel, by decide +kernel,
    ⟨by decide, rfl⟩, by decide, by decide⟩

theorem test_witness_ResetIsSound : Build.default.wf = true := by decide

/-- The invariant, I2 with its premise and I4, of the playing machine with a word waiting; and its next step. -/
theorem test_witness_StepKeepsTheInvariant : (waiting playing 0x20000000_00000001_00000000).Sound ∧
    (waiting playing 0x20000000_00000001_00000000).phasesInRange ∧
    (waiting playing 0x20000000_00000001_00000000).incrementsOk ∧
    (waiting playing 0x20000000_00000001_00000000).stampsFresh ∧ playing.trigCtr.toNat + 1 < 2 ^ 64 ∧
    ∃ t, step (waiting playing 0x20000000_00000001_00000000) = .next t := by
  have hv : ∀ i, (waiting playing 0x20000000_00000001_00000000).voice i = if i = 0 then a440 else Voice.idle := by
    intro i; exact playing_voice i
  have ha : ∀ i, ((waiting playing 0x20000000_00000001_00000000).voice i).active = true → i = 0 := by
    intro i h
    rw [hv] at h
    split at h
    · assumption
    · exact absurd h (by decide)
  refine ⟨⟨by decide, fun _ => by decide, ?_, ?_, ?_, ?_, ?_, ?_⟩, ?_, ?_, ⟨?_, ?_⟩, by decide,
    next_of_some (by decide)⟩
  · intro _ i hi
    rw [hv, if_neg]
    · rfl
    · rintro rfl; exact absurd hi (by decide)
  · intro i j hij hi hj
    exact absurd ((ha i hi).trans (ha j hj).symm) hij
  · intro i hi
    rw [hv] at hi ⊢
    split at hi
    · exact absurd hi (by decide)
    · rw [if_neg ‹_›]; rfl
  · intro _; rfl
  · intro _ i hi
    rw [ha i hi]; rfl
  · intro _ r hr
    have hall : (waiting playing 0x20000000_00000001_00000000).rng.all (fun r => r != 0) = true := by decide
    exact bne_iff_ne.1 (List.all_eq_true.1 hall r hr)
  · intro i
    rw [hv]
    split <;> (show _ < _; decide)
  · intro i hi
    rw [ha i hi]; exact .inl (by decide +kernel)
  · intro i hi
    rw [ha i hi]; decide
  · intro i j hij hi hj
    exact absurd ((ha i hi).trans (ha j hj).symm) hij

theorem test_witness_RunsStaySound : Reachable Build.default (State.reset.hostStore 3 0x3F800000) :=
  .hostStored _ _ _ .reset

theorem test_witness_MemWriteReplacesOneCell : State.reset.obuf.wf = true ∧ (3 : Nat) ≠ 4 ∧ 0 < 4 ∧ 3 < 4 ∧ 19 / 4 ≠ 3 := by
  decide

theorem test_witness_OfferedCommandsWaitInOrder :
    (∃ t, (waiting State.reset 0x02050000_00000000_00000000).offer 1 = some t) ∧
      (waiting State.reset 0x02050000_00000000_00000000).queue ≠ [] ∧
      (∃ u, step (waiting State.reset 0x02050000_00000000_00000000) = .next u) ∧
      State.reset.queue.length < State.reset.build.queueDepth ∧
      State.reset.build.queueDepth ≤
        (State.queue { State.reset with queue := List.replicate 16 0x02050000_00000000_00000000 }).length :=
  ⟨⟨_, rfl⟩, by decide, next_of_some (by decide), by decide, by decide⟩

end Sys2Proof.Tests
end

/-! PROOFS. Hardware reset (`10_state.md` R36; `70_reset_and_hazards.md` R230): what it leaves in each piece of state,
and the table of R36. -/

namespace Sys2Proof.Machine

/-! ### The state after reset of a build -/

@[simp] theorem State.resetOf_voices (b : Build) :
    (State.resetOf b).voices = List.replicate b.maxVoices Voice.idle := rfl
@[simp] theorem State.resetOf_rng (b : Build) :
    (State.resetOf b).rng = (List.range b.maxVoices).map (fun i => BitVec.ofNat 32 (i + 1)) := rfl

/-- Every slot is Idle after reset; a slot that is not built reads as Idle too. -/
@[simp] theorem State.resetOf_voice (b : Build) (i : Nat) : (State.resetOf b).voice i = Voice.idle := by
  rcases Nat.lt_or_ge i b.maxVoices with built | unbuilt
  · simp [State.voice, List.getElem?_replicate_of_lt built]
  · exact State.voice_of_length_le _ (by simpa using unbuilt)

/-- R36: "rng[i] = i + 1", for the sources that are built. -/
theorem State.resetOf_rngOf (b : Build) {i : Nat} (built : i < b.maxVoices) :
    (State.resetOf b).rngOf i = BitVec.ofNat 32 (i + 1) := by
  simp [State.rngOf, List.getElem?_range built]

/-! ### Hardware reset: the state after reset of the same build, but for OBUF -/

@[simp] theorem State.hardwareReset_build (s : State) : s.hardwareReset.build = s.build := rfl
@[simp] theorem State.hardwareReset_voices (s : State) :
    s.hardwareReset.voices = (State.resetOf s.build).voices := rfl
@[simp] theorem State.hardwareReset_rng (s : State) : s.hardwareReset.rng = (State.resetOf s.build).rng := rfl
@[simp] theorem State.hardwareReset_cfg (s : State) : s.hardwareReset.cfg = ConfigRegs.reset := rfl
@[simp] theorem State.hardwareReset_mode (s : State) : s.hardwareReset.mode = .config := rfl
@[simp] theorem State.hardwareReset_err (s : State) : s.hardwareReset.err = false := rfl
@[simp] theorem State.hardwareReset_errcode (s : State) : s.hardwareReset.errcode = 0 := rfl
@[simp] theorem State.hardwareReset_trigCtr (s : State) : s.hardwareReset.trigCtr = 0 := rfl
@[simp] theorem State.hardwareReset_obuf (s : State) : s.hardwareReset.obuf = s.obuf := rfl
@[simp] theorem State.hardwareReset_queue (s : State) : s.hardwareReset.queue = [] := rfl

@[simp] theorem State.hardwareReset_voice (s : State) (i : Nat) : s.hardwareReset.voice i = Voice.idle :=
  State.resetOf_voice s.build i

theorem State.hardwareReset_rngOf (s : State) {i : Nat} (built : i < s.build.maxVoices) :
    s.hardwareReset.rngOf i = BitVec.ofNat 32 (i + 1) :=
  State.resetOf_rngOf s.build built

/-- The Idle reset state of a slot, field by field, as the table of R36 writes it. -/
theorem Voice.idle_eq_resetRow : Voice.idle =
    { active := false, note := -1, velocity := 0, frequency := 0, phase := 0, sampleRate := 0, trig := 0 } := rfl

/-! ### The table of R36 -/

/-- Settles O50: the rows of single registers are those of `ConfigRegs.reset` and of the lemmas above; the rows of the
two files hold slot by slot, for every number of built slots. -/
theorem resetValues : Obligations.ResetValues := by
  rintro s t rfl
  have voicesLength : s.hardwareReset.voices.length = s.build.maxVoices := by simp
  have rngLength : s.hardwareReset.rng.length = s.build.maxVoices := by simp
  exact ⟨s.hardwareReset_build, s.hardwareReset_mode, s.hardwareReset_err, s.hardwareReset_errcode,
    s.hardwareReset_trigCtr, rfl, rfl, rfl, rfl, rfl, rfl, rfl,
    voicesLength, fun i _ => (s.hardwareReset_voice i).trans Voice.idle_eq_resetRow,
    rngLength, fun _ built => s.hardwareReset_rngOf built,
    s.hardwareReset_obuf, s.hardwareReset_queue⟩

end Sys2Proof.Machine

/-! PROOFS. OBUF by cells and by bytes (`20_memory.md` R43, R47). -/

namespace Sys2Proof.Machine

/-! ### The two views of a cell -/

/-- R47: byte `k` of a cell is the cell's bits from `8k` on, whatever the memory lists. Each higher byte joined in front
is dropped by one append rule, and each lower byte is passed over by the other. -/
theorem Memory.readByte_eq_extractLsb'_readCell (m : Memory) (a : Nat) {k : Nat} (inCell : k < 4) :
    m.readByte (4 * a + k) = (m.readCell a).extractLsb' (8 * k) 8 := by
  unfold Memory.readCell
  match k, inCell with
  | 0, _ =>
    rw [BitVec.extractLsb'_append_eq_of_add_le (by decide)]
    exact BitVec.extractLsb'_eq_self.symm
  | 1, _ =>
    rw [BitVec.extractLsb'_append_eq_of_le (by decide), BitVec.extractLsb'_append_eq_of_add_le (by decide)]
    exact BitVec.extractLsb'_eq_self.symm
  | 2, _ =>
    rw [BitVec.extractLsb'_append_eq_of_le (by decide), BitVec.extractLsb'_append_eq_of_le (by decide),
      BitVec.extractLsb'_append_eq_of_add_le (by decide)]
    exact BitVec.extractLsb'_eq_self.symm
  | 3, _ =>
    rw [BitVec.extractLsb'_append_eq_of_le (by decide), BitVec.extractLsb'_append_eq_of_le (by decide),
      BitVec.extractLsb'_append_eq_of_le (by decide)]
    exact BitVec.extractLsb'_eq_self.symm

/-- The bytes of the cell written are those of the value. -/
theorem Memory.readByte_writeCell_same {m : Memory} (canonical : m.wf = true) (a : Nat) (v : Word) {k : Nat}
    (inCell : k < 4) : (m.writeCell a v).readByte (4 * a + k) = v.extractLsb' (8 * k) 8 := by
  rw [Memory.readByte_eq_extractLsb'_readCell _ a inCell, Memory.readCell_writeCell_same canonical]

/-! ### `MemRead` after `MemWrite` -/

theorem State.memRead_memWrite_same {s : State} (canonical : s.obuf.wf = true) (a : Nat) (v : F32) :
    (s.memWrite a v).memRead a = v :=
  Memory.readCell_writeCell_same canonical a v

theorem State.memRead_memWrite_other (s : State) {a a' : Nat} (v : F32) (other : a' ≠ a) :
    (s.memWrite a v).memRead a' = s.memRead a' :=
  Memory.readCell_writeCell_other s.obuf v other.symm

/-- Settles O58: read after write and frame by cells, then by bytes; OBUF stays canonical and is the only field written. -/
theorem memWriteReplacesOneCell : Obligations.MemWriteReplacesOneCell := by
  intro s a v canonical
  exact ⟨State.memRead_memWrite_same canonical a v,
    fun _ other => State.memRead_memWrite_other s v other,
    fun _ inCell => Memory.readByte_writeCell_same canonical a v inCell,
    fun _ outside => Memory.readByte_writeCell_other s.obuf v outside,
    Memory.wf_writeCell canonical a v, rfl⟩

end Sys2Proof.Machine

/-! PROOFS. The command words (`30_encoding.md` R61 to R64, R72): the fields put into a word are the fields read back, so
a command's word decodes to that command. -/

namespace Sys2Proof.Machine

/-! ### A word and its fields -/

/-- R61: the six fields of format C do not overlap. Bit `k` of a field is bit `offset + k` of the word, and the field's
offset says into which of the joined parts that bit falls. -/
@[simp] theorem fieldsOf_wordOf (f : Fields) : fieldsOf (wordOf f) = f := by
  obtain ⟨op, idx, sel, rsv, a, b⟩ := f
  rw [fieldsOf, wordOf, Fields.mk.injEq]
  refine ⟨?_, ?_, ?_, ?_, ?_, ?_⟩ <;>
  · ext k inField
    simp only [BitVec.getElem_extractLsb', BitVec.getLsbD_append]
    grind

theorem decode_wordOf (f : Fields) : decode (wordOf f) = decodeFields f := by
  rw [decode, fieldsOf_wordOf]

/-! ### A command and its word -/

/-- R62, R64: each command's opcode byte selects the command's own row, and the fields the command does not use are
zero. -/
@[simp] theorem decodeFields_fields (i : Instr) : decodeFields i.fields = .instr i := by
  cases i <;> simp [decodeFields, Instr.fields, acceptIf]

/-- Decoding the word of a command gives the command back, with every operand at every value. -/
@[simp] theorem decode_encode (i : Instr) : decode (encode i) = .instr i := by
  rw [encode, decode_wordOf, decodeFields_fields]

/-- A word known to be a command's encoding decodes to that command. -/
theorem decode_of_encode_eq {i : Instr} {w : CmdWord} (word : encode i = w) : decode w = .instr i :=
  word ▸ decode_encode i

/-! ### The worked encodings of R72 -/

/-- `NOTE_ON 69, 1.0`. -/
theorem encode_noteOn_69 : encode (.noteOn 69 0x3F800000) = 0x10000000_00000045_3F800000 := by decide

/-- `CFGW SAMPLE_RATE, 48000.0`. -/
theorem encode_cfgw_sampleRate_48000 : encode (.cfgw 0x06 0x473B8000) = 0x01060000_473B8000_00000000 := by decide

/-- `NOTE_OFF -1`: the i32 operand is taken whole, as its two's complement (R63). -/
theorem encode_noteOff_neg_one : encode (.noteOff (-1)) = 0x11000000_FFFFFFFF_00000000 := by decide

/-- `VRD 0, PHASE_HI`. -/
theorem encode_vrd_phaseHi : encode (.vrd 0 0x05) = 0x07000500_00000000_00000000 := by decide

/-- Settles O4: the four words are computed by the encoder, and each decodes by the round trip `decode_encode`. -/
theorem workedEncodings : Obligations.WorkedEncodings :=
  ⟨⟨decode_of_encode_eq encode_noteOn_69, encode_noteOn_69⟩,
    ⟨decode_of_encode_eq encode_cfgw_sampleRate_48000, encode_cfgw_sampleRate_48000⟩,
    ⟨decode_of_encode_eq encode_noteOff_neg_one, encode_noteOff_neg_one⟩,
    decode_of_encode_eq encode_vrd_phaseHi, encode_vrd_phaseHi⟩

end Sys2Proof.Machine

/-! PROOFS. Bit patterns by sign and magnitude (`40_numerics.md` R81): the sign, the number, the order and the class of
a pattern, which the statements read off its fields, are read off its sign and magnitude bits here, for both formats at
once. -/

namespace Sys2Proof.Machine

/-- The shape that binary32 and binary64 share (R81): the quantum is the least subnormal,
`2^(1 - bias - fraction bits)`, for the bias `2^(expBits - 1) - 1`. -/
structure Fmt.Ieee (f : Fmt) : Prop where
  prec_ge : 2 ≤ f.prec
  expBits_ge : 2 ≤ f.expBits
  quantum_eq : f.quantum + 2 = 2 ^ (f.expBits - 1) + (f.prec - 1)

theorem Fmt.Ieee.prec_pos {f : Fmt} (hf : f.Ieee) : 1 ≤ f.prec := Nat.le_of_succ_le hf.prec_ge

theorem fmt32_ieee : fmt32.Ieee := ⟨by decide, by decide, by decide⟩
theorem fmt64_ieee : fmt64.Ieee := ⟨by decide, by decide, by decide⟩

/-! ### The readings of a pattern, over the format -/

/-- `real32` and `real64`. -/
def Fmt.real (f : Fmt) (bits : Nat) : ℚ := ieeeValue f.expBits (f.prec - 1) bits
/-- `sign32` and `sign64`. -/
def Fmt.sign (f : Fmt) (bits : Nat) : Bool := ieeeSign f.expBits (f.prec - 1) bits
/-- `key32` and `key64`. -/
def Fmt.key (f : Fmt) (bits : Nat) : Int := ieeeKey f.expBits (f.prec - 1) bits
/-- `finite32` and `finite64`. -/
def Fmt.IsFinite (f : Fmt) (bits : Nat) : Prop := ieeeFinite f.expBits (f.prec - 1) bits
/-- `nanBits32` and `nanBits64`. -/
def Fmt.IsNaN (f : Fmt) (bits : Nat) : Prop := ieeeNaN f.expBits (f.prec - 1) bits

theorem real32_eq (x : F32) : real32 x = fmt32.real x.toNat := rfl
theorem real64_eq (x : F64) : real64 x = fmt64.real x.toNat := rfl
theorem sign32_eq (x : F32) : sign32 x = fmt32.sign x.toNat := rfl
theorem sign64_eq (x : F64) : sign64 x = fmt64.sign x.toNat := rfl
theorem key32_eq (x : F32) : key32 x = fmt32.key x.toNat := rfl
theorem key64_eq (x : F64) : key64 x = fmt64.key x.toNat := rfl
theorem finite32_eq (x : F32) : finite32 x = fmt32.IsFinite x.toNat := rfl
theorem finite64_eq (x : F64) : finite64 x = fmt64.IsFinite x.toNat := rfl
theorem nanBits32_eq (x : F32) : nanBits32 x = fmt32.IsNaN x.toNat := rfl
theorem nanBits64_eq (x : F64) : nanBits64 x = fmt64.IsNaN x.toNat := rfl

/-! ### Every word is a sign and magnitude bits -/

theorem Fmt.exists_pack {f : Fmt} {bits : Nat} (h : bits < 2 * f.signMag) :
    ∃ neg m, m < f.signMag ∧ bits = f.pack neg m :=
  ⟨_, _, Nat.mod_lt _ (Nat.two_pow_pos _), (Fmt.pack_of_bits h).symm⟩

theorem toNat_lt_signMag32 (x : F32) : x.toNat < 2 * fmt32.signMag := by
  have := x.isLt; rw [fmt32_signMag]; omega

theorem toNat_lt_signMag64 (x : F64) : x.toNat < 2 * fmt64.signMag := by
  have := x.isLt; rw [fmt64_signMag]; omega

theorem exists_pack32 (x : F32) : ∃ neg m, m < fmt32.signMag ∧ x.toNat = fmt32.pack neg m :=
  Fmt.exists_pack (toNat_lt_signMag32 x)

theorem exists_pack64 (x : F64) : ∃ neg m, m < fmt64.signMag ∧ x.toNat = fmt64.pack neg m :=
  Fmt.exists_pack (toNat_lt_signMag64 x)

/-- A pattern of the format keeps its bits in a word of the format. -/
theorem toNat_ofNat32 {bits : Nat} (h : bits < 2 * fmt32.signMag) : (BitVec.ofNat 32 bits).toNat = bits := by
  rw [fmt32_signMag] at h
  rw [BitVec.toNat_ofNat]; exact Nat.mod_eq_of_lt (by omega)

theorem toNat_ofNat64 {bits : Nat} (h : bits < 2 * fmt64.signMag) : (BitVec.ofNat 64 bits).toNat = bits := by
  rw [fmt64_signMag] at h
  rw [BitVec.toNat_ofNat]; exact Nat.mod_eq_of_lt (by omega)

/-! ### The readings of a sign and magnitude bits -/

/-- A number with a sign. -/
def signed (neg : Bool) (q : ℚ) : ℚ := if neg then -q else q

@[simp] theorem signed_true (q : ℚ) : signed true q = -q := rfl
@[simp] theorem signed_false (q : ℚ) : signed false q = q := rfl

@[simp] theorem abs_signed (neg : Bool) (q : ℚ) : |signed neg q| = |q| := by cases neg <;> simp

@[simp] theorem signed_eq_zero {neg : Bool} {q : ℚ} : signed neg q = 0 ↔ q = 0 := by cases neg <;> simp

/-- Numbers of one sign are as far apart as their magnitudes. -/
theorem signed_sub_signed (neg : Bool) (a b : ℚ) : signed neg a - signed neg b = signed neg (a - b) := by
  cases neg <;> simp [signed]; ring

section
variable {f : Fmt} {neg : Bool} {m : Nat}

theorem Fmt.sign_pack (h : m < f.signMag) : f.sign (f.pack neg m) = neg := by
  have width : f.expBits + (f.prec - 1) = f.prec - 1 + f.expBits := Nat.add_comm _ _
  have hpos : 0 < f.signMag := Nat.two_pow_pos _
  rw [Fmt.sign, ieeeSign, Nat.testBit_eq_decide_div_mod_eq, width]
  change decide (f.pack neg m / f.signMag % 2 = 1) = neg
  cases neg
  · simp [Fmt.pack, Nat.div_eq_of_lt h]
  · simp [Fmt.pack, Nat.add_div_left m hpos, Nat.div_eq_of_lt h]

theorem Fmt.key_pack (h : m < f.signMag) : f.key (f.pack neg m) = if neg then -(m : Int) else m := by
  have width : f.expBits + (f.prec - 1) = f.prec - 1 + f.expBits := Nat.add_comm _ _
  have mag : f.pack neg m % 2 ^ (f.prec - 1 + f.expBits) = m := Fmt.pack_mod h
  have sign : ieeeSign f.expBits (f.prec - 1) (f.pack neg m) = neg := Fmt.sign_pack h
  rw [Fmt.key, ieeeKey, sign, width, mag]

/-- The exponent field is above the fraction in the magnitude bits. -/
theorem Fmt.exponent_pack (h : m < f.signMag) :
    f.pack neg m / 2 ^ (f.prec - 1) % 2 ^ f.expBits = m / 2 ^ (f.prec - 1) := by
  rw [← Nat.mod_mul_right_div_self, ← Nat.pow_add]
  exact congrArg (· / 2 ^ (f.prec - 1)) (Fmt.pack_mod h)

theorem Fmt.fraction_pack (h : m < f.signMag) :
    f.pack neg m % 2 ^ (f.prec - 1) = m % 2 ^ (f.prec - 1) := by
  have below : 2 ^ (f.prec - 1) ∣ f.signMag := Nat.pow_dvd_pow 2 (Nat.le_add_right _ _)
  rw [← Nat.mod_mod_of_dvd _ below, Fmt.pack_mod h]

/-- Magnitude bits have an exponent field of at most all ones. -/
theorem Fmt.exponent_le (h : m < f.signMag) : m / 2 ^ (f.prec - 1) ≤ 2 ^ f.expBits - 1 := by
  rw [Fmt.signMag, Nat.pow_add] at h
  have := Nat.div_lt_of_lt_mul h
  omega

theorem Fmt.isFinite_pack (h : m < f.signMag) : f.IsFinite (f.pack neg m) ↔ m < f.infMag := by
  have := Fmt.exponent_le h
  rw [Fmt.IsFinite, ieeeFinite, Fmt.exponent_pack h, Fmt.infMag, ← Nat.div_lt_iff_lt_mul (Nat.two_pow_pos _)]
  omega

theorem Fmt.isNaN_pack (h : m < f.signMag) : f.IsNaN (f.pack neg m) ↔ f.infMag < m := by
  have le := Fmt.exponent_le h
  have ge : 2 ^ f.expBits - 1 ≤ m / 2 ^ (f.prec - 1) ↔ f.infMag ≤ m := Nat.le_div_iff_mul_le (Nat.two_pow_pos _)
  have parts := Nat.div_add_mod m (2 ^ (f.prec - 1))
  rw [Fmt.IsNaN, ieeeNaN, Fmt.exponent_pack h, Fmt.fraction_pack h]
  constructor
  · rintro ⟨top, fraction⟩
    rw [top, Nat.mul_comm] at parts
    change f.infMag + _ = m at parts
    omega
  · intro above
    have top : m / 2 ^ (f.prec - 1) = 2 ^ f.expBits - 1 := le_antisymm le (ge.2 above.le)
    rw [top, Nat.mul_comm] at parts
    change f.infMag + _ = m at parts
    exact ⟨top, by omega⟩

/-- The number of magnitude bits by their fields is their number of quanta. -/
theorem Fmt.real_pack (hf : f.Ieee) (h : m < f.signMag) :
    f.real (f.pack neg m) = signed neg ((f.quanta m : ℚ) / 2 ^ f.quantum) := by
  have sign : ieeeSign f.expBits (f.prec - 1) (f.pack neg m) = neg := Fmt.sign_pack h
  have magnitude : ieeeMagnitude f.expBits (f.prec - 1) (f.pack neg m) = (f.quanta m : ℚ) / 2 ^ f.quantum := by
    rw [ieeeMagnitude, Fmt.exponent_pack h, Fmt.fraction_pack h, Fmt.quanta]
    have quantum := hf.quantum_eq
    have bias_pos : 1 ≤ 2 ^ (f.expBits - 1) := Nat.one_le_two_pow
    generalize hB : 2 ^ (f.expBits - 1) - 1 = bias at *
    generalize hfb : f.prec - 1 = fb at *
    have scale : (2 : ℚ) ^ f.quantum * 2 = 2 ^ bias * 2 ^ fb := by
      rw [← pow_succ, ← pow_add]; congr 1; omega
    have scale' : (2 : ℚ) ^ f.quantum = 2 ^ bias * 2 ^ fb / 2 := by rw [← scale]; ring
    rw [scale']
    split_ifs with subnormal
    · have fraction : m % 2 ^ fb = m :=
        Nat.mod_eq_of_lt ((Nat.div_eq_zero_iff.1 subnormal).resolve_left (by positivity))
      rw [fraction, zpow_sub₀ (by norm_num), zpow_natCast]
      field_simp
    · obtain ⟨e, he⟩ := Nat.exists_eq_add_one_of_ne_zero subnormal
      rw [he, zpow_sub₀ (by norm_num), zpow_natCast, zpow_natCast, Nat.add_sub_cancel]
      push_cast
      field_simp
      ring
  rw [Fmt.real, ieeeValue, sign, magnitude, signed]

/-- What a sign and magnitude bits stand for. -/
theorem Fmt.unpack_pack_nan (h : m < f.signMag) (above : f.infMag < m) : f.unpack (f.pack neg m) = .nan := by
  rw [Fmt.unpack, Fmt.pack_mod h, if_pos above]

theorem Fmt.unpack_pack_inf : f.unpack (f.pack neg f.infMag) = .inf neg := by
  rw [Fmt.unpack_pack le_rfl, if_pos rfl]

theorem Fmt.unpack_pack_fin (h : m < f.infMag) : f.unpack (f.pack neg m) = .fin neg (f.quanta m) := by
  rw [Fmt.unpack_pack h.le, if_neg h.ne]

end

end Sys2Proof.Machine

/-! PROOFS. The one rounding function gives the nearest number of the format, ties to even (`40_numerics.md` R82 (a),
(b)). The magnitude bits before the cap at infinity are nearest among all magnitude bits; the cap and the sign come
after. -/

namespace Sys2Proof.Machine

/-! ### Rounding to an integer -/

/-- No integer is nearer to `n / d`, and one that is as near leaves the even one. The distances are taken times `d`. -/
theorem roundNearestEven_nearest {n d : Nat} (hd : 0 < d) (k : ℤ) :
    (roundNearestEven n d * d - n : ℤ).natAbs ≤ (k * d - n).natAbs ∧
      (k ≠ roundNearestEven n d → (roundNearestEven n d * d - n : ℤ).natAbs = (k * d - n).natAbs →
        roundNearestEven n d % 2 = 0) := by
  have parts : (n : ℤ) = n / d * d + n % d := by rw [mul_comm]; exact (Int.mul_ediv_add_emod _ _).symm
  have rem_lt : (n : ℤ) % d < d := Int.emod_lt_of_pos _ (by exact_mod_cast hd)
  have rem_nonneg : (0 : ℤ) ≤ n % d := Int.emod_nonneg _ (by exact_mod_cast hd.ne')
  have product : k < n / d ∧ k * d + d ≤ (n / d : ℤ) * d ∨ k = n / d ∧ k * d = (n / d : ℤ) * d ∨
      k = n / d + 1 ∧ k * d = (n / d : ℤ) * d + d ∨ (n / d : ℤ) + 1 < k ∧ (n / d : ℤ) * d + d + d ≤ k * d := by
    rcases lt_trichotomy k (n / d) with below | at_quotient | above
    · exact .inl ⟨below, by nlinarith⟩
    · exact .inr (.inl ⟨at_quotient, by rw [at_quotient]⟩)
    · rcases (Int.add_one_le_iff.2 above).eq_or_lt with next | beyond
      · exact .inr (.inr (.inl ⟨next.symm, by rw [← next]; ring⟩))
      · exact .inr (.inr (.inr ⟨beyond, by nlinarith⟩))
  unfold roundNearestEven
  split_ifs with up <;> push_cast [add_mul, one_mul] <;> omega

/-! ### The numbers of the format -/

section
variable {f : Fmt}

/-- The numbers of quanta rise strictly with the magnitude bits. -/
theorem Fmt.quanta_lt_iff (hp : 1 ≤ f.prec) {m n : Nat} : f.quanta m < f.quanta n ↔ m < n := by
  rw [← not_le, Fmt.quanta_le_iff hp, not_le]

/-- A significand `r`, the carry `2^prec` included, under the exponent shift `s`. -/
theorem Fmt.quanta_shifted (hp : 1 ≤ f.prec) {s r : Nat} (low : s ≠ 0 → 2 ^ (f.prec - 1) ≤ r) (high : r ≤ 2 ^ f.prec) :
    f.quanta (s * 2 ^ (f.prec - 1) + r) = r * 2 ^ s := by
  rw [pow_pred_mul_two hp] at high
  have hpos := Nat.two_pow_pos (f.prec - 1)
  unfold Fmt.quanta
  generalize 2 ^ (f.prec - 1) = b at *
  have field : (s * b + r) / b = s + r / b := by rw [Nat.add_comm, Nat.add_mul_div_right _ _ hpos, Nat.add_comm]
  have fraction : (s * b + r) % b = r % b := by rw [Nat.add_comm, Nat.add_mul_mod_self_right]
  rw [field, fraction]
  rcases Nat.lt_or_ge r b with small | big
  · obtain rfl : s = 0 := by by_contra h; exact absurd (low h) (Nat.not_le.2 small)
    simp [Nat.div_eq_of_lt small]
  · rw [if_neg (by have := Nat.div_pos big hpos; omega)]
    rcases high.lt_or_eq with normal | rfl
    · have one : r / b = 1 := by rw [Nat.div_eq_iff hpos]; omega
      have rest : r % b = r - b := by rw [Nat.mod_eq_sub_mod big, Nat.mod_eq_of_lt (by omega)]
      rw [one, rest, Nat.sub_add_cancel big, Nat.add_sub_cancel]
    · rw [Nat.mul_div_cancel _ hpos, Nat.mul_mod_left, Nat.zero_add, show s + 2 - 1 = s + 1 from rfl, Nat.pow_succ]
      ring

/-- Magnitude bits hold a multiple of `2^s` quanta or lie in a lower binade. -/
theorem Fmt.dvd_quanta_or_lt (hp : 1 ≤ f.prec) (s m : Nat) :
    2 ^ s ∣ f.quanta m ∨ s ≠ 0 ∧ f.quanta m < 2 ^ (f.prec - 1) * 2 ^ s := by
  rcases Nat.eq_zero_or_pos s with rfl | hs
  · simp
  have start : f.quanta (s * 2 ^ (f.prec - 1) + 2 ^ (f.prec - 1)) = 2 ^ (f.prec - 1) * 2 ^ s :=
    Fmt.quanta_shifted hp (fun _ => le_rfl) (Nat.pow_le_pow_right (by omega) (by omega))
  rw [← start]
  rcases Nat.lt_or_ge m (s * 2 ^ (f.prec - 1) + 2 ^ (f.prec - 1)) with h | h
  · right
    exact ⟨hs.ne', (Fmt.quanta_lt_iff hp).2 h⟩
  · left
    have field : s + 1 ≤ m / 2 ^ (f.prec - 1) :=
      (Nat.le_div_iff_mul_le (Nat.two_pow_pos _)).2 (by rw [Nat.add_mul]; omega)
    rw [Fmt.quanta, if_neg (by omega)]
    exact Dvd.dvd.mul_left (Nat.pow_dvd_pow 2 (by omega)) _

/-! ### The magnitude bits before the cap -/

/-- The rounded significand, in units of the shifted quantum. -/
def Fmt.significand (f : Fmt) (n d : Nat) : Nat := roundNearestEven n (d * 2 ^ f.shift (n / d))

theorem Fmt.rawMag_eq (n d : Nat) : f.rawMag n d = f.shift (n / d) * 2 ^ (f.prec - 1) + f.significand n d := rfl

theorem Fmt.quanta_rawMag (hp : 1 ≤ f.prec) {n d : Nat} (hd : 0 < d) :
    f.quanta (f.rawMag n d) = f.significand n d * 2 ^ f.shift (n / d) := by
  obtain ⟨low, high⟩ := Fmt.rawMag_bounds hp (n := n) hd
  rw [Fmt.rawMag_eq, Nat.add_mul] at low high
  rw [Fmt.rawMag_eq, Fmt.quanta_shifted hp]
  · intro h; have := low h; omega
  · rw [pow_pred_mul_two hp]; omega

/-- A shifted quotient is at least the least significand of its binade. -/
theorem Fmt.le_of_shift_ne_zero (hp : 1 ≤ f.prec) {n d : Nat} (h : f.shift (n / d) ≠ 0) :
    2 ^ (f.prec - 1) * 2 ^ f.shift (n / d) * d ≤ n := by
  have big : 2 ^ f.prec ≤ n / d := by
    by_contra hc; exact h (Fmt.shift_of_lt (Nat.not_le.1 hc))
  have := (Fmt.shift_bounds hp big).2.1
  rw [Nat.pow_add] at this
  exact (Nat.mul_le_mul_right d this).trans (Nat.div_mul_le_self n d)

/-- No magnitude bits hold a number nearer to `n / d` quanta than the rounded ones, and another number as near leaves
the even bits. The distances are taken times `d`. -/
theorem Fmt.rawMag_nearest (hp : 2 ≤ f.prec) {n d : Nat} (hd : 0 < d) (m : Nat) :
    (f.quanta (f.rawMag n d) * d - n : ℤ).natAbs ≤ (f.quanta m * d - n : ℤ).natAbs ∧
      (f.quanta m ≠ f.quanta (f.rawMag n d) →
        (f.quanta (f.rawMag n d) * d - n : ℤ).natAbs = (f.quanta m * d - n : ℤ).natAbs → f.rawMag n d % 2 = 0) := by
  have hp1 : 1 ≤ f.prec := by omega
  have even_of_significand : f.significand n d % 2 = 0 → f.rawMag n d % 2 = 0 := by
    have even : 2 ^ (f.prec - 1) % 2 = 0 := Nat.two_pow_mod_two_eq_zero.2 (by omega)
    intro h; rw [Fmt.rawMag_eq, Nat.add_mod, Nat.mul_mod, even, h]; simp
  have nearest := roundNearestEven_nearest (n := n) (d := d * 2 ^ f.shift (n / d)) (by positivity)
  rw [Fmt.quanta_rawMag hp1 hd]
  have binade := Fmt.le_of_shift_ne_zero (n := n) (d := d) hp1
  have grid := Fmt.dvd_quanta_or_lt hp1 (f.shift (n / d)) m
  unfold Fmt.significand at *
  generalize f.shift (n / d) = s at *
  generalize roundNearestEven n (d * 2 ^ s) = r at *
  have scale (k : Nat) : ((k * 2 ^ s : Nat) * d : ℤ) = (k : ℤ) * ((d * 2 ^ s : Nat) : ℤ) := by push_cast; ring
  rw [scale]
  rcases grid with ⟨k, hk⟩ | ⟨shifted, low⟩
  · obtain ⟨le, tie⟩ := nearest k
    rw [hk, Nat.mul_comm (2 ^ s), scale]
    refine ⟨le, fun ne eq => even_of_significand (tie ?_ eq)⟩
    rintro same
    exact ne (by rw [Nat.cast_inj.1 same])
  · obtain ⟨le, -⟩ := nearest (2 ^ (f.prec - 1) : Nat)
    have start := binade shifted
    have below : f.quanta m * d < 2 ^ (f.prec - 1) * 2 ^ s * d := Nat.mul_lt_mul_of_pos_right low hd
    have farther : (((2 ^ (f.prec - 1) : Nat) : ℤ) * ((d * 2 ^ s : Nat) : ℤ) - n).natAbs <
        (f.quanta m * d - n : ℤ).natAbs := by rw [← scale]; omega
    exact ⟨(le.trans_lt farther).le, fun _ eq => absurd eq (le.trans_lt farther).ne⟩

end

/-! ### The cap at infinity -/

section
variable {f : Fmt}

/-- Rounding reaches even magnitude bits from the midpoint below them on: there the tie goes to them. -/
theorem Fmt.succ_le_rawMag_iff (hp : 2 ≤ f.prec) {n d m : Nat} (hd : 0 < d) (even : (m + 1) % 2 = 0) :
    m + 1 ≤ f.rawMag n d ↔ (f.quanta m + f.quanta (m + 1)) * d ≤ 2 * n := by
  have hp1 : 1 ≤ f.prec := by omega
  have gap : f.quanta m * d < f.quanta (m + 1) * d :=
    Nat.mul_lt_mul_of_pos_right ((Fmt.quanta_lt_iff hp1).2 (Nat.lt_succ_self m)) hd
  obtain ⟨beats_low, -⟩ := Fmt.rawMag_nearest hp (n := n) hd m
  obtain ⟨beats_high, tie_high⟩ := Fmt.rawMag_nearest hp (n := n) hd (m + 1)
  rw [Nat.add_mul]
  constructor
  · intro reached
    have := Nat.mul_le_mul_right d ((Fmt.quanta_le_iff hp1).2 reached)
    omega
  · intro beyond
    by_contra short
    rcases (Nat.le_of_lt_succ (Nat.lt_of_not_le short)).eq_or_lt with same | lower
    · have odd : f.rawMag n d % 2 ≠ 0 := by omega
      rw [same] at odd beats_high tie_high
      have ne : f.quanta (m + 1) ≠ f.quanta m := by rintro eq; rw [eq] at gap; omega
      exact odd (tie_high ne (by omega))
    · have := Nat.mul_lt_mul_of_pos_right ((Fmt.quanta_lt_iff hp1).2 lower) hd
      omega

/-- The exponent bias, by which R81 names the formats: all ones of the exponent field is one more than twice it. -/
theorem Fmt.Ieee.exponents (hf : f.Ieee) :
    ∃ b, 1 ≤ b ∧ 2 ^ (f.expBits - 1) = b + 1 ∧ 2 ^ f.expBits = 2 * b + 2 ∧ f.quantum + 1 = b + (f.prec - 1) := by
  have width := hf.expBits_ge
  have quantum := hf.quantum_eq
  have : 2 ^ 1 ≤ 2 ^ (f.expBits - 1) := Nat.pow_le_pow_right (by omega) (by omega)
  have : 2 ^ f.expBits = 2 * 2 ^ (f.expBits - 1) := pow_pred_mul_two (by omega)
  exact ⟨2 ^ (f.expBits - 1) - 1, by omega, by omega, by omega, by omega⟩

/-- The magnitude bits of infinity, and those of the greatest finite number, as significand and shift. -/
theorem Fmt.Ieee.quanta_top (hf : f.Ieee) {b : Nat} (bias : 2 ^ f.expBits = 2 * b + 2) (hb : 1 ≤ b) :
    f.quanta f.infMag = 2 ^ (f.prec - 1 + 2 * b) ∧
      f.quanta (f.infMag - 1) = (2 ^ f.prec - 1) * 2 ^ (2 * b - 1) := by
  have hp := hf.prec_pos
  have carry := pow_pred_mul_two hp
  have hpos := Nat.two_pow_pos (f.prec - 1)
  have inf : f.infMag = 2 * b * 2 ^ (f.prec - 1) + 2 ^ (f.prec - 1) := by
    rw [Fmt.infMag, bias, show 2 * b + 2 - 1 = 2 * b + 1 from rfl, Nat.add_mul, Nat.one_mul]
  have greatest : f.infMag - 1 = (2 * b - 1) * 2 ^ (f.prec - 1) + (2 ^ f.prec - 1) := by
    obtain ⟨e, rfl⟩ : ∃ e, b = e + 1 := ⟨b - 1, by omega⟩
    rw [inf, carry, show 2 * (e + 1) - 1 = 2 * e + 1 by omega, show 2 * (e + 1) = 2 * e + 1 + 1 by omega,
      Nat.add_mul (2 * e + 1) 1]
    omega
  constructor
  · rw [inf, Fmt.quanta_shifted hp (fun _ => le_rfl) (by omega), Nat.pow_add]
  · rw [greatest, Fmt.quanta_shifted hp (fun _ => by omega) (by omega)]

/-- The overflow threshold of R82 (a) is the midpoint of the greatest finite number and infinity. -/
theorem Fmt.Ieee.overflow_threshold (hf : f.Ieee) :
    (2 - 1 / 2 ^ (f.prec - 1 + 1) : ℚ) * 2 ^ (2 ^ (f.expBits - 1) - 1) * (2 * 2 ^ f.quantum) =
      (f.quanta (f.infMag - 1) + f.quanta f.infMag : Nat) := by
  have hp := hf.prec_pos
  obtain ⟨b, hb, half, bias, quantum⟩ := hf.exponents
  obtain ⟨inf, greatest⟩ := hf.quanta_top bias hb
  obtain ⟨e, rfl⟩ : ∃ e, b = e + 1 := ⟨b - 1, by omega⟩
  rw [half, inf, greatest, show f.quantum = e + (f.prec - 1) by omega, pow_pred_mul_two hp,
    show 2 * (e + 1) - 1 = 2 * e + 1 by omega]
  have : 1 ≤ 2 * 2 ^ (f.prec - 1) := by have := Nat.two_pow_pos (f.prec - 1); omega
  push_cast [Nat.cast_sub this, Nat.add_sub_cancel]
  generalize f.prec - 1 = fb
  field_simp
  ring

/-- Rounding overflows from that midpoint on. -/
theorem Fmt.roundMag_eq_infMag_iff (hf : f.Ieee) {n d : Nat} (hd : 0 < d) :
    f.roundMag n d = f.infMag ↔
      (2 - 1 / 2 ^ (f.prec - 1 + 1) : ℚ) * 2 ^ (2 ^ (f.expBits - 1) - 1) ≤ n / d / 2 ^ f.quantum := by
  have hp := hf.prec_ge
  have hb := hf.expBits_ge
  have even : f.infMag % 2 = 0 := by
    rw [Fmt.infMag, Nat.mul_mod, Nat.two_pow_mod_two_eq_zero.2 (by omega), Nat.mul_zero, Nat.zero_mod]
  have pos : 0 < f.infMag := by
    have : 2 ^ 1 ≤ 2 ^ f.expBits := Nat.pow_le_pow_right (by omega) (by omega)
    exact Nat.mul_pos (by omega) (Nat.two_pow_pos _)
  have succ : f.infMag - 1 + 1 = f.infMag := by omega
  have reach := Fmt.succ_le_rawMag_iff hp (n := n) (m := f.infMag - 1) hd (by rwa [succ])
  rw [succ] at reach
  rw [Fmt.roundMag_eq, min_eq_left_iff, reach, ← Nat.cast_le (α := ℚ), Nat.cast_mul, ← hf.overflow_threshold, div_div,
    le_div_iff₀ (by positivity), mul_assoc _ (2 * _), mul_assoc 2, mul_left_comm _ 2, Nat.cast_mul, Nat.cast_two,
    mul_le_mul_iff_right₀ two_pos, mul_comm (2 ^ f.quantum)]

/-! ### Rounding by the field layout -/

/-- Numbers of opposite signs are as far apart as the sum of their magnitudes. -/
theorem abs_signed_sub_signed_of_ne {neg neg' : Bool} (opposite : neg' ≠ neg) {a b : ℚ} (ha : 0 ≤ a) (hb : 0 ≤ b) :
    |signed neg' a - signed neg b| = a + b := by
  rw [abs_eq (add_nonneg ha hb)]
  cases neg <;> cases neg' <;> simp at opposite ⊢
  right; ring

/-- Below the cap no magnitude bits hold a nearer number than the rounded ones. -/
theorem Fmt.roundMag_nearest (hp : 2 ≤ f.prec) {n d : Nat} (hd : 0 < d) (fits : f.roundMag n d < f.infMag) (m : Nat) :
    |(f.quanta (f.roundMag n d) / 2 ^ f.quantum : ℚ) - n / d / 2 ^ f.quantum| ≤
        |(f.quanta m / 2 ^ f.quantum : ℚ) - n / d / 2 ^ f.quantum| ∧
      (f.quanta m ≠ f.quanta (f.roundMag n d) →
        |(f.quanta (f.roundMag n d) / 2 ^ f.quantum : ℚ) - n / d / 2 ^ f.quantum| =
          |(f.quanta m / 2 ^ f.quantum : ℚ) - n / d / 2 ^ f.quantum| → f.roundMag n d % 2 = 0) := by
  have raw : f.roundMag n d = f.rawMag n d := by rw [Fmt.roundMag_eq] at *; omega
  have distance (q : Nat) : |(q / 2 ^ f.quantum : ℚ) - n / d / 2 ^ f.quantum| =
      (q * d - n : ℤ).natAbs / (d * 2 ^ f.quantum : ℚ) := by
    rw [Nat.cast_natAbs, Int.cast_abs, ← abs_of_pos (by positivity : (0 : ℚ) < d * 2 ^ f.quantum), ← abs_div]
    push_cast
    field_simp
  obtain ⟨le, tie⟩ := Fmt.rawMag_nearest hp (n := n) hd m
  rw [raw, distance, distance]
  have pos : (0 : ℚ) < d * 2 ^ f.quantum := by positivity
  refine ⟨div_le_div_of_nonneg_right (by exact_mod_cast le) pos.le, fun ne eq => tie ne ?_⟩
  exact_mod_cast (div_left_inj' pos.ne').1 eq

/-- The sign bit does not touch the lowest bit. -/
theorem Fmt.pack_mod_two (hp : 2 ≤ f.prec) (neg : Bool) (m : Nat) : f.pack neg m % 2 = m % 2 := by
  have even : f.signMag % 2 = 0 := Nat.two_pow_mod_two_eq_zero.2 (by omega)
  cases neg <;> simp [Fmt.pack, Nat.add_mod, even]

/-- Below the cap no finite pattern, of either sign, stands for a number nearer than the rounded pattern's: one of the
opposite sign is no nearer than zero. -/
theorem Fmt.roundTo_nearest (hf : f.Ieee) (neg neg' : Bool) {n d m : Nat} (hd : 0 < d) (fits : f.roundMag n d < f.infMag)
    (hm : m < f.signMag) :
    |f.real (f.roundTo neg n d) - signed neg (n / d / 2 ^ f.quantum)| ≤
        |f.real (f.pack neg' m) - signed neg (n / d / 2 ^ f.quantum)| ∧
      (f.real (f.pack neg' m) ≠ f.real (f.roundTo neg n d) →
        |f.real (f.roundTo neg n d) - signed neg (n / d / 2 ^ f.quantum)| =
          |f.real (f.pack neg' m) - signed neg (n / d / 2 ^ f.quantum)| → f.roundTo neg n d % 2 = 0) := by
  have nearest := Fmt.roundMag_nearest hf.prec_ge hd fits
  rw [Fmt.roundTo, Fmt.pack_mod_two hf.prec_ge, Fmt.real_pack hf (fits.trans Fmt.infMag_lt_signMag),
    Fmt.real_pack hf hm, signed_sub_signed, abs_signed]
  by_cases same : neg' = neg
  · obtain ⟨near, tie⟩ := nearest m
    rw [same, signed_sub_signed, abs_signed]
    exact ⟨near, fun ne => tie fun eq => ne (by rw [eq])⟩
  · obtain ⟨near, tie⟩ := nearest 0
    have z_nonneg : (0 : ℚ) ≤ n / d / 2 ^ f.quantum := by positivity
    have w_nonneg : (0 : ℚ) ≤ f.quanta m / 2 ^ f.quantum := by positivity
    rw [Fmt.quanta_zero, Nat.cast_zero, zero_div, zero_sub, abs_neg, abs_of_nonneg z_nonneg] at near tie
    rw [abs_signed_sub_signed_of_ne same w_nonneg z_nonneg]
    refine ⟨by linarith, fun ne eq => tie (fun zero => ne ?_) (by linarith)⟩
    have w_zero : (f.quanta m / 2 ^ f.quantum : ℚ) = 0 := by linarith
    rw [w_zero, ← zero, Nat.cast_zero, zero_div]
    simp [signed]

/-- The one rounding of R82 (a): a signed count `n / d` of quanta is rounded as the statements spell it out. -/
theorem Fmt.ieeeRounds_roundTo (hf : f.Ieee) (neg : Bool) {n d : Nat} (hd : 0 < d) :
    ieeeRounds f.expBits (f.prec - 1) (signed neg (n / d / 2 ^ f.quantum)) (f.roundTo neg n d) := by
  have le := Fmt.roundMag_le_infMag f n d
  have hm : f.roundMag n d < f.signMag := le.trans_lt Fmt.infMag_lt_signMag
  have z_nonneg : (0 : ℚ) ≤ n / d / 2 ^ f.quantum := by positivity
  have width : f.expBits + (f.prec - 1) = f.prec - 1 + f.expBits := Nat.add_comm _ _
  have bits : 2 ^ (1 + f.expBits + (f.prec - 1)) = 2 * f.signMag := by
    rw [Nat.add_assoc, width, Nat.add_comm, Nat.pow_succ, Nat.mul_comm]; rfl
  have sign : ieeeSign f.expBits (f.prec - 1) (f.roundTo neg n d) = neg := Fmt.sign_pack hm
  have reach := Fmt.roundMag_eq_infMag_iff hf (n := n) hd
  rw [ieeeRounds, bits, sign, abs_signed, abs_of_nonneg z_nonneg]
  refine ⟨Fmt.roundTo_lt neg n d, ?_, ?_, ?_⟩
  · cases neg <;> simp [z_nonneg]
  · cases neg <;> simp [z_nonneg]
  split_ifs with overflow
  · rw [width]
    exact (Fmt.pack_mod hm).trans (reach.2 overflow)
  · have fits : f.roundMag n d < f.infMag := lt_of_le_of_ne le (mt reach.1 overflow)
    refine ⟨(Fmt.isFinite_pack hm).2 fits, fun w hw _ => ?_⟩
    obtain ⟨neg', m, hm', rfl⟩ := Fmt.exists_pack hw
    exact Fmt.roundTo_nearest hf neg neg' hd fits hm'

end

end Sys2Proof.Machine

/-! PROOFS. Numbers that need no rounding (`40_numerics.md` R86, R88, R90): the numbers of a format are the significands
below `2^prec` times a power of two, and rounding keeps them. -/

namespace Sys2Proof.Machine

section
variable {f : Fmt}

/-- The numbers of quanta that a format holds. -/
theorem Fmt.exists_quanta_iff (hp : 1 ≤ f.prec) {q : Nat} :
    (∃ m, f.quanta m = q) ↔ ∃ a e, a < 2 ^ f.prec ∧ q = a * 2 ^ e := by
  have carry := pow_pred_mul_two hp
  have hpos := Nat.two_pow_pos (f.prec - 1)
  constructor
  · rintro ⟨m, rfl⟩
    unfold Fmt.quanta
    split_ifs with subnormal
    · have := (Nat.div_eq_zero_iff.1 subnormal).resolve_left hpos.ne'
      exact ⟨m, 0, by omega, by simp⟩
    · have := Nat.mod_lt m hpos
      exact ⟨_, _, by omega, rfl⟩
  · rintro ⟨a, e, ha, rfl⟩
    induction e generalizing a with
    | zero => exact ⟨a, by simpa using Fmt.quanta_shifted hp (s := 0) (absurd rfl) ha.le⟩
    | succ e ih =>
      rcases Nat.lt_or_ge a (2 ^ (f.prec - 1)) with small | normal
      · obtain ⟨m, hm⟩ := ih (2 * a) (by omega)
        exact ⟨m, by rw [hm, Nat.pow_succ]; ring⟩
      · exact ⟨_, Fmt.quanta_shifted hp (fun _ => normal) ha.le⟩

/-- A quotient that is a number of the format is not changed by rounding. -/
theorem Fmt.roundMag_of_eq (hp : 1 ≤ f.prec) {n d m : Nat} (hd : 0 < d) (hm : m ≤ f.infMag) (eq : n = f.quanta m * d) :
    f.roundMag n d = m :=
  le_antisymm (Fmt.roundMag_le_of_le_quanta hp hd eq.le) (Fmt.le_roundMag_of_quanta_le hp hd hm eq.ge)

theorem Fmt.quanta_eq_zero (hp : 1 ≤ f.prec) {m : Nat} : f.quanta m = 0 ↔ m = 0 := by
  have := Fmt.quanta_le_iff hp (m₁ := m) (m₂ := 0)
  rwa [Fmt.quanta_zero, Nat.le_zero, Nat.le_zero] at this

/-- The remainder of two numbers of the format is a number of the format: it is a multiple of the smaller of the two
shifts and below each of the two numbers. -/
theorem Fmt.exists_quanta_mod (hp : 1 ≤ f.prec) {m n : Nat} (hn : n ≠ 0) :
    ∃ k, k ≤ m ∧ k < n ∧ f.quanta k = f.quanta m % f.quanta n := by
  have divisor_pos : 0 < f.quanta n := Nat.pos_of_ne_zero (mt (Fmt.quanta_eq_zero hp).1 hn)
  have le := Nat.mod_le (f.quanta m) (f.quanta n)
  have lt := Nat.mod_lt (f.quanta m) divisor_pos
  obtain ⟨a, e, ha, hm⟩ := (Fmt.exists_quanta_iff hp).1 ⟨m, rfl⟩
  obtain ⟨b, g, hb, hn⟩ := (Fmt.exists_quanta_iff hp).1 ⟨n, rfl⟩
  obtain ⟨k, hk⟩ : ∃ k, f.quanta k = f.quanta m % f.quanta n := by
    rw [Fmt.exists_quanta_iff hp]
    have divides {s : Nat} (hs : s ≤ e) (hs' : s ≤ g) : 2 ^ s ∣ f.quanta m % f.quanta n :=
      (Nat.dvd_mod_iff (hn ▸ Dvd.dvd.mul_left (Nat.pow_dvd_pow 2 hs') b)).2
        (hm ▸ Dvd.dvd.mul_left (Nat.pow_dvd_pow 2 hs) a)
    rcases Nat.le_total e g with small | small
    · obtain ⟨c, hc⟩ := divides le_rfl small
      rw [hc, hm, Nat.mul_comm] at le
      exact ⟨c, e, (Nat.le_of_mul_le_mul_right le (Nat.two_pow_pos e)).trans_lt ha, by rw [hc, Nat.mul_comm]⟩
    · obtain ⟨c, hc⟩ := divides small le_rfl
      rw [hc, Nat.mul_comm, hn] at lt
      exact ⟨c, g, (Nat.lt_of_mul_lt_mul_right lt).trans hb, by rw [hc, Nat.mul_comm]⟩
  rw [← hk] at le lt
  exact ⟨k, (Fmt.quanta_le_iff hp).1 le, (Fmt.quanta_lt_iff hp).1 lt, hk⟩

end

end Sys2Proof.Machine

/-! PROOFS. The truncated remainder (`40_numerics.md` R86), in both formats. -/

namespace Sys2Proof.Machine

/-! ### Truncation toward zero -/

/-- The integer part of a quotient, rounded toward zero (R86). -/
def truncate (z : ℚ) : ℤ := if 0 ≤ z then ⌊z⌋ else ⌈z⌉

@[simp] theorem truncate_neg (z : ℚ) : truncate (-z) = -truncate z := by
  rcases lt_trichotomy z 0 with neg | rfl | pos
  · simp [truncate, neg.le, not_le.2 neg, Int.floor_neg]
  · simp [truncate]
  · simp [truncate, pos.le, not_le.2 pos, Int.ceil_neg]

theorem truncate_natCast_div (m n : Nat) : truncate (m / n) = (m / n : Nat) := by
  rw [truncate, if_pos (by positivity), Rat.floor_natCast_div_natCast, Int.natCast_div]

/-- The signs of dividend and divisor reach the remainder by that of the dividend only. -/
theorem signed_remainder (a b : Bool) (p q : ℚ) :
    signed a p - signed b q * truncate (signed a p / signed b q) = signed a (p - q * truncate (p / q)) := by
  cases a <;> cases b <;> simp [neg_div, div_neg]
  all_goals ring

/-- The remainder of two counts of quanta is what the truncated quotient leaves. -/
theorem sub_mul_truncate_div {n : Nat} (m : Nat) {c : ℚ} (hc : c ≠ 0) :
    (m / c - n / c * truncate (m / c / (n / c)) : ℚ) = (m % n : Nat) / c := by
  have parts : (m : ℚ) = n * (m / n : Nat) + (m % n : Nat) := by exact_mod_cast (Nat.div_add_mod m n).symm
  rw [div_div_div_cancel_right₀ hc, truncate_natCast_div, div_mul_eq_mul_div, ← sub_div, Int.cast_natCast]
  exact congrArg (· / c) (sub_eq_of_eq_add' parts)

/-! ### The remainder of two patterns -/

section
variable {f : Fmt} {x y : Nat}

theorem Fmt.canonicalNan_lt (hf : f.Ieee) : f.canonicalNan < 2 * f.signMag := by
  have := Fmt.infMag_lt_signMag (f := f)
  have : 2 ^ (f.prec - 2) ≤ f.signMag := Nat.pow_le_pow_right (by omega) (by have := hf.prec_ge; omega)
  rw [Fmt.canonicalNan]; omega

theorem Fmt.fmodBits_lt (hf : f.Ieee) (hx : x < 2 * f.signMag) : f.fmodBits x y < 2 * f.signMag := by
  have nan := Fmt.canonicalNan_lt hf
  unfold Fmt.fmodBits
  split
  · exact nan
  · exact nan
  · exact nan
  · exact hx
  · split
    · exact nan
    · exact Fmt.roundTo_lt _ _ _

/-- Finite operands, the divisor not zero: the result has the sign of `x` and the exact remainder. -/
theorem Fmt.fmodBits_pack (hf : f.Ieee) {a b : Bool} {m n : Nat} (hm : m < f.infMag) (hn : n < f.infMag) (hn0 : n ≠ 0) :
    ∃ k, k ≤ m ∧ k < n ∧ f.quanta k = f.quanta m % f.quanta n ∧
      f.fmodBits (f.pack a m) (f.pack b n) = f.pack a k := by
  have hp := hf.prec_pos
  obtain ⟨k, le, lt, hk⟩ := Fmt.exists_quanta_mod hp (m := m) hn0
  refine ⟨k, le, lt, hk, ?_⟩
  rw [Fmt.fmodBits, Fmt.unpack_pack_fin hm, Fmt.unpack_pack_fin hn]
  simp only [Fmt.quanta_eq_zero hp, hn0, if_false, Fmt.roundTo, ← hk, Fmt.roundMag_quanta hp (le.trans hm.le)]

/-- R86, the defined case. -/
theorem Fmt.remainder_exact (hf : f.Ieee) (hx : x < 2 * f.signMag) (hy : y < 2 * f.signMag) (fx : f.IsFinite x)
    (fy : f.IsFinite y) (nonzero : f.real y ≠ 0) :
    f.IsFinite (f.fmodBits x y) ∧ f.sign (f.fmodBits x y) = f.sign x ∧ |f.real (f.fmodBits x y)| < |f.real y| ∧
      f.real (f.fmodBits x y) = f.real x - f.real y * truncate (f.real x / f.real y) := by
  have hp := hf.prec_pos
  obtain ⟨a, m, hm, rfl⟩ := Fmt.exists_pack hx
  obtain ⟨b, n, hn, rfl⟩ := Fmt.exists_pack hy
  rw [Fmt.isFinite_pack hm] at fx
  rw [Fmt.isFinite_pack hn] at fy
  have scale : (2 : ℚ) ^ f.quantum ≠ 0 := by positivity
  have hn0 : n ≠ 0 := by rintro rfl; rw [Fmt.real_pack hf hn] at nonzero; simp at nonzero
  obtain ⟨k, le, lt, hk, result⟩ := Fmt.fmodBits_pack hf (a := a) (b := b) fx fy hn0
  have hk' : k < f.signMag := le.trans_lt hm
  rw [result, Fmt.real_pack hf hk', Fmt.real_pack hf hm, Fmt.real_pack hf hn, Fmt.sign_pack hk', Fmt.sign_pack hm,
    Fmt.isFinite_pack hk', abs_signed, abs_signed, signed_remainder, sub_mul_truncate_div _ scale, ← hk]
  refine ⟨le.trans_lt fx, rfl, ?_, rfl⟩
  have smaller : f.quanta k < f.quanta n := (Fmt.quanta_lt_iff hp).2 lt
  rw [abs_of_nonneg (by positivity), abs_of_nonneg (by positivity)]
  exact div_lt_div_of_pos_right (by exact_mod_cast smaller) (by positivity)

/-- R86: "`fmod(x, ±∞) = x` for finite `x`". -/
theorem Fmt.fmodBits_of_infinite (hx : x < 2 * f.signMag) (hy : y < 2 * f.signMag) (fx : f.IsFinite x)
    (fy : ¬ f.IsFinite y) (ny : ¬ f.IsNaN y) : f.fmodBits x y = x := by
  obtain ⟨a, m, hm, rfl⟩ := Fmt.exists_pack hx
  obtain ⟨b, n, hn, rfl⟩ := Fmt.exists_pack hy
  rw [Fmt.isFinite_pack hm] at fx
  rw [Fmt.isFinite_pack hn] at fy
  rw [Fmt.isNaN_pack hn] at ny
  obtain rfl : n = f.infMag := by omega
  rw [Fmt.fmodBits, Fmt.unpack_pack_fin fx, Fmt.unpack_pack_inf]

/-- R86: "`fmod(±∞, y)`, `fmod(x, ±0.0)` and any NaN operand give NaN". -/
theorem Fmt.fmodBits_invalid (hf : f.Ieee) (hx : x < 2 * f.signMag) (hy : y < 2 * f.signMag)
    (invalid : ¬ f.IsFinite x ∨ f.IsNaN y ∨ f.IsFinite y ∧ f.real y = 0) : f.fmodBits x y = f.canonicalNan := by
  have hp := hf.prec_pos
  obtain ⟨a, m, hm, rfl⟩ := Fmt.exists_pack hx
  obtain ⟨b, n, hn, rfl⟩ := Fmt.exists_pack hy
  rw [Fmt.isFinite_pack hm, Fmt.isFinite_pack hn, Fmt.isNaN_pack hn, Fmt.real_pack hf hn] at invalid
  rw [Fmt.fmodBits]
  rcases lt_trichotomy m f.infMag with finite | rfl | nan
  · rw [Fmt.unpack_pack_fin finite]
    rcases invalid with infinite | nan | ⟨finite', zero⟩
    · exact absurd finite infinite
    · rw [Fmt.unpack_pack_nan hn nan]
    · rw [Fmt.unpack_pack_fin finite']
      have zero' : f.quanta n = 0 := by simpa using zero
      simp only [zero', if_true]
  · rw [Fmt.unpack_pack_inf]
  · rw [Fmt.unpack_pack_nan hm nan]

end

theorem toNat_fmod32 (x y : F32) : (fmod32 x y).toNat = fmt32.fmodBits x.toNat y.toNat :=
  toNat_ofNat32 (Fmt.fmodBits_lt fmt32_ieee (toNat_lt_signMag32 x))

theorem toNat_fmod64 (x y : F64) : (fmod64 x y).toNat = fmt64.fmodBits x.toNat y.toNat :=
  toNat_ofNat64 (Fmt.fmodBits_lt fmt64_ieee (toNat_lt_signMag64 x))

/-- Settles O35: the three cases of the remainder of two patterns, at each format. -/
theorem remainderIsExact : Obligations.RemainderIsExact := by
  refine ⟨fun x y => ⟨fun fx fy nonzero => ?_, fun fx fy ny => ?_, fun invalid => ?_⟩,
    fun x y => ⟨fun fx fy nonzero => ?_, fun fx fy ny => ?_, fun invalid => ?_⟩⟩
  · rw [finite32_eq, sign32_eq, real32_eq, toNat_fmod32]
    exact Fmt.remainder_exact fmt32_ieee (toNat_lt_signMag32 x) (toNat_lt_signMag32 y) fx fy nonzero
  · refine BitVec.eq_of_toNat_eq ((toNat_fmod32 x y).trans ?_)
    exact Fmt.fmodBits_of_infinite (toNat_lt_signMag32 x) (toNat_lt_signMag32 y) fx fy ny
  · refine BitVec.eq_of_toNat_eq ((toNat_fmod32 x y).trans ?_)
    exact Fmt.fmodBits_invalid fmt32_ieee (toNat_lt_signMag32 x) (toNat_lt_signMag32 y) invalid
  · rw [finite64_eq, sign64_eq, real64_eq, toNat_fmod64]
    exact Fmt.remainder_exact fmt64_ieee (toNat_lt_signMag64 x) (toNat_lt_signMag64 y) fx fy nonzero
  · refine BitVec.eq_of_toNat_eq ((toNat_fmod64 x y).trans ?_)
    exact Fmt.fmodBits_of_infinite (toNat_lt_signMag64 x) (toNat_lt_signMag64 y) fx fy ny
  · refine BitVec.eq_of_toNat_eq ((toNat_fmod64 x y).trans ?_)
    exact Fmt.fmodBits_invalid fmt64_ieee (toNat_lt_signMag64 x) (toNat_lt_signMag64 y) invalid

end Sys2Proof.Machine

/-! PROOFS. The sign bit and the order (`40_numerics.md` R87, R91, R92). -/

namespace Sys2Proof.Machine

/-! ### Sign operations (R87) -/

section
variable {f : Fmt} {neg : Bool} {m : Nat}

theorem Fmt.absBits_pack (h : m ≤ f.infMag) : f.absBits (f.pack neg m) = m := by
  have mag : f.pack neg m % f.signMag = m := Fmt.pack_mod (h.trans_lt Fmt.infMag_lt_signMag)
  rw [Fmt.absBits, Fmt.unpack_pack h, mag]
  split_ifs <;> rfl

theorem Fmt.negBits_pack (h : m ≤ f.infMag) : f.negBits (f.pack neg m) = f.pack (!neg) m := by
  have hm : m < f.signMag := h.trans_lt Fmt.infMag_lt_signMag
  have sign : decide (f.pack neg m < f.signMag) = !neg := by cases neg <;> simp [Fmt.pack, hm]
  rw [Fmt.negBits, Fmt.unpack_pack h, Fmt.pack_mod hm, sign]
  split_ifs <;> rfl

/-- Inverting the sign bit keeps the magnitude bits. -/
theorem Fmt.pack_xor_signMag (h : m < f.signMag) : f.pack neg m ^^^ f.signMag = f.pack (!neg) m := by
  have top : f.pack neg m / f.signMag = neg.toNat := by
    have hpos : 0 < f.signMag := Nat.two_pow_pos _
    cases neg <;> simp [Fmt.pack, Nat.div_eq_of_lt h, Nat.add_div_left m hpos]
  have high : (f.pack neg m ^^^ f.signMag) / f.signMag = (!neg).toNat := by
    have := Nat.xor_div_two_pow (a := f.pack neg m) (b := f.signMag) (n := f.prec - 1 + f.expBits)
    change _ / f.signMag = f.pack neg m / f.signMag ^^^ f.signMag / f.signMag at this
    rw [this, top, Nat.div_self (show 0 < f.signMag from Nat.two_pow_pos _)]
    cases neg <;> rfl
  have low : (f.pack neg m ^^^ f.signMag) % f.signMag = m := by
    have := Nat.xor_mod_two_pow (a := f.pack neg m) (b := f.signMag) (n := f.prec - 1 + f.expBits)
    change _ % f.signMag = f.pack neg m % f.signMag ^^^ f.signMag % f.signMag at this
    rw [this, Fmt.pack_mod h, Nat.mod_self, Nat.xor_zero]
  rw [← Nat.div_add_mod (f.pack neg m ^^^ f.signMag) f.signMag, high, low]
  cases neg <;> simp [Fmt.pack]

end

/-- Settles O36: by sign and magnitude bits, below or at infinity and above it. -/
theorem absAndNegActOnTheSignBit : Obligations.AbsAndNegActOnTheSignBit := by
  intro x
  obtain ⟨neg, m, hm, hx⟩ := exists_pack32 x
  rw [nanBits32_eq, hx, Fmt.isNaN_pack hm]
  constructor
  · intro number
    have le := Nat.not_lt.1 number
    constructor
    · have mask : (x &&& 0x7FFFFFFF#32).toNat = m := by
        rw [BitVec.toNat_and, hx]
        change _ &&& 2 ^ 31 - 1 = m
        rw [Nat.and_two_pow_sub_one_eq_mod]
        exact Fmt.pack_mod hm
      refine BitVec.eq_of_toNat_eq (Eq.trans ?_ mask.symm)
      rw [abs32, hx, Fmt.absBits_pack le, toNat_ofNat32 (by omega)]
    · have flip : (x ^^^ 0x80000000#32).toNat = fmt32.pack (!neg) m := by
        rw [BitVec.toNat_xor, hx]
        exact Fmt.pack_xor_signMag hm
      refine BitVec.eq_of_toNat_eq (Eq.trans ?_ flip.symm)
      rw [neg32, hx, Fmt.negBits_pack le, toNat_ofNat32 (Fmt.pack_lt hm)]
  · intro nan
    have val := Fmt.unpack_pack_nan (neg := neg) hm nan
    rw [abs32, neg32, hx, Fmt.absBits, Fmt.negBits, val]
    exact ⟨rfl, rfl⟩

/-! ### The comparison with zero (R91) -/

/-- The magnitude bits of a positive pattern are the pattern, and those of a negative one lie above every positive. -/
theorem Fmt.pack_le_infMag_iff {f : Fmt} {neg : Bool} {m : Nat} :
    f.pack neg m ≤ f.infMag ↔ neg = false ∧ m ≤ f.infMag := by
  have := Fmt.infMag_lt_signMag (f := f)
  cases neg <;> simp [Fmt.pack]; omega

theorem Fmt.pack_eq_signMag_iff {f : Fmt} {neg : Bool} {m : Nat} (h : m < f.signMag) :
    f.pack neg m = f.signMag ↔ neg = true ∧ m = 0 := by
  cases neg <;> simp [Fmt.pack]; omega

/-- Settles O40: by the class of the magnitude bits. -/
theorem atLeastZeroComparison : Obligations.AtLeastZeroComparison := by
  intro x
  obtain ⟨neg, m, hm, hx⟩ := exists_pack32 x
  have positive : x.toNat ≤ 0x7F800000 ↔ neg = false ∧ m ≤ fmt32.infMag := by
    rw [hx]; exact Fmt.pack_le_infMag_iff
  have negZero : x = 0x80000000 ↔ neg = true ∧ m = 0 := by
    rw [← BitVec.toNat_inj, hx]; exact Fmt.pack_eq_signMag_iff hm
  have infMag := fmt32_infMag
  rw [positive, negZero, ge0_32, val32, hx]
  rcases lt_trichotomy m fmt32.infMag with finite | rfl | nan
  · rw [Fmt.unpack_pack_fin finite]
    cases neg <;> simp [Fmt.quanta_eq_zero fmt32_prec_pos]; omega
  · rw [Fmt.unpack_pack_inf]
    cases neg <;> simp
  · rw [Fmt.unpack_pack_nan hm nan]
    simp only [Bool.false_eq_true, false_iff]
    omega

/-! ### The order (R91, R92) -/

/-- On patterns that are not NaN `lt32` is the order of the keys. -/
theorem lt32_iff_key {x y : F32} (hx : ¬ nanBits32 x) (hy : ¬ nanBits32 y) :
    lt32 x y = true ↔ key32 x < key32 y := by
  obtain ⟨a, m, hm, ex⟩ := exists_pack32 x
  obtain ⟨b, n, hn, ey⟩ := exists_pack32 y
  rw [nanBits32_eq, ex, Fmt.isNaN_pack hm, not_lt] at hx
  rw [nanBits32_eq, ey, Fmt.isNaN_pack hn, not_lt] at hy
  have infMag := fmt32_infMag
  have order (i j : Nat) : fmt32.quanta i < fmt32.quanta j ↔ i < j := Fmt.quanta_lt_iff fmt32_prec_pos
  have zero (i : Nat) : fmt32.quanta i = 0 ↔ i = 0 := Fmt.quanta_eq_zero fmt32_prec_pos
  rw [key32_eq, key32_eq, ex, ey, Fmt.key_pack hm, Fmt.key_pack hn, lt32, val32, val32, ex, ey]
  rcases hx.lt_or_eq with finite | rfl <;> rcases hy.lt_or_eq with finite' | rfl
  · rw [Fmt.unpack_pack_fin finite, Fmt.unpack_pack_fin finite']
    have sum : 0 < fmt32.quanta m + fmt32.quanta n ↔ 0 < m + n := by
      rw [Nat.pos_iff_ne_zero, Nat.pos_iff_ne_zero, Ne, Ne, Nat.add_eq_zero_iff, Nat.add_eq_zero_iff, zero, zero]
    cases a <;> cases b <;> simp [order, sum]
    all_goals omega
  · rw [Fmt.unpack_pack_fin finite, Fmt.unpack_pack_inf]
    cases a <;> cases b <;> simp <;> omega
  · rw [Fmt.unpack_pack_inf, Fmt.unpack_pack_fin finite']
    cases a <;> cases b <;> simp <;> omega
  · rw [Fmt.unpack_pack_inf, Fmt.unpack_pack_inf]
    cases a <;> cases b <;> simp

/-- Settles O41: the two comparisons of R92 are those of the keys, where x is not a NaN. -/
theorem clampToUnitInterval : Obligations.ClampToUnitInterval := by
  intro x
  have zero : ¬ nanBits32 0 ∧ key32 0 = 0 := by unfold nanBits32 ieeeNaN; decide
  have one : ¬ nanBits32 0x3F800000 := by unfold nanBits32 ieeeNaN; decide
  have below (number : ¬ nanBits32 x) : lt32 x 0 = true ↔ key32 x < 0 := by
    rw [lt32_iff_key number zero.1, zero.2]
  have above (number : ¬ nanBits32 x) : lt32 one32 x = true ↔ key32 0x3F800000 < key32 x :=
    lt32_iff_key one number
  have one_pos : 0 < key32 0x3F800000 := by decide
  rw [clamp01_32]
  refine ⟨fun nan => ?_, fun number low => ?_, fun number high => ?_, fun number low high => ?_⟩
  · rw [if_pos (nanBits32_iff.1 nan)]; rfl
  · rw [if_neg (mt nanBits32_iff.2 number), if_pos ((below number).2 low)]
  · rw [if_neg (mt nanBits32_iff.2 number), if_neg (mt (below number).1 (by omega)), if_pos ((above number).2 high)]
    rfl
  · rw [if_neg (mt nanBits32_iff.2 number), if_neg (mt (below number).1 (by omega)),
      if_neg (mt (above number).1 (by omega))]

end Sys2Proof.Machine

/-! PROOFS. Conversions (`40_numerics.md` R88 to R90). -/

namespace Sys2Proof.Machine

/-! ### Between the formats -/

theorem Fmt.pack_false {f : Fmt} {m : Nat} : f.pack false m = m := rfl

/-- The magnitude bits that `convertBits` gives for magnitude bits that are not a NaN's. -/
def Fmt.convertMag (f g : Fmt) (m : Nat) : Nat :=
  if m = f.infMag then g.infMag else g.roundMag (f.quanta m * 2 ^ g.quantum) (2 ^ f.quantum)

section
variable {f g : Fmt} {neg : Bool} {m n : Nat}

theorem Fmt.convertMag_le_infMag : f.convertMag g m ≤ g.infMag := by
  unfold Fmt.convertMag
  split_ifs
  · exact le_rfl
  · exact Fmt.roundMag_le_infMag _ _ _

theorem Fmt.convertMag_lt_signMag : f.convertMag g m < g.signMag :=
  Fmt.convertMag_le_infMag.trans_lt Fmt.infMag_lt_signMag

/-- A conversion keeps the sign and converts the magnitude bits. -/
theorem Fmt.convertBits_pack (h : m ≤ f.infMag) : f.convertBits g (f.pack neg m) = g.pack neg (f.convertMag g m) := by
  rw [Fmt.convertBits, Fmt.unpack_pack h, Fmt.convertMag]
  split_ifs <;> rfl

theorem Fmt.convertBits_pack_nan (h : m < f.signMag) (nan : f.infMag < m) :
    f.convertBits g (f.pack neg m) = g.canonicalNan := by
  rw [Fmt.convertBits, Fmt.unpack_pack_nan h nan]

/-- A finite pattern is converted by rounding its value. -/
theorem Fmt.ieeeRounds_convertBits (hf : f.Ieee) (hg : g.Ieee) (h : m < f.infMag) :
    ieeeRounds g.expBits (g.prec - 1) (f.real (f.pack neg m)) (f.convertBits g (f.pack neg m)) := by
  have rounds := Fmt.ieeeRounds_roundTo hg neg (n := f.quanta m * 2 ^ g.quantum) (Nat.two_pow_pos f.quantum)
  have value : ((f.quanta m * 2 ^ g.quantum : Nat) / (2 ^ f.quantum : Nat) / 2 ^ g.quantum : ℚ) =
      f.quanta m / 2 ^ f.quantum := by
    push_cast
    field_simp
  rw [value, ← Fmt.real_pack hf (h.trans Fmt.infMag_lt_signMag)] at rounds
  rwa [Fmt.convertBits, Fmt.unpack_pack_fin h]

/-- R89: "`narrow` is monotone", on magnitude bits. -/
theorem Fmt.convertMag_mono (hf : 1 ≤ f.prec) (hg : 1 ≤ g.prec) (le : m ≤ n) (hn : n ≤ f.infMag) :
    f.convertMag g m ≤ f.convertMag g n := by
  rcases hn.eq_or_lt with rfl | finite
  · rw [Fmt.convertMag.eq_def f g f.infMag, if_pos rfl]
    exact Fmt.convertMag_le_infMag
  · rw [Fmt.convertMag, Fmt.convertMag, if_neg (by omega), if_neg finite.ne]
    refine Fmt.roundMag_mono hg (Nat.two_pow_pos _) (Nat.two_pow_pos _) ?_
    exact Nat.mul_le_mul_right _ (Nat.mul_le_mul_right _ ((Fmt.quanta_le_iff hf).2 le))

theorem Fmt.convertMag_zero (hg : 1 ≤ g.prec) (h : 0 < f.infMag) : f.convertMag g 0 = 0 := by
  rw [Fmt.convertMag, if_neg h.ne, Fmt.quanta_zero, Nat.zero_mul]
  exact Fmt.roundMag_of_eq hg (Nat.two_pow_pos _) (Nat.zero_le _) (by rw [Fmt.quanta_zero, Nat.zero_mul])

/-- A conversion keeps the order, from minus infinity to plus infinity. -/
theorem Fmt.key_convertBits_mono {a b : Bool} (hf : 1 ≤ f.prec) (hg : 1 ≤ g.prec) (hm : m ≤ f.infMag)
    (hn : n ≤ f.infMag) (pos : 0 < f.infMag) (le : f.key (f.pack a m) ≤ f.key (f.pack b n)) :
    g.key (f.convertBits g (f.pack a m)) ≤ g.key (f.convertBits g (f.pack b n)) := by
  have zero := Fmt.convertMag_zero (f := f) hg pos
  rw [Fmt.key_pack (hm.trans_lt Fmt.infMag_lt_signMag), Fmt.key_pack (hn.trans_lt Fmt.infMag_lt_signMag)] at le
  rw [Fmt.convertBits_pack hm, Fmt.convertBits_pack hn, Fmt.key_pack Fmt.convertMag_lt_signMag,
    Fmt.key_pack Fmt.convertMag_lt_signMag]
  cases a <;> cases b <;> simp only [Bool.false_eq_true, if_false, if_true] at le ⊢
  · have := Fmt.convertMag_mono hf hg (by omega : m ≤ n) hn
    omega
  · obtain rfl : m = 0 := by omega
    obtain rfl : n = 0 := by omega
    omega
  · omega
  · have := Fmt.convertMag_mono hf hg (by omega : n ≤ m) hm
    omega

end

/-! ### Widening (R88) -/

/-- Every finite f32 is an f64: its significand is below `2^53`, and its exponent lies within the range of f64.
The distance `c` of the two quanta's exponents stays a variable, so that no power of two is evaluated. -/
theorem exists_quanta64_of_finite32 {m : Nat} (finite : m < fmt32.infMag) :
    ∃ k, k < fmt64.infMag ∧ fmt32.quanta m * 2 ^ fmt64.quantum = fmt64.quanta k * 2 ^ fmt32.quantum := by
  obtain ⟨c, hc⟩ : ∃ c, c = 925 := ⟨_, rfl⟩
  have quantum : fmt64.quantum = c + fmt32.quantum := by rw [hc]; rfl
  obtain ⟨a, e, ha, hm⟩ := (Fmt.exists_quanta_iff fmt32_prec_pos).1 ⟨m, rfl⟩
  obtain ⟨k, hk⟩ := (Fmt.exists_quanta_iff fmt64_prec_pos).2
    ⟨a, e + c, ha.trans_le (Nat.pow_le_pow_right (by omega) (by decide)), rfl⟩
  have wide : fmt64.quanta k = fmt32.quanta m * 2 ^ c := by rw [hk, hm, Nat.pow_add, Nat.mul_assoc]
  refine ⟨k, Nat.lt_of_not_le fun beyond => ?_, by rw [wide, quantum, Nat.pow_add, Nat.mul_assoc]⟩
  have top32 := (fmt32_ieee.quanta_top (b := 127) (by decide) (by decide)).1
  have top64 := (fmt64_ieee.quanta_top (b := 1023) (by decide) (by decide)).1
  have above := (Fmt.quanta_le_iff fmt64_prec_pos).2 beyond
  have below := (Fmt.quanta_le_iff fmt32_prec_pos).2 finite.le
  rw [wide, top64] at above
  rw [top32] at below
  have le := le_trans above (Nat.mul_le_mul_right (2 ^ c) below)
  rw [← Nat.pow_add, Nat.pow_le_pow_iff_right (by decide), hc] at le
  exact absurd le (by decide)

theorem toNat_widen {x : F32} {neg : Bool} {m : Nat} (hx : x.toNat = fmt32.pack neg m) (h : m ≤ fmt32.infMag) :
    (widen x).toNat = fmt64.pack neg (fmt32.convertMag fmt64 m) := by
  rw [widen, hx, Fmt.convertBits_pack h]
  exact toNat_ofNat64 (Fmt.pack_lt Fmt.convertMag_lt_signMag)

/-- Settles O37: a finite pattern widens without rounding; the others are the two infinities and the NaNs. -/
theorem widenIsExact : Obligations.WidenIsExact := by
  intro x
  obtain ⟨neg, m, hm, hx⟩ := exists_pack32 x
  rw [finite32_eq, nanBits32_eq, real32_eq, sign32_eq, hx, Fmt.isFinite_pack hm, Fmt.isNaN_pack hm]
  refine ⟨fun finite => ?_, fun nan => ?_, by decide, by decide⟩
  · obtain ⟨k, hk, same⟩ := exists_quanta64_of_finite32 finite
    have converted : fmt32.convertMag fmt64 m = k := by
      rw [Fmt.convertMag, if_neg finite.ne]
      exact Fmt.roundMag_of_eq fmt64_prec_pos (Nat.two_pow_pos _) hk.le same
    have hk' : k < fmt64.signMag := hk.trans Fmt.infMag_lt_signMag
    rw [finite64_eq, real64_eq, sign64_eq, toNat_widen hx finite.le, converted, Fmt.isFinite_pack hk',
      Fmt.sign_pack hk', Fmt.sign_pack hm, Fmt.real_pack fmt64_ieee hk', Fmt.real_pack fmt32_ieee hm]
    refine ⟨hk, congrArg (signed neg) ?_, rfl⟩
    rw [div_eq_div_iff (by positivity) (by positivity)]
    exact_mod_cast same.symm
  · rw [widen, hx, Fmt.convertBits_pack_nan hm nan]
    rfl

/-! ### Narrowing (R89) -/

theorem toNat_narrow {x : F64} {neg : Bool} {m : Nat} (hx : x.toNat = fmt64.pack neg m) (h : m ≤ fmt64.infMag) :
    (narrow x).toNat = fmt64.convertBits fmt32 (fmt64.pack neg m) := by
  rw [narrow, hx, Fmt.convertBits_pack h]
  exact toNat_ofNat32 (Fmt.pack_lt Fmt.convertMag_lt_signMag)

theorem ieeeRounds_narrow {x : F64} (finite : finite64 x) : ieeeRounds 8 23 (real64 x) (narrow x).toNat := by
  obtain ⟨neg, m, hm, hx⟩ := exists_pack64 x
  rw [finite64_eq, hx, Fmt.isFinite_pack hm] at finite
  rw [toNat_narrow hx finite.le, real64_eq, hx]
  exact Fmt.ieeeRounds_convertBits fmt64_ieee fmt32_ieee finite

theorem key32_narrow_mono {x y : F64} (hx : ¬ nanBits64 x) (hy : ¬ nanBits64 y) (le : key64 x ≤ key64 y) :
    key32 (narrow x) ≤ key32 (narrow y) := by
  obtain ⟨a, m, hm, ex⟩ := exists_pack64 x
  obtain ⟨b, n, hn, ey⟩ := exists_pack64 y
  rw [nanBits64_eq, ex, Fmt.isNaN_pack hm, not_lt] at hx
  rw [nanBits64_eq, ey, Fmt.isNaN_pack hn, not_lt] at hy
  rw [key64_eq, key64_eq, ex, ey] at le
  rw [key32_eq, key32_eq, toNat_narrow ex hx, toNat_narrow ey hy]
  exact Fmt.key_convertBits_mono fmt64_prec_pos fmt32_prec_pos hx hy (by decide) le

/-- Patterns with a clear sign bit narrow in their order. -/
theorem toNat_narrow_mono {x y : F64} (le : x.toNat ≤ y.toNat) (number : y.toNat ≤ fmt64.infMag) :
    (narrow x).toNat ≤ (narrow y).toNat := by
  rw [toNat_narrow Fmt.pack_false.symm (le.trans number), toNat_narrow Fmt.pack_false.symm number,
    Fmt.convertBits_pack (le.trans number), Fmt.convertBits_pack number, Fmt.pack_false, Fmt.pack_false]
  exact Fmt.convertMag_mono fmt64_prec_pos fmt32_prec_pos le number

/-- R89: "at the midpoint itself the tie goes to the even one". -/
theorem narrow_midpoint : narrow 0x401921FB50000000 = 0x40C90FDA := by decide +kernel

theorem narrow_above_midpoint : narrow 0x401921FB50000001 = 0x40C90FDB := by decide +kernel

theorem narrow_twoPi64 : narrow twoPi64 = twoPi32 := by decide +kernel

/-- R89, the phases: `narrow` is monotone, so its values at the midpoint, above it and at `TWO_PI64` say the rest. -/
theorem narrow_phase {x : F64} (phase : x.toNat < 0x401921FB54442D18) :
    (narrow x).toNat ≤ 0x40C90FDB ∧ (narrow x = 0x40C90FDB ↔ 0x401921FB50000000 < x.toNat) := by
  have numbers : ∀ n ≤ 0x401921FB54442D18, n ≤ fmt64.infMag := by rw [fmt64_infMag]; omega
  have upper : (narrow x).toNat ≤ 0x40C90FDB := by
    have := toNat_narrow_mono (y := twoPi64) phase.le (by decide)
    rwa [narrow_twoPi64] at this
  refine ⟨upper, fun reached => ?_, fun above => ?_⟩
  · by_contra low
    have := toNat_narrow_mono (y := 0x401921FB50000000) (Nat.not_lt.1 low) (by decide)
    rw [narrow_midpoint, reached] at this
    exact absurd this (by decide)
  · have := toNat_narrow_mono (x := 0x401921FB50000001) (Nat.succ_le_of_lt above) (numbers _ phase.le)
    rw [narrow_above_midpoint] at this
    exact BitVec.eq_of_toNat_eq (le_antisymm upper this)

/-- Settles O38: rounding, order, zero and the phases, one lemma each. -/
theorem narrowRoundsPhases : Obligations.NarrowRoundsPhases :=
  ⟨fun _ => ieeeRounds_narrow, fun _ _ => key32_narrow_mono, by decide +kernel, fun _ => narrow_phase⟩

/-! ### From an integer (R90) -/

/-- An integer, as sign and magnitude. -/
theorem signed_natAbs (k : Int) : signed (decide (k < 0)) k.natAbs = k := by
  rw [Nat.cast_natAbs, Int.cast_abs, signed]
  split_ifs with neg
  · rw [abs_of_neg (by exact_mod_cast of_decide_eq_true neg), neg_neg]
  · rw [abs_of_nonneg (by exact_mod_cast not_lt.1 (mt decide_eq_true neg))]

/-- Integers up to `2^24` are significands of f32. -/
theorem exists_quanta32_of_le {a : Nat} (ha : a ≤ 2 ^ 24) : ∃ m, m < fmt32.infMag ∧ fmt32.quanta m = a * 2 ^ 149 := by
  obtain ⟨m, hm⟩ : ∃ m, fmt32.quanta m = a * 2 ^ 149 := by
    rw [Fmt.exists_quanta_iff fmt32_prec_pos]
    rcases ha.lt_or_eq with lt | rfl
    · exact ⟨a, 149, lt, rfl⟩
    · exact ⟨1, 24 + 149, by decide, by rw [Nat.pow_add, Nat.one_mul]⟩
  refine ⟨m, Nat.lt_of_not_le fun beyond => ?_, hm⟩
  have top := (fmt32_ieee.quanta_top (b := 127) (by decide) (by decide)).1
  have above := (Fmt.quanta_le_iff fmt32_prec_pos).2 beyond
  rw [top, hm] at above
  have := above.trans (Nat.mul_le_mul_right _ ha)
  rw [← Nat.pow_add, Nat.pow_le_pow_iff_right (by decide)] at this
  exact absurd this (by decide)

/-- Settles O39: the rounding rule on `|k|` with the sign of `k`, and no rounding up to `2^24`. -/
theorem integerToFloatRounds : Obligations.IntegerToFloatRounds := by
  intro k
  have scale : (2 : ℚ) ^ fmt32.quantum ≠ 0 := by positivity
  rw [real32_eq, i2f32, toNat_roundTo32]
  constructor
  · have rounds := Fmt.ieeeRounds_roundTo fmt32_ieee (decide (k < 0)) (n := k.natAbs * 2 ^ fmt32.quantum) Nat.one_pos
    rwa [Nat.cast_one, div_one, Nat.cast_mul, Nat.cast_pow, Nat.cast_two, mul_div_cancel_right₀ _ scale,
      signed_natAbs] at rounds
  · intro small
    rw [Int.abs_eq_natAbs] at small
    obtain ⟨m, hm, same⟩ := exists_quanta32_of_le (a := k.natAbs) (by omega)
    have rounded : fmt32.roundMag (k.natAbs * 2 ^ fmt32.quantum) 1 = m :=
      Fmt.roundMag_of_eq fmt32_prec_pos Nat.one_pos hm.le (by rw [same, Nat.mul_one]; rfl)
    rw [Fmt.roundTo, rounded, Fmt.real_pack fmt32_ieee (hm.trans Fmt.infMag_lt_signMag), same, Nat.cast_mul,
      Nat.cast_pow, Nat.cast_two]
    exact (congrArg _ (mul_div_cancel_right₀ _ scale)).trans (signed_natAbs k)

end Sys2Proof.Machine

/-! PROOFS. The Frequency Mapper at the reference note (`41_frequency_mapper.md` R112): the difference is 0, the
exponent +0.0, the power of two 1.0, and the product by 1.0 is its left operand. -/

namespace Sys2Proof.Machine

/-! ### The product by 1.0 (`40_numerics.md` R84) -/

theorem val32_one32 : val32 one32 = .fin false (2 ^ 149) := by decide

/-- A finite f32 rounds to itself, its quanta written as a fraction with any denominator. -/
theorem roundTo_mul_of_val32 {x : F32} {neg : Bool} {q d : Nat} (hx : val32 x = .fin neg q) (hd : 0 < d) :
    fmt32.roundTo neg (q * d) d = x.toNat := by
  obtain ⟨finite, hneg, hq⟩ := Fmt.unpack_fin hx
  rw [Fmt.roundTo, Fmt.roundMag_of_eq fmt32_prec_pos hd finite.le (congrArg (· * d) hq), hneg]
  exact Fmt.pack_of_bits (toNat_lt_signMag32 x)

theorem mul32_one32 {x : F32} (finite : finite32 x) : mul32 x one32 = x := by
  obtain ⟨neg, q, hx⟩ := isFinite32_iff.1 (finite32_iff.1 finite)
  rw [mul32_fin hx val32_one32, Bool.bne_false, roundTo_mul_of_val32 hx (Nat.two_pow_pos _), BitVec.ofNat_toNat,
    BitVec.setWidth_eq]

/-! ### Law E2 of the power of two (R96), at +0.0 -/

theorem exp2Rounded_zero : exp2Rounded 0 = one32 := by decide +kernel

theorem exp2_32_zero (num : NumRecord) : exp2_32 num 0 = one32 := by
  rcases exp2_32_cases num with isDefault | ⟨⟨zero, -⟩, -⟩
  · rw [isDefault]; exact exp2Rounded_zero
  · exact zero

/-! ### The reference note -/

theorem noteDifference_self (note : Word) : noteDifference note note = 0 := Int.sub_self _

/-- The exponent of R111 at distance 0: +0.0, and not -0.0. -/
theorem div32_i2f32_zero_twelve32 : div32 (i2f32 0) twelve32 = 0 := by decide

theorem noteToFrequency_refNote (num : NumRecord) {cfg : ConfigRegs} (finite : finite32 cfg.refFreq) :
    noteToFrequency num cfg cfg.refNote = cfg.refFreq := by
  rw [noteToFrequency, noteDifference_self, div32_i2f32_zero_twelve32, exp2_32_zero, mul32_one32 finite]

theorem finite32_reset_refFreq : finite32 ConfigRegs.reset.refFreq := finite32_iff.2 (by decide)

/-- Settles O45; note 69 at reset is the reference note of the reset configuration. -/
theorem anchorNoteIsExact : Obligations.AnchorNoteIsExact :=
  ⟨fun num _ finite => noteToFrequency_refNote num finite,
    fun num => noteToFrequency_refNote num finite32_reset_refFreq⟩

end Sys2Proof.Machine

/-! PROOFS. The reference values of the oscillator (`42_oscillator.md` R123 to R126, R133): at the gain 1.0 the product by
the gain drops out of the three waveforms that have one, and what is left is a function of the phase alone. -/

namespace Sys2Proof.Machine

/-! ### The waveforms at the gain 1.0 -/

theorem one32_mul32 {x : F32} (finite : isFinite32 x = true) : mul32 one32 x = x := by
  obtain ⟨neg, q, hx⟩ := isFinite32_iff.1 finite
  rw [mul32_fin val32_one32 hx, Bool.false_bne, Nat.mul_comm, roundTo_mul_of_val32 hx (Nat.two_pow_pos _),
    BitVec.ofNat_toNat, BitVec.setWidth_eq]

/-- The four deterministic waveforms before the gain, in the order of R133: the sine, its sign as 1.0 or -1.0, the fold of
the phase at 1 radian, and the phase as a part of 2π. -/
def unitSamples (num : NumRecord) (p : F32) : List F32 :=
  [sin32 num p, if ge0_32 (sin32 num p) then one32 else neg32 one32,
    sub32 (mul32 two32 (pingpong32 p one32)) one32, inverseLerp32 0 twoPi32 p]

theorem map_evaluate_one32 (b : Build) {p : F32} (r : Word) (finite : ∀ y ∈ unitSamples b.num p, isFinite32 y = true) :
    [Waveform.sine, .square, .triangle, .sawtooth].map (fun w => (evaluate b w p one32 r).1) = unitSamples b.num p := by
  simp only [unitSamples, List.forall_mem_cons] at finite
  obtain ⟨sine, -, triangle, sawtooth, -⟩ := finite
  simp only [List.map_cons, List.map_nil, evaluate, sineSample, squareSample, triangleSample, sawtoothSample,
    one32_mul32 sine, one32_mul32 triangle, one32_mul32 sawtooth, unitSamples]

/-! ### The table of R133 -/

/-- A row of R133 is a phase and the patterns of the four samples at it. It holds when they are the patterns of the samples
before the gain, none of them of a NaN or an infinity. -/
theorem map_evaluate_of_row {b : Build} {p : F32} {row : List Nat} (r : Word)
    (patterns : (unitSamples b.num p).map BitVec.toNat = row)
    (finite : ∀ n ∈ row, isFinite32 (BitVec.ofNat 32 n) = true) :
    [Waveform.sine, .square, .triangle, .sawtooth].map (fun w => ((evaluate b w p one32 r).1).toNat) = row := by
  have samplesFinite : ∀ y ∈ unitSamples b.num p, isFinite32 y = true := fun y hy => by
    simpa using finite y.toNat (patterns ▸ List.mem_map_of_mem hy)
  rw [← patterns, ← map_evaluate_one32 b r samplesFinite, List.map_map]; rfl

/-- Settles O47: the samples before the gain are evaluated at the fourteen phases. -/
theorem workedWaveforms : Obligations.WorkedWaveforms := by
  intro v mem
  refine map_evaluate_of_row 1 ?patterns ?finite
  case patterns => revert v; decide +kernel
  case finite => revert v; decide +kernel

end Sys2Proof.Machine

/-! PROOFS. NOTE_OFF (`43_voice.md` R143; `44_pool_mixer.md` R161, R165, R166): releasing a note leaves a slot that is not
bound to it as it was. -/

namespace Sys2Proof.Machine

/-- `bound(i, n)` of R161 is `State.boundAt`. -/
theorem State.bound_voice_iff {s : State} {note : Word} {i : Nat} : (s.voice i).bound note = true ↔ s.boundAt note i := by
  rw [Voice.bound, Bool.and_eq_true, beq_iff_eq, State.boundAt]

theorem Voice.release_of_not_bound {v : Voice} {note : Word} (unbound : ¬ v.bound note = true) : v.release note = v :=
  if_neg unbound

theorem State.releaseAll_of_unmatched {s : State} {note : Word}
    (unmatched : ∀ i, i < s.cfg.voiceCount.toNat → ¬ s.boundAt note i) : s.releaseAll note = s := by
  have kept (i : Nat) (slotExists : i < s.voices.length) :
      (if i < s.voiceLimit then s.voices[i].release note else s.voices[i]) = s.voices[i] := by
    have voice : s.voice i = s.voices[i] := (List.getElem_eq_getD Voice.idle).symm
    split_ifs with below
    · exact Voice.release_of_not_bound (voice ▸ mt State.bound_voice_iff.1 (unmatched i below))
    · rfl
  have voices : (s.releaseAll note).voices = s.voices :=
    List.ext_getElem (by simp) fun i _ slotExists => by simpa using kept i slotExists
  rw [State.releaseAll, ← State.releaseAll_voices, voices]

theorem exec_noteOff_of_run {s : State} (note : Word) (running : s.mode = .run) :
    exec (.noteOff note) s = .next ((s.releaseAll note).answered 0) := by
  rw [← State.respondOk_eq_answered]
  exact inMode_of_eq running _

/-- Settles O23: in RUN the command answers for the state after the releases, and none of them changes a slot. -/
theorem unmatchedNoteOffChangesNothing : Obligations.UnmatchedNoteOffChangesNothing := by
  intro s note running unmatched
  rw [exec_noteOff_of_run note running, State.releaseAll_of_unmatched unmatched]

end Sys2Proof.Machine

/-! PROOFS. The system commands CFGR, CFGW, START and CLRERR (`45_system_commands.md` R180 to R186): one equation for
each way that a command ends, on the whole next state. -/

namespace Sys2Proof.Machine

/-! ### The two ways to end -/

/-- TAKING A FAULT (R210), as the outcome of a command. -/
theorem next_raise (s : State) (c : FaultCode) : (.next (s.raise c) : Result) = .next (s.faulted c.code) :=
  congrArg _ (s.raise_eq_faulted c)

/-- Completing a command (R67), as its outcome. -/
theorem next_respondOk (s : State) (data : Word) : (.next (s.respondOk data) : Result) = .next (s.answered data) :=
  congrArg _ (s.respondOk_eq_answered data)

/-- R68 (2): in the other mode a command raises ILLEGAL_IN_MODE, whatever it would have done. -/
theorem inMode_eq_faulted {s : State} {m : Mode} (otherMode : s.mode ≠ m) (k : Result) :
    s.inMode m k = .next (s.faulted 0x02) :=
  (inMode_of_ne otherMode k).trans (next_raise s .illegalInMode)

/-! ### Registers and their numbers -/

/-- The register file of R20: ten registers, each with its own number. -/
theorem cfgRegOf_eq_some_iff {reg : BitVec 8} {r : CfgReg} : cfgRegOf reg = some r ↔ r.number = reg := by
  constructor
  · intro found
    unfold cfgRegOf at found
    split_ifs at found <;>
    · cases found; exact Eq.symm ‹reg = _›
  · rintro rfl
    cases r <;> rfl

theorem cfgRegOf_number (r : CfgReg) : cfgRegOf r.number = some r := cfgRegOf_eq_some_iff.2 rfl

theorem CfgReg.number_le (r : CfgReg) : r.number.toNat ≤ 0x09 := by cases r <;> decide

theorem cfgRegOf_eq_none {reg : BitVec 8} (above : 0x09 < reg.toNat) : cfgRegOf reg = none := by
  refine Option.eq_none_iff_forall_ne_some.2 fun r found => ?_
  have := r.number_le
  rw [cfgRegOf_eq_some_iff.1 found] at this
  omega

/-- The access column of R20 by number: the registers that CFGW stores are 0x01 to 0x07. -/
theorem CfgReg.writable_iff {r : CfgReg} : r.writable = true ↔ r.number ≠ 0x00 ∧ r.number.toNat ≤ 0x07 := by
  cases r <;> decide

/-- The registers that CFGW stores, in the order of R20. -/
def CfgReg.stored : List CfgReg := [.voiceCount, .waveform, .gain, .refNote, .refFreq, .sampleRate, .channels]

theorem CfgReg.mem_stored_iff {r : CfgReg} : r ∈ CfgReg.stored ↔ r.writable = true := by cases r <;> decide

/-! ### What the two views show -/

/-- STATUS (R21), field by field. -/
theorem statusWord_fields (m : Mode) (err : Bool) (errcode : BitVec 8) :
    ((statusWord m err errcode).getLsbD 0 = true ↔ m = .run) ∧ (statusWord m err errcode).getLsbD 1 = err ∧
      (statusWord m err errcode).extractLsb' 2 6 = 0 ∧ (statusWord m err errcode).extractLsb' 8 8 = errcode ∧
      (statusWord m err errcode).extractLsb' 16 16 = 0 := by
  refine ⟨?_, ?_, ?_, ?_, ?_⟩
  · rw [statusWord, BitVec.getLsbD_append, if_pos Nat.one_pos]; cases m <;> decide
  · rw [statusWord, BitVec.getLsbD_append, BitVec.getLsbD_append]; cases err <;> rfl
  all_goals
    ext k inField
    simp only [statusWord, BitVec.getElem_extractLsb', BitVec.getLsbD_append]
    grind

/-- OBUF_SIZE (R29): the cells built, or the greatest number of 32 bits where there are more. -/
theorem State.cfgValue_obufSize (s : State) : s.cfgValue .obufSize =
    if s.build.obufWords < 2 ^ 32 then BitVec.ofNat 32 s.build.obufWords else 0xFFFFFFFF#32 := by
  rw [State.cfgValue]
  split_ifs with fits
  · rw [Nat.min_eq_left (by omega)]
  · rw [Nat.min_eq_right (by omega)]; rfl

/-! ### CFGR -/

theorem exec_cfgr_number (s : State) (r : CfgReg) : exec (.cfgr r.number) s = .next (s.answered (s.cfgValue r)) := by
  rw [← next_respondOk]
  show execCfgr r.number s = _
  rw [execCfgr, cfgRegOf_number]

theorem exec_cfgr_of_none {s : State} {reg : BitVec 8} (absent : cfgRegOf reg = none) :
    exec (.cfgr reg) s = .next (s.faulted 0x03) := by
  refine Eq.trans ?_ (next_raise s .badRegister)
  show execCfgr reg s = _
  rw [execCfgr, absent]

/-- Settles O11: the two views are read by their own lemmas, and each row of the table is a register at its number. -/
theorem cfgrReads : Obligations.CfgrReads := by
  refine ⟨fun s => ⟨?status, ?table, fun reg above => exec_cfgr_of_none (cfgRegOf_eq_none above)⟩, ?reset⟩
  case status => exact ⟨_, exec_cfgr_number s .status, statusWord_fields s.mode s.err s.errcode⟩
  case table =>
    intro reg value row
    rw [← s.cfgValue_obufSize] at row
    change (reg, value) ∈ (CfgReg.stored ++ [CfgReg.maxVoices, .obufSize]).map fun r => (r.number, s.cfgValue r) at row
    obtain ⟨r, -, atRow⟩ := List.mem_map.1 row
    obtain ⟨rfl, rfl⟩ := Prod.mk.inj atRow
    exact exec_cfgr_number s r
  case reset => exact exec_cfgr_number State.reset .refFreq

/-! ### CFGW -/

theorem State.storeCfg_number (s : State) {r : CfgReg} (writable : r.writable = true) (value : Word) :
    s.storeCfg r.number value = State.answered { s with cfg := s.cfg.write r value } 0 := by
  rw [State.storeCfg, cfgRegOf_number, ← State.respondOk_eq_answered]
  exact if_pos writable

theorem State.storeCfg_of_not_writable {s : State} {reg : BitVec 8}
    (readOnly : ∀ r, cfgRegOf reg = some r → ¬ r.writable = true) (value : Word) :
    s.storeCfg reg value = s.faulted 0x03 := by
  obtain ⟨r, found, writable, -⟩ | raised := s.storeCfg_cases reg value
  · exact absurd writable (readOnly r found)
  · exact raised.trans (s.raise_eq_faulted .badRegister)

theorem exec_cfgw_of_config {s : State} (config : s.mode = .config) (reg : BitVec 8) (value : Word) :
    exec (.cfgw reg value) s = .next (s.storeCfg reg value) :=
  inMode_of_eq config _

/-- Settles O12: the seven rows are the registers that can be written, at their numbers, and no other number is one of
theirs. -/
theorem cfgwStores : Obligations.CfgwStores := by
  refine fun s value => ⟨?stores, ?readOnly, fun running reg => inMode_eq_faulted (by simp [running]) _⟩
  case stores =>
    intro config reg cfg row
    change (reg, cfg) ∈ CfgReg.stored.map fun r => (r.number, s.cfg.write r value) at row
    obtain ⟨r, stored, atRow⟩ := List.mem_map.1 row
    obtain ⟨rfl, rfl⟩ := Prod.mk.inj atRow
    rw [exec_cfgw_of_config config, s.storeCfg_number (CfgReg.mem_stored_iff.1 stored)]
  case readOnly =>
    intro config reg outside
    rw [exec_cfgw_of_config config, State.storeCfg_of_not_writable]
    intro r found writable
    obtain ⟨notStatus, le⟩ := CfgReg.writable_iff.1 writable
    rw [cfgRegOf_eq_some_iff.1 found] at notStatus le
    exact outside.elim notStatus (Nat.not_lt.2 le)

/-! ### START -/

/-- The checks of R183 in their order, each in terms of the register's bits. -/
theorem State.configFault_eq (s : State) : s.configFault =
    if ¬ (0 < s.cfg.sampleRate.toNat ∧ s.cfg.sampleRate.toNat < 0x7F800000) then some .cfgSampleRate
    else if s.cfg.voiceCount = 0 ∨ s.build.maxVoices < s.cfg.voiceCount.toNat then some .cfgVoiceCount
    else if 4 < s.cfg.waveform.toNat then some .cfgWaveform
    else none := by
  have zero : s.cfg.voiceCount.toNat < 1 ↔ s.cfg.voiceCount = 0 := by bv_omega
  simp only [State.configFault, ← validSampleRate_iff, Bool.not_eq_true, zero]

theorem exec_start_of_some {s : State} {c : FaultCode} (config : s.mode = .config) (fault : s.configFault = some c) :
    exec .start s = .next (s.faulted c.code) := by
  rw [← next_raise]
  refine (inMode_of_eq config _).trans ?_
  rw [fault]

theorem exec_start_of_none {s : State} (config : s.mode = .config) (valid : s.configFault = none) :
    exec .start s = .next (s.openRenderPath.answered 0) := by
  rw [← next_respondOk]
  refine (inMode_of_eq config _).trans ?_
  rw [valid]

/-- Settles O13: each range of the three registers selects its branch of the checks. -/
theorem startChecksAndOpens : Obligations.StartChecksAndOpens := by
  refine fun s => ⟨fun running => inMode_eq_faulted (by simp [running]) _, fun config =>
    ⟨fun badRate => ?rate, fun rate => ⟨fun badCount => ?count, fun ⟨notZero, built⟩ => ?waveform⟩⟩⟩
  case rate => exact exec_start_of_some config (by rw [s.configFault_eq, if_pos badRate])
  case count =>
    exact exec_start_of_some config (by rw [s.configFault_eq, if_neg (not_not.2 rate), if_pos badCount])
  case waveform =>
    have count : ¬ (s.cfg.voiceCount = 0 ∨ s.build.maxVoices < s.cfg.voiceCount.toNat) :=
      not_or.2 ⟨notZero, Nat.not_lt.2 built⟩
    have checks : s.configFault = if 4 < s.cfg.waveform.toNat then some .cfgWaveform else none := by
      rw [s.configFault_eq, if_neg (not_not.2 rate), if_neg count]
    exact ⟨fun bad => exec_start_of_some config (checks.trans (if_pos bad)),
      fun good => exec_start_of_none config (checks.trans (if_neg (Nat.not_lt.2 good)))⟩

/-! ### CLRERR -/

theorem exec_clrerr (s : State) : exec .clrerr s = .next (s.clearErr.answered 0) := next_respondOk s.clearErr 0

/-- With both flags clear there is nothing to acknowledge. -/
theorem State.clearErr_of_clear {s : State} (err : s.err = false) (errcode : s.errcode = 0) : s.clearErr = s := by
  rw [State.clearErr, ← err, ← errcode]

/-- Settles O15: the next state is that of `State.clearErr`, which changes nothing when both flags are clear. -/
theorem clrerrAcknowledges : Obligations.ClrerrAcknowledges :=
  fun s => ⟨exec_clrerr s, fun err errcode => by rw [exec_clrerr, State.clearErr_of_clear err errcode]⟩

end Sys2Proof.Machine

/-! PROOFS. ILLEGAL_COMMAND, and the words that are no command (`30_encoding.md` R64, R65; `60_exceptions.md` R201). A row is selected by its opcode
byte and by zeros in the fields it does not use, and every word that decodes selects the row of its command. -/

namespace Sys2Proof

/-! ### What decodes selects its row -/

/-- One row of the decoder: it answers its command when the opcode byte is the row's and the unused fields are zero, or
leaves the answer to the rows after it. -/
theorem row_eq_instr {isRow : Prop} [Decidable isRow] {unusedZero : Bool} {op : BitVec 8} {i j : Instr} {others : Decoded}
    (accepted : (if isRow then acceptIf unusedZero op i else others) = .instr j) :
    (isRow ∧ unusedZero = true ∧ i = j) ∨ others = .instr j := by
  by_cases row : isRow
  · rw [if_pos row] at accepted
    cases unusedZero
    · cases accepted
    · exact .inl ⟨row, rfl, Decoded.instr.inj accepted⟩
  · exact .inr ((if_neg row).symm.trans accepted)

/-- Fields that the decoder accepts are the fields of the command it answers: in each row the opcode byte is the row's, the
unused fields are zero, and the other fields are the operands. -/
theorem fields_of_decodeFields {f : Fields} {i : Instr} (accepted : decodeFields f = .instr i) : i.fields = f := by
  obtain ⟨op, idx, sel, rsv, a, b⟩ := f
  unfold decodeFields at accepted
  iterate 10
    obtain ⟨rfl, unusedZero, rfl⟩ | accepted := row_eq_instr accepted
    · simp only [Bool.and_eq_true, beq_iff_eq] at unusedZero
      simp only [Instr.fields, unusedZero]
      rfl
  cases accepted

/-- R61: the six fields of format C, side by side, fill the word. -/
@[simp] theorem wordOf_fieldsOf (w : CmdWord) : wordOf (fieldsOf w) = w := by
  have join (hi lo : Nat) {n m : Nat} (adjacent : hi = lo + m) :
      w.extractLsb' hi n ++ w.extractLsb' lo m = w.extractLsb' lo (n + m) :=
    BitVec.extractLsb'_append_extractLsb'_eq_extractLsb' adjacent
  simp only [wordOf, fieldsOf]
  rw [join 88 80 rfl, join 80 72 rfl, join 72 64 rfl, join 64 32 rfl, join 32 0 rfl]
  exact BitVec.extractLsb'_eq_self

theorem encode_of_decode {w : CmdWord} {i : Instr} (decoded : decode w = .instr i) : encode i = w := by
  rw [encode, fields_of_decodeFields decoded, wordOf_fieldsOf]

theorem encode_and_mask (i : Instr) : encode i &&& i.op.mask = i.op.pattern :=
  match i with
  | .cfgw reg value => Laws.EncodesRow.cfgw reg value
  | .cfgr reg => Laws.EncodesRow.cfgr reg
  | .start => Laws.EncodesRow.start
  | .stop => Laws.EncodesRow.stop
  | .clrerr => Laws.EncodesRow.clrerr
  | .seed voice value => Laws.EncodesRow.seed voice value
  | .vrd voice field => Laws.EncodesRow.vrd voice field
  | .noteOn note velocity => Laws.EncodesRow.noteOn note velocity
  | .noteOff note => Laws.EncodesRow.noteOff note
  | .render frames base => Laws.EncodesRow.render frames base

theorem and_mask_of_decode {w : CmdWord} {i : Instr} (decoded : decode w = .instr i) : w &&& i.op.mask = i.op.pattern :=
  encode_of_decode decoded ▸ encode_and_mask i

/-! ### The opcode byte and the unused fields -/

/-- The opcode byte of a row (R64). -/
def Op.opcode (o : Op) : BitVec 8 := o.pattern.extractLsb' 88 8

/-- The rows in the order of R64. -/
def Op.rows : List Op := [.cfgw, .cfgr, .start, .stop, .clrerr, .seed, .vrd, .noteOn, .noteOff, .render]

theorem Op.mem_rows (o : Op) : o ∈ Op.rows := by cases o <;> decide

theorem Op.map_opcode_rows : Op.rows.map Op.opcode =
    [0x01#8, 0x02#8, 0x03#8, 0x04#8, 0x05#8, 0x06#8, 0x07#8, 0x10#8, 0x11#8, 0x20#8] := by decide

theorem Op.opcode_injective {o o' : Op} (same : o.opcode = o'.opcode) : o = o' :=
  List.inj_on_of_nodup_map (Op.map_opcode_rows ▸ by decide) o.mem_rows o'.mem_rows same

theorem Op.exists_opcode_iff {op : BitVec 8} : (∃ o : Op, o.opcode = op) ↔
    op ∈ [0x01#8, 0x02#8, 0x03#8, 0x04#8, 0x05#8, 0x06#8, 0x07#8, 0x10#8, 0x11#8, 0x20#8] := by
  simp only [← Op.map_opcode_rows, List.mem_map, Op.mem_rows, true_and]

/-- Every row compares the whole opcode byte. -/
theorem Op.mask_opcode (o : Op) : o.mask.extractLsb' 88 8 = BitVec.allOnes 8 := by cases o <;> decide

/-- Every row asks for zeros in the fields it does not use. -/
theorem Op.pattern_unused (o : Op) : o.pattern.extractLsb' 0 88 = 0 := by cases o <;> decide

/-- Words with the same opcode byte and the same bits below it are the same. -/
theorem cmdWord_eq_iff {v w : CmdWord} :
    v = w ↔ v.extractLsb' 88 8 = w.extractLsb' 88 8 ∧ v.extractLsb' 0 88 = w.extractLsb' 0 88 := by
  refine ⟨fun same => same ▸ ⟨rfl, rfl⟩, fun ⟨opcode, below⟩ => ?_⟩
  have joined (u : CmdWord) : u.extractLsb' 88 8 ++ u.extractLsb' 0 88 = u := BitVec.extractLsb'_append_extractLsb'
  rw [← joined v, ← joined w, opcode, below]

/-- R62, R64: a word selects a row when it has the row's opcode byte and zeros in the fields the row does not use. -/
theorem and_mask_eq_pattern_iff {w : CmdWord} {o : Op} :
    w &&& o.mask = o.pattern ↔ w.extractLsb' 88 8 = o.opcode ∧ (w &&& o.mask).extractLsb' 0 88 = 0 := by
  rw [cmdWord_eq_iff, BitVec.extractLsb'_and, o.mask_opcode, BitVec.and_allOnes, o.pattern_unused, Op.opcode]

end Sys2Proof

namespace Sys2Proof.Machine

/-! ### ILLEGAL_COMMAND -/

theorem step_of_selects_none {s : State} {w : CmdWord} {rest : List CmdWord} (waiting : s.queue = w :: rest)
    (selectsNone : ∀ o : Op, w &&& o.mask ≠ o.pattern) :
    step s = .next (State.faulted { s with queue := rest } 0x01) := by
  obtain ⟨idle, -⟩ | ⟨v, tail, taken, outcome⟩ := step_cases (s := s) rfl
  · rw [waiting] at idle
    exact absurd idle (List.cons_ne_nil w rest)
  · obtain ⟨rfl, rfl⟩ := List.cons.inj (waiting.symm.trans taken)
    obtain ⟨_, -, rejected⟩ | ⟨i, decoded, -⟩ := outcome
    · exact rejected.trans (next_raise _ .illegalCommand)
    · exact absurd (and_mask_of_decode decoded) (selectsNone i.op)

/-- R201's two causes. No two rows share an opcode byte, so a non-zero unused field of the row with the word's opcode byte
leaves no other row to select. -/
theorem selects_none_iff {w : CmdWord} : (∀ o : Op, w &&& o.mask ≠ o.pattern) ↔
    (¬ ∃ o : Op, o.opcode = w.extractLsb' 88 8) ∨
      ∃ o : Op, w.extractLsb' 88 8 = o.opcode ∧ (w &&& o.mask).extractLsb' 0 88 ≠ 0 := by
  simp only [ne_eq, and_mask_eq_pattern_iff]
  constructor
  · intro selectsNone
    refine or_iff_not_imp_left.2 fun listed => ?_
    obtain ⟨o, opcode⟩ := not_not.1 listed
    exact ⟨o, opcode.symm, fun unusedZero => selectsNone o ⟨opcode.symm, unusedZero⟩⟩
  · rintro (unlisted | ⟨o, opcode, unusedSet⟩) o' ⟨opcode', unusedZero⟩
    · exact unlisted ⟨o', opcode'.symm⟩
    · exact unusedSet (Op.opcode_injective (opcode.symm.trans opcode') ▸ unusedZero)

/-- Settles O5: the decoder rejects a word that selects no row, and such words are split by their opcode byte. -/
theorem illegalWordRaises : Obligations.IllegalWordRaises :=
  ⟨fun _ _ _ => step_of_selects_none, fun _ => selects_none_iff.trans (or_congr (not_congr Op.exists_opcode_iff) Iff.rfl)⟩

end Sys2Proof.Machine

/-! PROOFS. The two faults of R202 and R207 (`60_exceptions.md`), ILLEGAL_IN_MODE and OBUF_RANGE: each exactly when its check
fails. -/

namespace Sys2Proof.Machine

/-! ### ILLEGAL_IN_MODE -/

/-- Settles O10: each of the six commands is a mode check around its meaning, and the mode is the other one. -/
theorem wrongModeRaises : Obligations.WrongModeRaises := by
  refine fun s => ⟨fun running => ?run, fun config => ?config⟩
  case run =>
    have notConfig : s.mode ≠ .config := by simp [running]
    exact ⟨fun _ _ => inMode_eq_faulted notConfig _, inMode_eq_faulted notConfig _⟩
  case config =>
    have notRun : s.mode ≠ .run := by simp [config]
    exact ⟨inMode_eq_faulted notRun _, fun _ _ => inMode_eq_faulted notRun _, fun _ => inMode_eq_faulted notRun _,
      fun _ _ => inMode_eq_faulted notRun _⟩

/-! ### OBUF_RANGE -/

theorem exec_render_of_out_of_range {s : State} {frames base : Word} (running : s.mode = .run)
    (tooLarge : s.build.obufWords < renderNeed frames base s.cfg.channels) :
    exec (.render frames base) s = .next (s.faulted 0x06) :=
  ((inMode_of_eq running _).trans (if_pos tooLarge)).trans (next_raise s .obufRange)

/-- A completed command is told from a fault by the code of its response (R67, R200). -/
theorem State.respondOk_ne_raise {s u : State} (emitted : u.responses = s.responses) (c : FaultCode) :
    u.respondOk 0 ≠ s.raise c := by
  intro same
  have words : u.responses ++ [responseWord okCode 0] = s.responses ++ [responseWord c.code 0] :=
    congrArg State.responses same
  rw [emitted, List.append_cancel_left_eq] at words
  cases c <;> exact absurd words (by decide)

theorem exec_render_ne_of_in_range {s : State} {frames base : Word} (running : s.mode = .run)
    (fits : renderNeed frames base s.cfg.channels ≤ s.build.obufWords) :
    exec (.render frames base) s ≠ .next (s.faulted 0x06) := by
  intro faulted
  have raised : execRender frames base s = .next (s.raise .obufRange) := faulted.trans (next_raise s .obufRange).symm
  obtain ⟨-, tooLarge, -⟩ | ⟨-, -, -, silent⟩ | ⟨-, -, w, -, rendered⟩ | ⟨notRunning, -⟩ := execRender_next raised
  · exact absurd tooLarge (Nat.not_lt.2 fits)
  · exact State.respondOk_ne_raise rfl _ silent.symm
  · exact State.respondOk_ne_raise (s.renderFrames_responses w _ _ _) _ rendered.symm
  · exact absurd running notRunning

/-- Settles O24: the sum of the statement is `renderNeed`, which the check of R45 compares. -/
theorem renderRangeCheck : Obligations.RenderRangeCheck :=
  fun _ _ _ running => ⟨exec_render_of_out_of_range running, exec_render_ne_of_in_range running⟩

end Sys2Proof.Machine

/-! PROOFS. The decoder and the encoder (`30_encoding.md` R61 to R65; `20_memory.md` R47): a command, its word, its twelve
bytes and its row of the opcode table determine each other. -/

namespace Sys2Proof

/-! ### A word and its bytes (R47) -/

/-- The bytes from byte `j` on stand for the word's bits from `8j` on. -/
theorem natOfBytes_bytesFrom (w : CmdWord) (n j : Nat) :
    natOfBytes ((List.range n).map fun k => w.extractLsb' (8 * (k + j)) 8) = w.toNat / 2 ^ (8 * j) % 2 ^ (8 * n) := by
  induction n generalizing j with
  | zero => simp [natOfBytes, Nat.mod_one]
  | succ n ih =>
    have rest : natOfBytes ((List.range n).map ((fun k => w.extractLsb' (8 * (k + j)) 8) ∘ Nat.succ)) =
        w.toNat / 2 ^ (8 * (j + 1)) % 2 ^ (8 * n) := by
      rw [← ih (j + 1)]
      refine congrArg natOfBytes (List.map_congr_left fun k _ => ?_)
      rw [Function.comp_apply, Nat.succ_eq_add_one, Nat.add_right_comm, Nat.add_assoc]
    rw [List.range_succ_eq_map, List.map_cons, List.map_map, natOfBytes, rest, Nat.zero_add, BitVec.extractLsb'_toNat,
      Nat.shiftRight_eq_div_pow, Nat.mul_succ 8 j, Nat.pow_add, ← Nat.div_div_eq_div_mul, Nat.mul_succ 8 n,
      Nat.add_comm (8 * n) 8, Nat.pow_add, Nat.mod_mul]

/-- R47, R61: the twelve bytes of a word, least significant first, stand for the word. -/
theorem natOfBytes_bytesOfWord (w : CmdWord) : natOfBytes (bytesOfWord w) = w.toNat := by
  have bytes := natOfBytes_bytesFrom w 12 0
  rw [Nat.mul_zero, Nat.pow_zero, Nat.div_one, Nat.mod_eq_of_lt w.isLt] at bytes
  exact bytes

theorem decodeBytes_bytesOfWord (w : CmdWord) : decodeBytes (bytesOfWord w) = decode w := by
  have twelve : (bytesOfWord w).length = 12 := by rw [bytesOfWord, List.length_map, List.length_range]
  rw [decodeBytes, if_pos twelve, natOfBytes_bytesOfWord, BitVec.ofNat_toNat, BitVec.setWidth_eq]

/-- Settles O1: the twelve bytes, and the word as a number, are read back as the word. -/
theorem decodeEncodeRoundTrip : Obligations.DecodeEncodeRoundTrip := by
  intro i
  have word : BitVec.ofNat 96 ((encode i).toNat % 2 ^ 96) = encode i := by
    rw [Nat.mod_eq_of_lt (encode i).isLt, BitVec.ofNat_toNat, BitVec.setWidth_eq]
  have bytes : decodeBytes (bytesOfWord (encode i)) = .instr i := by
    rw [decodeBytes_bytesOfWord, Machine.decode_encode]
  exact ⟨Machine.decode_encode i, bytes, by rw [decodeTableWord, word, bytes]⟩

/-- Settles O2: a word that decodes is put together from the fields it was read from. -/
theorem encodeDecodeRoundTrip : Obligations.EncodeDecodeRoundTrip := fun _ _ => encode_of_decode

/-! ### The rows of the opcode table, field by field (R64) -/

/-- Which fields a row compares: the opcode byte, the reserved byte and the operand fields that the row does not use. -/
def Op.maskFields : Op → Fields
  | .cfgw => { op := 0xFF, idx := 0, sel := 0xFF, rsv := 0xFF, a := 0, b := 0xFFFFFFFF }
  | .cfgr => { op := 0xFF, idx := 0, sel := 0xFF, rsv := 0xFF, a := 0xFFFFFFFF, b := 0xFFFFFFFF }
  | .start => { op := 0xFF, idx := 0xFF, sel := 0xFF, rsv := 0xFF, a := 0xFFFFFFFF, b := 0xFFFFFFFF }
  | .stop => { op := 0xFF, idx := 0xFF, sel := 0xFF, rsv := 0xFF, a := 0xFFFFFFFF, b := 0xFFFFFFFF }
  | .clrerr => { op := 0xFF, idx := 0xFF, sel := 0xFF, rsv := 0xFF, a := 0xFFFFFFFF, b := 0xFFFFFFFF }
  | .seed => { op := 0xFF, idx := 0, sel := 0xFF, rsv := 0xFF, a := 0, b := 0xFFFFFFFF }
  | .vrd => { op := 0xFF, idx := 0, sel := 0, rsv := 0xFF, a := 0xFFFFFFFF, b := 0xFFFFFFFF }
  | .noteOn => { op := 0xFF, idx := 0xFF, sel := 0xFF, rsv := 0xFF, a := 0, b := 0 }
  | .noteOff => { op := 0xFF, idx := 0xFF, sel := 0xFF, rsv := 0xFF, a := 0, b := 0xFFFFFFFF }
  | .render => { op := 0xFF, idx := 0xFF, sel := 0xFF, rsv := 0xFF, a := 0, b := 0 }

theorem Op.wordOf_maskFields (o : Op) : wordOf o.maskFields = o.mask := by cases o <;> decide

theorem Op.wordOf_patternFields (o : Op) :
    wordOf { op := o.opcode, idx := 0, sel := 0, rsv := 0, a := 0, b := 0 } = o.pattern := by
  cases o <;> decide

/-- A word selects a row exactly when each field does. -/
theorem Op.and_mask_wordOf {o : Op} {f : Fields} : wordOf f &&& o.mask = o.pattern ↔
    f.op &&& o.maskFields.op = o.opcode ∧ f.idx &&& o.maskFields.idx = 0 ∧ f.sel &&& o.maskFields.sel = 0 ∧
      f.rsv &&& o.maskFields.rsv = 0 ∧ f.a &&& o.maskFields.a = 0 ∧ f.b &&& o.maskFields.b = 0 := by
  have joined : wordOf f &&& o.mask = wordOf {
      op := f.op &&& o.maskFields.op
      idx := f.idx &&& o.maskFields.idx
      sel := f.sel &&& o.maskFields.sel
      rsv := f.rsv &&& o.maskFields.rsv
      a := f.a &&& o.maskFields.a
      b := f.b &&& o.maskFields.b } := by
    rw [← o.wordOf_maskFields]
    exact Laws.and_mask_of_fields f.op f.idx f.sel f.rsv f.a f.b _ _ _ _ _ _
  have wordOf_injective : Function.Injective wordOf := Function.LeftInverse.injective Machine.fieldsOf_wordOf
  rw [joined, ← o.wordOf_patternFields, wordOf_injective.eq_iff, Fields.mk.injEq]

/-- The command of a row with the operands that the fields hold. -/
def Op.instrOf (o : Op) (f : Fields) : Instr :=
  match o with
  | .cfgw => .cfgw f.idx f.a
  | .cfgr => .cfgr f.idx
  | .start => .start
  | .stop => .stop
  | .clrerr => .clrerr
  | .seed => .seed f.idx f.a
  | .vrd => .vrd f.idx f.sel
  | .noteOn => .noteOn f.a f.b
  | .noteOff => .noteOff f.a
  | .render => .render f.a f.b

theorem Op.op_instrOf (o : Op) (f : Fields) : (o.instrOf f).op = o := by cases o <;> rfl

/-- R62: the fields that select a row are those of one of its commands, since the row's mask covers every field that the
command does not use. -/
theorem Op.fields_instrOf {o : Op} {f : Fields} (selects : wordOf f &&& o.mask = o.pattern) :
    (o.instrOf f).fields = f := by
  have op (x : BitVec 8) : x &&& 0xFF = x := BitVec.and_allOnes
  have operand (x : Word) : x &&& 0xFFFFFFFF = x := BitVec.and_allOnes
  obtain ⟨hop, hidx, hsel, hrsv, ha, hb⟩ := Op.and_mask_wordOf.1 selects
  obtain ⟨fop, fidx, fsel, frsv, fa, fb⟩ := f
  cases o <;> simp only [Op.maskFields, op, operand] at hop hidx hsel hrsv ha hb <;> subst_vars <;> rfl

theorem Op.decode_of_selects {o : Op} {w : CmdWord} (selects : w &&& o.mask = o.pattern) :
    decode w = .instr (o.instrOf (fieldsOf w)) := by
  rw [← wordOf_fieldsOf w] at selects
  refine Machine.decode_of_encode_eq ?_
  rw [encode, Op.fields_instrOf selects, wordOf_fieldsOf]

/-- Settles O3: a word that decodes selects its command's row, a word that selects a row holds a command of it, and no two
rows share an opcode byte. -/
theorem decodeFollowsOpcodeTable : Obligations.DecodeFollowsOpcodeTable := by
  refine fun w o => ⟨⟨?decoded, fun selects => ⟨_, Op.decode_of_selects selects, o.op_instrOf _⟩⟩, ?disjoint⟩
  case decoded =>
    rintro ⟨i, decoded, rfl⟩
    exact and_mask_of_decode decoded
  case disjoint =>
    intro o' selects selects'
    exact Op.opcode_injective ((and_mask_eq_pattern_iff.1 selects).1.symm.trans (and_mask_eq_pattern_iff.1 selects').1)

end Sys2Proof

/-! PROOFS. What a command, and a step, can do (`30_encoding.md` R66 to R68; `60_exceptions.md` R210, R228): take a fault,
or complete. The effects of the commands that complete are listed once, as a relation, and each statement about every
step is a case split over that list. -/

namespace Sys2Proof.Machine

/-! ### The commands that complete -/

/-- `Completes i s u data`: on `s` the command `i` completes; it leaves `u`, but for its response, which carries
`data`. -/
inductive Completes : Instr → State → State → Word → Prop where
  | cfgw {s : State} {r : CfgReg} {value : Word} (config : s.mode = .config) (writable : r.writable = true) :
    Completes (.cfgw r.number value) s (s.writeCfg r value) 0
  | cfgr {s : State} {r : CfgReg} : Completes (.cfgr r.number) s s (s.cfgValue r)
  | start {s : State} (config : s.mode = .config) (valid : s.configFault = none) :
    Completes .start s s.openRenderPath 0
  | stop {s : State} (running : s.mode = .run) : Completes .stop s { s with mode := .config } 0
  | clrerr {s : State} : Completes .clrerr s s.clearErr 0
  | seed {s : State} {voice : BitVec 8} {value : Word} (built : voice.toNat < s.build.maxVoices) (alive : value ≠ 0) :
    Completes (.seed voice value) s (s.setRng voice.toNat value) 0
  | vrd {s : State} {voice field : BitVec 8} {f : VoiceField} (built : voice.toNat < s.build.maxVoices)
    (named : voiceFieldOf field = some f) : Completes (.vrd voice field) s s (s.voiceFieldValue voice.toNat f)
  | noteOn {s : State} {note : Word} {velocity : F32} {i : Nat} (running : s.mode = .run)
    (chosen : noteOnTarget s.pool note = some i) : Completes (.noteOn note velocity) s (s.trigger i note velocity) 0
  | noteOff {s : State} {note : Word} (running : s.mode = .run) : Completes (.noteOff note) s (s.releaseAll note) 0
  | renderNothing {s : State} {frames base : Word} (running : s.mode = .run)
    (fits : renderNeed frames base s.cfg.channels ≤ s.build.obufWords) (silent : frames = 0 ∨ s.soundingSlots = []) :
    Completes (.render frames base) s s 0
  | render {s : State} {frames base : Word} {w : Waveform} (running : s.mode = .run)
    (fits : renderNeed frames base s.cfg.channels ≤ s.build.obufWords) (kind : waveformOf s.cfg.waveform = some w) :
    Completes (.render frames base) s (s.renderFrames w base.toNat frames.toNat 0) 0

/-- All that a command can answer: a fault's effect, or that of its completion. -/
theorem exec_next_cases {i : Instr} {s t : State} (h : exec i s = .next t) :
    (∃ c, t = s.raise c) ∨ ∃ u data, Completes i s u data ∧ t = u.respondOk data := by
  cases i with
  | cfgw reg value =>
    obtain ⟨config, r, found, writable, rfl⟩ | ⟨-, rfl⟩ | ⟨-, rfl⟩ := execCfgw_next h
    · obtain rfl := cfgRegOf_eq_some_iff.1 found
      exact .inr ⟨_, _, .cfgw config writable, rfl⟩
    · exact .inl ⟨_, rfl⟩
    · exact .inl ⟨_, rfl⟩
  | cfgr reg =>
    obtain ⟨r, found, rfl⟩ | ⟨-, rfl⟩ := execCfgr_next h
    · obtain rfl := cfgRegOf_eq_some_iff.1 found
      exact .inr ⟨_, _, .cfgr, rfl⟩
    · exact .inl ⟨_, rfl⟩
  | start =>
    obtain ⟨config, valid, rfl⟩ | ⟨-, c, -, rfl⟩ | ⟨-, rfl⟩ := execStart_next h
    · exact .inr ⟨_, _, .start config valid, rfl⟩
    · exact .inl ⟨_, rfl⟩
    · exact .inl ⟨_, rfl⟩
  | stop =>
    obtain ⟨running, rfl⟩ | ⟨-, rfl⟩ := execStop_next h
    · exact .inr ⟨_, _, .stop running, rfl⟩
    · exact .inl ⟨_, rfl⟩
  | clrerr => exact .inr ⟨_, _, .clrerr, execClrerr_next h⟩
  | seed voice value =>
    obtain ⟨-, rfl⟩ | ⟨-, -, rfl⟩ | ⟨built, alive, rfl⟩ := execSeed_next h
    · exact .inl ⟨_, rfl⟩
    · exact .inl ⟨_, rfl⟩
    · exact .inr ⟨_, _, .seed built alive, rfl⟩
  | vrd voice field =>
    obtain rfl | ⟨built, f, named, rfl⟩ := execVrd_next h
    · exact .inl ⟨_, rfl⟩
    · exact .inr ⟨_, _, .vrd built named, rfl⟩
  | noteOn note velocity =>
    obtain ⟨running, i, chosen, -, rfl⟩ | ⟨-, rfl⟩ := execNoteOn_next h
    · exact .inr ⟨_, _, .noteOn running chosen, rfl⟩
    · exact .inl ⟨_, rfl⟩
  | noteOff note =>
    obtain ⟨running, rfl⟩ | ⟨-, rfl⟩ := execNoteOff_next h
    · exact .inr ⟨_, _, .noteOff running, rfl⟩
    · exact .inl ⟨_, rfl⟩
  | render frames base =>
    obtain ⟨-, -, rfl⟩ | ⟨running, fits, silent, rfl⟩ | ⟨running, fits, w, kind, rfl⟩ | ⟨-, rfl⟩ := execRender_next h
    · exact .inl ⟨_, rfl⟩
    · exact .inr ⟨_, _, .renderNothing running fits silent, rfl⟩
    · exact .inr ⟨_, _, .render running fits kind, rfl⟩
    · exact .inl ⟨_, rfl⟩

/-! ### What every completion leaves unchanged -/

section
variable {i : Instr} {s u : State} {data : Word}

theorem Completes.build (h : Completes i s u data) : u.build = s.build := by cases h <;> simp

theorem Completes.queue (h : Completes i s u data) : u.queue = s.queue := by cases h <;> simp

theorem Completes.responses (h : Completes i s u data) : u.responses = s.responses := by cases h <;> simp

/-- R213: CLRERR is the only completion that writes a flag. -/
theorem Completes.flags (h : Completes i s u data) (other : i ≠ .clrerr) : u.err = s.err ∧ u.errcode = s.errcode := by
  cases h with
  | clrerr => exact absurd rfl other
  | _ => simp

/-- R67: only CFGR and VRD answer data. -/
theorem Completes.data_eq_zero (h : Completes i s u data) :
    data = 0 ∨ (∃ reg, i = .cfgr reg) ∨ ∃ voice field, i = .vrd voice field := by
  cases h with
  | cfgr => exact .inr (.inl ⟨_, rfl⟩)
  | vrd => exact .inr (.inr ⟨_, _, rfl⟩)
  | _ => exact .inl rfl

/-- R220: the two completions that write the mode. -/
theorem Completes.mode_cases (h : Completes i s u data) : u.mode = s.mode ∨
    (i = .start ∧ s.mode = .config ∧ u.mode = .run ∧ data = 0) ∨ (i = .stop ∧ s.mode = .run ∧ u.mode = .config ∧ data = 0) := by
  cases h with
  | start config => exact .inr (.inl ⟨rfl, config, rfl, rfl⟩)
  | stop running => exact .inr (.inr ⟨rfl, running, rfl, rfl⟩)
  | _ => exact .inl (by simp)

/-- R222: CFGW, which CONFIG alone allows, is the only completion that writes the configuration. -/
theorem Completes.cfg_of_run (h : Completes i s u data) (running : s.mode = .run) : u.cfg = s.cfg := by
  cases h with
  | cfgw config => exact absurd (running.symm.trans config) (by decide)
  | _ => simp

/-- R41: RENDER, which RUN alone allows, is the only completion that writes OBUF. -/
theorem Completes.obuf_cases (h : Completes i s u data) :
    u.obuf = s.obuf ∨ (s.mode = .run ∧ ∃ frames base, i = .render frames base) := by
  cases h with
  | render running => exact .inr ⟨running, _, _, rfl⟩
  | _ => exact .inl (by simp)

/-- R222, R183: in CONFIG the voice file and the counter are START's to write. -/
theorem Completes.voices_of_config (h : Completes i s u data) (config : s.mode = .config) :
    i = .start ∨ (u.voices = s.voices ∧ u.trigCtr = s.trigCtr) := by
  cases h with
  | start => exact .inl rfl
  | stop running | noteOn running | noteOff running | render running => exact absurd (config.symm.trans running) (by decide)
  | _ => exact .inr (by simp)

/-- R222: in CONFIG the random sources are SEED's to write. -/
theorem Completes.rng_of_config (h : Completes i s u data) (config : s.mode = .config) :
    u.rng = s.rng ∨ ∃ voice value, i = .seed voice value := by
  cases h with
  | seed => exact .inr ⟨_, _, rfl⟩
  | stop running | noteOn running | noteOff running | render running => exact absurd (config.symm.trans running) (by decide)
  | _ => exact .inl (by simp)

end

/-! ### A step -/

/-- All that a step can answer: the state held, a fault's effect, or that of a completion. -/
theorem step_next_cases {s t : State} (h : step s = .next t) :
    (s.queue = [] ∧ t = s) ∨ ∃ w rest, s.queue = w :: rest ∧
      ((∃ c, t = State.raise { s with queue := rest } c) ∨
        ∃ i u data, decode w = .instr i ∧ Completes i { s with queue := rest } u data ∧ t = u.respondOk data) := by
  obtain ⟨idle, held⟩ | ⟨w, rest, waiting, ⟨_, -, rejected⟩ | ⟨i, decoded, executed⟩⟩ := step_cases h
  · exact .inl ⟨idle, by simpa using held⟩
  · exact .inr ⟨w, rest, waiting, .inl ⟨_, by simpa using rejected⟩⟩
  · refine .inr ⟨w, rest, waiting, (exec_next_cases executed.symm).imp id ?_⟩
    rintro ⟨u, data, completes, rfl⟩
    exact ⟨i, u, data, decoded, completes, rfl⟩

/-- The same with the word that is taken named. -/
theorem step_next_cases_of_queue {s t : State} {w : CmdWord} {rest : List CmdWord} (waiting : s.queue = w :: rest)
    (h : step s = .next t) :
    (∃ c, t = State.raise { s with queue := rest } c) ∨
      ∃ i u data, decode w = .instr i ∧ Completes i { s with queue := rest } u data ∧ t = u.respondOk data := by
  obtain ⟨idle, -⟩ | ⟨v, tail, taken, outcome⟩ := step_next_cases h
  · exact absurd (waiting.symm.trans idle) (List.cons_ne_nil w rest)
  · obtain ⟨rfl, rfl⟩ := List.cons.inj (waiting.symm.trans taken)
    exact outcome

/-- Settles O6. -/
theorem stepRunsDecodedCommand : Obligations.StepRunsDecodedCommand := by
  refine fun s => ⟨fun idle => ?_, fun w rest i waiting decoded => ?_⟩
  · rw [step, State.takeCommand, idle]
  · rw [step, State.takeCommand, waiting]
    simp only [decoded]

/-! ### Response words (R67, R200) -/

theorem code_of_responseWord (code : BitVec 8) (data : Word) : (responseWord code data).extractLsb' 56 8 = code := by
  rw [responseWord, BitVec.extractLsb'_append_eq_of_le (by decide), BitVec.extractLsb'_append_eq_of_le (by decide)]
  exact BitVec.extractLsb'_eq_self

theorem responseWord_code_inj {c c' : BitVec 8} {d d' : Word} (same : responseWord c d = responseWord c' d') : c = c' := by
  rw [← code_of_responseWord c d, same, code_of_responseWord]

theorem FaultCode.code_ne_zero (c : FaultCode) : c.code ≠ 0 := by cases c <;> decide

/-- The codes of R200 are those of the nine faults and that of a completed command. -/
theorem FaultCode.code_mem (c : FaultCode) :
    c.code ∈ [0x00#8, 0x01#8, 0x02#8, 0x03#8, 0x04#8, 0x05#8, 0x06#8, 0x10#8, 0x11#8, 0x12#8] := by
  cases c <;> decide

/-- Settles O7: a fault and a completion each append one word; data come from CFGR and VRD only. -/
theorem oneResponsePerCommand : Obligations.OneResponsePerCommand := by
  intro s t w rest waiting stepped
  obtain ⟨c, rfl⟩ | ⟨i, u, data, decoded, completes, rfl⟩ := step_next_cases_of_queue waiting stepped
  · exact ⟨rfl, c.code, 0, rfl, c.code_mem, fun _ => rfl, fun data => absurd rfl data⟩
  · refine ⟨completes.queue, okCode, data, ?_, by decide, fun fault => absurd rfl fault, fun nonzero => ?_⟩
    · rw [State.respondOk_responses, completes.responses]; rfl
    · obtain zero | ⟨reg, rfl⟩ | ⟨voice, field, rfl⟩ := completes.data_eq_zero
      · exact absurd zero nonzero
      · exact .inl ⟨reg, decoded⟩
      · exact .inr ⟨voice, field, decoded⟩

/-- Settles O8: the code of the response tells a fault from a completion. -/
theorem faultChangesNothingElse : Obligations.FaultChangesNothingElse := by
  intro s t w rest code data waiting stepped answered
  change t.responses = s.responses ++ [responseWord code data] at answered
  obtain ⟨c, rfl⟩ | ⟨i, u, data', decoded, completes, rfl⟩ := step_next_cases_of_queue waiting stepped
  · rw [State.raise_responses, List.append_cancel_left_eq, List.singleton_inj] at answered
    obtain rfl := responseWord_code_inj answered
    exact ⟨fun _ => State.raise_eq_faulted _ c, fun ok => absurd ok c.code_ne_zero⟩
  · rw [State.respondOk_responses, completes.responses, List.append_cancel_left_eq, List.singleton_inj] at answered
    obtain rfl := responseWord_code_inj answered
    exact ⟨fun fault => absurd rfl fault, fun _ other => completes.flags fun same => other (same ▸ decoded)⟩

/-! ### Modes (R220, R222) -/

/-- Settles O18: of the steps, START and STOP write the mode when they complete. -/
theorem modeChangesOnlyByStartAndStop : Obligations.ModeChangesOnlyByStartAndStop := by
  refine ⟨fun s t stepped changed => ?_, State.hardwareReset_mode⟩
  obtain ⟨-, rfl⟩ | ⟨w, rest, waiting, ⟨c, rfl⟩ | ⟨i, u, data, decoded, completes, rfl⟩⟩ := step_next_cases stepped
  · exact absurd rfl changed
  · exact absurd rfl changed
  · refine ⟨w, rest, waiting, ?_⟩
    rw [State.respondOk_responses, completes.responses]
    obtain kept | ⟨rfl, config, run, rfl⟩ | ⟨rfl, running, config, rfl⟩ := completes.mode_cases
    · exact absurd kept changed
    · exact ⟨rfl, .inl ⟨decoded, config, run⟩⟩
    · exact ⟨rfl, .inr ⟨decoded, running, config⟩⟩

/-- Settles O19: what each completion writes, and the fault's effect on the flags. -/
theorem modesProtectState : Obligations.ModesProtectState := by
  intro s t stepped
  obtain ⟨-, rfl⟩ | ⟨w, rest, waiting, ⟨c, rfl⟩ | ⟨i, u, data, decoded, completes, rfl⟩⟩ := step_next_cases stepped
  · simp
  · exact ⟨fun _ => rfl, fun _ => rfl, fun _ _ => ⟨rfl, rfl⟩, fun _ changed => absurd rfl changed,
      fun _ => ⟨w, rest, waiting, .inr ⟨c.code, c.code_ne_zero, State.raise_eq_faulted _ c⟩⟩⟩
  · refine ⟨completes.cfg_of_run, fun config => ?obuf, fun config stays => ?voices, fun config changed => ?rng,
      fun changed => ⟨w, rest, waiting, .inl ?flags⟩⟩
    case obuf =>
      obtain kept | ⟨running, -⟩ := completes.obuf_cases
      · exact kept
      · exact absurd (config.symm.trans running) (by decide)
    case voices =>
      obtain rfl | kept := completes.voices_of_config config
      · cases completes; cases stays
      · exact kept
    case rng =>
      obtain kept | ⟨voice, seed, rfl⟩ := completes.rng_of_config config
      · exact absurd kept changed
      · exact ⟨w, rest, voice, seed, waiting, decoded⟩
    case flags =>
      by_contra other
      obtain ⟨err, errcode⟩ := completes.flags fun same => other (same ▸ decoded)
      exact changed.elim (absurd err) (absurd errcode)

end Sys2Proof.Machine

/-! PROOFS. The system commands STOP, SEED and VRD (`45_system_commands.md` R185, R188, R190), and the two stops of the
model (assumptions 8 and 9). -/

namespace Sys2Proof.Machine

/-! ### The form of a state -/

/-- What `State.formed` checks, one check each. -/
theorem State.formed_iff {s : State} : s.formed = true ↔ s.build.wf = true ∧ s.voices.length = s.build.maxVoices ∧
    s.rng.length = s.build.maxVoices ∧ s.obuf.wf = true ∧ s.obuf.within s.build.obufWords = true ∧
      s.queue.length ≤ s.build.queueDepth := by
  simp only [State.formed, Bool.and_eq_true, decide_eq_true_eq, and_assoc]

/-! ### STOP -/

/-- Settles O14. -/
theorem stopLeavesRun : Obligations.StopLeavesRun :=
  fun s => ⟨fun running => (inMode_of_eq running _).trans (next_respondOk { s with mode := .config } 0),
    fun config => inMode_eq_faulted (by simp [config]) _⟩

/-! ### SEED -/

theorem exec_seed_of_not_built {s : State} {voice : BitVec 8} (notBuilt : s.build.maxVoices ≤ voice.toNat)
    (seed : Word) : exec (.seed voice seed) s = .next (s.faulted 0x04) :=
  (if_pos notBuilt).trans (next_raise s .badIndex)

theorem exec_seed_zero {s : State} {voice : BitVec 8} (built : voice.toNat < s.build.maxVoices) :
    exec (.seed voice 0) s = .next (s.faulted 0x05) :=
  ((if_neg (Nat.not_le.2 built)).trans (if_pos rfl)).trans (next_raise s .badOperand)

theorem exec_seed_of_ne_zero {s : State} {voice : BitVec 8} {seed : Word} (built : voice.toNat < s.build.maxVoices)
    (alive : seed ≠ 0) : exec (.seed voice seed) s = .next ((s.setRng voice.toNat seed).answered 0) :=
  ((if_neg (Nat.not_le.2 built)).trans (if_neg alive)).trans (next_respondOk _ 0)

/-- Settles O16: the three cases of the checks; the store is that of one entry of the file. -/
theorem seedLoads : Obligations.SeedLoads := by
  refine fun s voice seed => ⟨fun notBuilt => exec_seed_of_not_built notBuilt seed, ?_, fun built alive formed => ?_⟩
  · rintro built rfl
    exact exec_seed_zero built
  · obtain ⟨-, -, length, -⟩ := State.formed_iff.1 formed
    exact ⟨_, exec_seed_of_ne_zero built alive, rfl, List.length_set,
      State.rngOf_setRng_same s (length ▸ built) seed, fun j other => State.rngOf_setRng_other s (Ne.symm other) seed⟩

/-! ### VRD -/

/-- The selector of a voice field (R190). -/
def VoiceField.selector : VoiceField → BitVec 8
  | .active => 0x00
  | .note => 0x01
  | .velocity => 0x02
  | .frequency => 0x03
  | .phaseLo => 0x04
  | .phaseHi => 0x05
  | .sampleRate => 0x06
  | .trigLo => 0x07
  | .trigHi => 0x08
  | .rng => 0x09

/-- The ten voice fields in the order of R190. -/
def VoiceField.all : List VoiceField :=
  [.active, .note, .velocity, .frequency, .phaseLo, .phaseHi, .sampleRate, .trigLo, .trigHi, .rng]

/-- One row of a table of numbers: it answers when the number is the row's, or leaves the answer to the rows after it. -/
theorem tableRow_eq_some {α : Type} {isRow : Prop} [Decidable isRow] {entry answer : α} {others : Option α}
    (found : (if isRow then some entry else others) = some answer) : (isRow ∧ entry = answer) ∨ others = some answer := by
  by_cases row : isRow
  · exact .inl ⟨row, Option.some.inj ((if_pos row).symm.trans found)⟩
  · exact .inr ((if_neg row).symm.trans found)

/-- R190: ten fields, each with its own selector. -/
theorem voiceFieldOf_eq_some_iff {sel : BitVec 8} {f : VoiceField} : voiceFieldOf sel = some f ↔ f.selector = sel := by
  constructor
  · intro found
    unfold voiceFieldOf at found
    iterate 10
      obtain ⟨rfl, rfl⟩ | found := tableRow_eq_some found
      · rfl
    cases found
  · rintro rfl
    cases f <;> rfl

theorem VoiceField.selector_le (f : VoiceField) : f.selector.toNat ≤ 0x09 := by cases f <;> decide

theorem voiceFieldOf_eq_none {sel : BitVec 8} (above : 0x09 < sel.toNat) : voiceFieldOf sel = none := by
  refine Option.eq_none_iff_forall_ne_some.2 fun f found => ?_
  have := f.selector_le
  rw [voiceFieldOf_eq_some_iff.1 found] at this
  omega

theorem exec_vrd_selector {s : State} {voice : BitVec 8} (built : voice.toNat < s.build.maxVoices) (f : VoiceField) :
    exec (.vrd voice f.selector) s = .next (s.answered (s.voiceFieldValue voice.toNat f)) := by
  rw [← next_respondOk]
  refine (if_neg (Nat.not_le.2 built)).trans ?_
  rw [voiceFieldOf_eq_some_iff.2 rfl]

theorem exec_vrd_of_bad_index {s : State} {voice field : BitVec 8}
    (bad : s.build.maxVoices ≤ voice.toNat ∨ 0x09 < field.toNat) :
    exec (.vrd voice field) s = .next (s.faulted 0x04) := by
  refine Eq.trans ?_ (next_raise s .badIndex)
  show execVrd voice field s = _
  unfold execVrd
  split_ifs with notBuilt
  · rfl
  · rw [voiceFieldOf_eq_none (bad.resolve_left notBuilt)]

/-- The lower half of a 64-bit field. -/
theorem extractLsb'_low (x : BitVec 64) : x.extractLsb' 0 32 = BitVec.ofNat 32 (x.toNat % 2 ^ 32) := by
  refine BitVec.eq_of_toNat_eq ?_
  rw [BitVec.extractLsb'_toNat, Nat.shiftRight_zero, BitVec.toNat_ofNat, Nat.mod_mod]

/-- The upper half of a 64-bit field. -/
theorem extractLsb'_high (x : BitVec 64) : x.extractLsb' 32 32 = BitVec.ofNat 32 (x.toNat / 2 ^ 32) := by
  refine BitVec.eq_of_toNat_eq ?_
  rw [BitVec.extractLsb'_toNat, Nat.shiftRight_eq_div_pow, BitVec.toNat_ofNat]

/-- ACTIVE is read as 0 or 1. -/
theorem setWidth_ofBool (b : Bool) : (BitVec.ofBool b).setWidth 32 = if b then 1#32 else 0#32 := by cases b <;> rfl

/-- Settles O17: each row of the table is a field at its selector. -/
theorem vrdReads : Obligations.VrdReads := by
  refine fun s voice => ⟨fun field bad => exec_vrd_of_bad_index bad, fun v built slot field data row => ?_⟩
  have read : s.voice voice.toNat = v := by rw [State.voice, List.getD_eq_getElem?_getD, slot, Option.getD_some]
  rw [← extractLsb'_low, ← extractLsb'_high, ← extractLsb'_low, ← extractLsb'_high, ← setWidth_ofBool, ← read] at row
  change (field, data) ∈ VoiceField.all.map fun f => (f.selector, s.voiceFieldValue voice.toNat f) at row
  obtain ⟨f, -, atRow⟩ := List.mem_map.1 row
  obtain ⟨rfl, rfl⟩ := Prod.mk.inj atRow
  exact exec_vrd_selector built f

/-! ### The slots that sound, and the two stops of the model -/

/-- The slots that a RENDER ticks are those of R170; a slot that is not built does not sound. -/
theorem State.mem_soundingSlots_iff {s : State} {i : Nat} : i ∈ s.soundingSlots ↔ s.soundsAt i := by
  rw [State.mem_soundingSlots]
  refine ⟨fun ⟨⟨below, _⟩, active⟩ => ⟨below, active⟩, fun ⟨below, active⟩ => ⟨⟨below, ?_⟩, active⟩⟩
  by_contra notBuilt
  rw [s.voice_of_length_le (Nat.not_lt.1 notBuilt)] at active
  cases active

theorem State.soundingSlots_eq_nil_iff {s : State} : s.soundingSlots = [] ↔ ∀ i, ¬ s.soundsAt i := by
  simp only [List.eq_nil_iff_forall_not_mem, State.mem_soundingSlots_iff]

theorem State.pool_eq_nil {s : State} (none : s.cfg.voiceCount = 0) : s.pool = [] := by
  rw [State.pool, State.voiceLimit, none]; rfl

theorem waveformOf_eq_none {w : Word} (above : 4 < w.toNat) : waveformOf w = none := by
  refine Option.eq_none_iff_forall_ne_some.2 fun k named => ?_
  unfold waveformOf at named
  iterate 5
    obtain ⟨rfl, -⟩ | named := tableRow_eq_some named
    · exact absurd above (by decide)
  cases named

/-- Settles O29: an empty pool has no slot to choose, and no waveform has a selector above 4. -/
theorem unreachableStops : Obligations.UnreachableStops := by
  refine fun s running => ⟨fun empty note velocity => ?noteOn, fun above frames base notZero sounds fits => ?render⟩
  case noteOn =>
    refine (inMode_of_eq running _).trans ?_
    rw [State.dispatchNoteOn, State.pool_eq_nil empty]
    rfl
  case render =>
    have evaluates : ¬ (frames = 0 ∨ s.soundingSlots = []) := by
      rw [State.soundingSlots_eq_nil_iff, not_or, not_forall_not]
      exact ⟨notZero, sounds⟩
    refine (inMode_of_eq running _).trans ?_
    have inRange : ¬ s.build.obufWords < renderNeed frames base s.cfg.channels := Nat.not_lt.2 fits
    rw [State.renderBlock, if_neg inRange, if_neg evaluates, waveformOf_eq_none above]

end Sys2Proof.Machine

/-! PROOFS. RENDER (`44_pool_mixer.md` R170 to R174; `43_voice.md` R144 to R146; `70_reset_and_hazards.md` R230): the voice
file, the random sources and OBUF after any number of frames, in closed form; from that the frame of a RENDER, the sum in
each of its cells, the split into two, and the cells that a reset in its midst leaves. -/

namespace Sys2Proof.Machine

/-! ### The phase and the random source of a slot, tick by tick -/

/-- R146: one more tick advances the phase once more. -/
theorem Voice.advance_phaseAfter (v : Voice) (n : Nat) :
    Voice.advance { v with phase := v.phaseAfter n } = { v with phase := v.phaseAfter (n + 1) } := by
  rw [Voice.phaseAfter, Voice.phaseAfter, Function.iterate_succ_apply']
  rfl

/-- What one evaluation does to a random source (R129): Noise draws, the other waveforms leave it. -/
def sourceStep (b : Build) (w : Waveform) (r : Word) : Word :=
  match w with
  | .noise => (rngNext b.rng r).1
  | .sine => r
  | .square => r
  | .triangle => r
  | .sawtooth => r

theorem evaluate_source (b : Build) (w : Waveform) (p g : F32) (r : Word) :
    (evaluate b w p g r).2 = sourceStep b w r := by
  cases w <;> rfl

theorem sourceStep_of_ne_noise {b : Build} {w : Waveform} (silent : w ≠ .noise) (r : Word) : sourceStep b w r = r := by
  cases w with
  | noise => exact absurd rfl silent
  | _ => rfl

theorem iterate_sourceStep_of_ne_noise {b : Build} {w : Waveform} (silent : w ≠ .noise) (n : Nat) (r : Word) :
    (sourceStep b w)^[n] r = r :=
  Function.iterate_fixed (sourceStep_of_ne_noise silent r) n

theorem iterate_sourceStep_noise (b : Build) (n : Nat) (r : Word) :
    (sourceStep b .noise)^[n] r = sourceAfter b.rng r n := rfl

/-- Only Noise hears the random source. -/
theorem evaluate_iterate_sourceStep (b : Build) (w : Waveform) (p g : F32) (n : Nat) (r : Word) :
    (evaluate b w p g ((sourceStep b w)^[n] r)).1 = (evaluate b w p g (sourceAfter b.rng r n)).1 := by
  cases w <;> rfl

theorem evaluateTimes_source (b : Build) (w : Waveform) (p g : F32) (n : Nat) (r : Word) :
    (evaluateTimes b w p g n r).2 = (sourceStep b w)^[n] r := by
  induction n generalizing r with
  | zero => rfl
  | succ n ih => rw [evaluateTimes, ih, evaluate_source, Function.iterate_succ_apply]

/-- The `c`-th of `n` evaluations in a row comes after `c` draws (R172). -/
theorem evaluateTimes_getD (b : Build) (w : Waveform) (p g : F32) {n c : Nat} (below : c < n) (r : Word) :
    (evaluateTimes b w p g n r).1.getD c 0 = (evaluate b w p g ((sourceStep b w)^[c] r)).1 := by
  induction n generalizing c r with
  | zero => omega
  | succ n ih =>
    rw [evaluateTimes, evaluate_source]
    cases c with
    | zero => rfl
    | succ c =>
      rw [List.getD_cons_succ, ih (Nat.lt_of_succ_lt_succ below), Function.iterate_succ_apply]

/-- How often a slot's source is drawn from in one frame, and before channel `c` of it (R172). -/
def State.drawsInFrame (s : State) (w : Waveform) : Nat := if s.drawsPerChannel w then s.cfg.channels.toNat else 1

/-- Draws before channel `c` within a frame (R172). -/
def State.drawsBeforeChannel (s : State) (w : Waveform) (c : Nat) : Nat := if s.drawsPerChannel w then c else 0

theorem State.sampleSlot_source (s : State) (w : Waveform) (i : Nat) (v : Voice) :
    (s.sampleSlot w i v).2 = (sourceStep s.build w)^[s.drawsInFrame w] (s.rngOf i) := by
  rw [State.sampleSlot, State.drawsInFrame]
  split_ifs
  · exact evaluateTimes_source _ _ _ _ _ _
  · exact evaluate_source _ _ _ _ _

theorem State.sampleSlot_at (s : State) (w : Waveform) (i : Nat) (v : Voice) {c : Nat} (below : c < s.cfg.channels.toNat) :
    (s.sampleSlot w i v).1.at c = (evaluate s.build w (narrow v.phase) s.cfg.gain
      ((sourceStep s.build w)^[s.drawsBeforeChannel w c] (s.rngOf i))).1 := by
  rw [State.sampleSlot, State.drawsBeforeChannel]
  split_ifs
  · exact evaluateTimes_getD _ _ _ _ below _
  · rfl

/-- The samples and the next source of a slot depend on the build, the configuration and the slot's source alone. -/
theorem State.sampleSlot_congr {s t : State} {w : Waveform} {i : Nat} {v : Voice} (build : t.build = s.build)
    (cfg : t.cfg = s.cfg) (source : t.rngOf i = s.rngOf i) : t.sampleSlot w i v = s.sampleSlot w i v := by
  rw [State.sampleSlot, State.sampleSlot, State.drawsPerChannel, State.drawsPerChannel, build, cfg, source]

theorem State.drawsInFrame_congr {s t : State} {w : Waveform} (build : t.build = s.build) (cfg : t.cfg = s.cfg) :
    t.drawsInFrame w = s.drawsInFrame w := by
  rw [State.drawsInFrame, State.drawsInFrame, State.drawsPerChannel, State.drawsPerChannel, build, cfg]

/-! ### The ticks of one frame -/

/-- Storing in an entry what it holds changes nothing, in the file or beyond its end. -/
theorem set_getD_self {α : Type} (l : List α) (i : Nat) (d : α) : l.set i (l.getD i d) = l := by
  rcases Nat.lt_or_ge i l.length with inside | beyond
  · rw [List.getD_eq_getElem l d inside, List.set_getElem_self inside]
  · exact List.set_eq_of_length_le beyond

theorem State.tickSlots_rng_of_ne_noise (s : State) {w : Waveform} (silent : w ≠ .noise) (is : List Nat) :
    (s.tickSlots w is).1.rng = s.rng := by
  induction is generalizing s with
  | nil => rfl
  | cons i is ih =>
    rw [State.tickSlots, ih, State.tick_rng, State.sampleSlot_source, iterate_sourceStep_of_ne_noise silent,
      State.rngOf, set_getD_self]

theorem State.tickSlots_rngOf_other (s : State) (w : Waveform) {is : List Nat} {j : Nat} (other : j ∉ is) :
    (s.tickSlots w is).1.rngOf j = s.rngOf j := by
  induction is generalizing s with
  | nil => rfl
  | cons i is ih =>
    obtain ⟨ne, rest⟩ := not_or.1 (mt List.mem_cons.2 other)
    rw [State.tickSlots, ih _ rest]
    exact State.rngOf_setRng_other _ (Ne.symm ne) _

/-- All that the ticks of a frame do to the random sources: those of the slots listed are drawn from. -/
theorem State.tickSlots_rngOf (s : State) (w : Waveform) {is : List Nat} (nodup : is.Nodup)
    (built : ∀ i ∈ is, i < s.rng.length) (j : Nat) :
    (s.tickSlots w is).1.rngOf j =
      if j ∈ is then (sourceStep s.build w)^[s.drawsInFrame w] (s.rngOf j) else s.rngOf j := by
  induction is generalizing s with
  | nil => rfl
  | cons i is ih =>
    obtain ⟨fresh, nodup⟩ := List.nodup_cons.1 nodup
    obtain ⟨builtHere, built⟩ := List.forall_mem_cons.1 built
    by_cases here : j = i
    · subst here
      rw [State.tickSlots, State.tickSlots_rngOf_other _ w fresh, if_pos List.mem_cons_self, ← State.sampleSlot_source]
      exact State.rngOf_setRng_same _ builtHere _
    · have elsewhere : (s.tick w i).1.rngOf j = s.rngOf j := State.rngOf_setRng_other _ (Ne.symm here) _
      have listed : j ∈ i :: is ↔ j ∈ is := by simp [here]
      rw [State.tickSlots, ih _ nodup (fun k hk => by simpa using built k hk), elsewhere, State.tick_build,
        State.drawsInFrame_congr (s.tick_build w i) (s.tick_cfg w i)]
      simp only [listed]

/-- The samples of a frame, slot by slot (R170): each slot ticks on a state in which neither its voice nor its source has
changed in this frame. -/
theorem State.tickSlots_samples (s : State) (w : Waveform) {is : List Nat} (nodup : is.Nodup) :
    (s.tickSlots w is).2 = is.map fun i => (s.sampleSlot w i (s.voice i).advance).1 := by
  induction is generalizing s with
  | nil => rfl
  | cons i is ih =>
    obtain ⟨fresh, nodup⟩ := List.nodup_cons.1 nodup
    rw [State.tickSlots, ih _ nodup, List.map_cons]
    refine congrArg₂ _ rfl (List.map_congr_left fun k hk => ?_)
    have ne : i ≠ k := fun same => fresh (same ▸ hk)
    have source : (s.tick w i).1.rngOf k = s.rngOf k := State.rngOf_setRng_other _ ne _
    rw [State.tick_voice_other s w ne, State.sampleSlot_congr (s.tick_build w i) (s.tick_cfg w i) source]

/-! ### Frames -/

theorem State.renderFrame_of_silent {s : State} (silent : s.soundingSlots = []) (w : Waveform) (base f : Nat) :
    s.renderFrame w base f = s := by
  rw [State.renderFrame_eq, if_pos silent]

theorem State.renderFrames_of_silent {s : State} (silent : s.soundingSlots = []) (w : Waveform) (base n f : Nat) :
    s.renderFrames w base n f = s := by
  induction n generalizing f with
  | zero => rfl
  | succ n ih => rw [State.renderFrames, State.renderFrame_of_silent silent, ih]

/-- Blocks of frames follow one another. -/
theorem State.renderFrames_add (s : State) (w : Waveform) (base m n f : Nat) :
    s.renderFrames w base (m + n) f = (s.renderFrames w base m f).renderFrames w base n (f + m) := by
  induction n with
  | zero => rfl
  | succ n ih => rw [← Nat.add_assoc, State.renderFrames_succ, State.renderFrames_succ, ih, Nat.add_assoc]

theorem State.renderFrame_rng_of_ne_noise (s : State) {w : Waveform} (silent : w ≠ .noise) (base f : Nat) :
    (s.renderFrame w base f).rng = s.rng := by
  rw [State.renderFrame_eq]
  split_ifs
  · rfl
  · rw [State.mixChannels_rng, State.tickSlots_rng_of_ne_noise s silent]

theorem State.renderFrames_rng_of_ne_noise (s : State) {w : Waveform} (silent : w ≠ .noise) (base n f : Nat) :
    (s.renderFrames w base n f).rng = s.rng := by
  induction n generalizing s f with
  | zero => rfl
  | succ n ih => rw [State.renderFrames, ih, State.renderFrame_rng_of_ne_noise s silent]

theorem State.renderFrame_rngOf_other (s : State) (w : Waveform) (base f : Nat) {j : Nat} (idle : j ∉ s.soundingSlots) :
    (s.renderFrame w base f).rngOf j = s.rngOf j := by
  rw [State.renderFrame_eq]
  split_ifs
  · rfl
  · rw [State.rngOf, State.mixChannels_rng]
    exact State.tickSlots_rngOf_other s w idle

theorem State.renderFrames_rngOf_other (s : State) (w : Waveform) (base n f : Nat) {j : Nat} (idle : j ∉ s.soundingSlots) :
    (s.renderFrames w base n f).rngOf j = s.rngOf j := by
  induction n generalizing s f with
  | zero => rfl
  | succ n ih =>
    rw [State.renderFrames, ih _ _ (by rwa [State.renderFrame_soundingSlots]), State.renderFrame_rngOf_other s w base f idle]

theorem State.renderFrame_rngOf (s : State) (w : Waveform) (base f : Nat) {j : Nat} (sounds : j ∈ s.soundingSlots)
    (sources : s.rng.length = s.voices.length) :
    (s.renderFrame w base f).rngOf j = (sourceStep s.build w)^[s.drawsInFrame w] (s.rngOf j) := by
  have built (i : Nat) (hi : i ∈ s.soundingSlots) : i < s.rng.length :=
    sources ▸ ((State.mem_soundingSlots s i).1 hi).1.2
  rw [State.renderFrame_eq, if_neg (List.ne_nil_of_mem sounds), State.rngOf, State.mixChannels_rng]
  exact (State.tickSlots_rngOf s w s.soundingSlots_nodup built j).trans (if_pos sounds)

/-- R129, R172: the source of a sounding slot after `n` frames. -/
theorem State.renderFrames_rngOf (s : State) (w : Waveform) (base n f : Nat) {j : Nat} (sounds : j ∈ s.soundingSlots)
    (sources : s.rng.length = s.voices.length) :
    (s.renderFrames w base n f).rngOf j = (sourceStep s.build w)^[n * s.drawsInFrame w] (s.rngOf j) := by
  induction n with
  | zero => rw [Nat.zero_mul]; rfl
  | succ n ih =>
    rw [State.renderFrames_succ, State.renderFrame_rngOf _ w base _ (by rwa [State.renderFrames_soundingSlots])
      (by rw [State.renderFrames_rng_length, State.renderFrames_voices_length, sources]), ih, Nat.succ_mul, Nat.add_comm,
      Function.iterate_add_apply, State.renderFrames_build,
      State.drawsInFrame_congr (s.renderFrames_build w base n f) (s.renderFrames_cfg w base n f)]

/-- R145, R146: the voice of a sounding slot after `n` frames. -/
theorem State.renderFrames_voice (s : State) (w : Waveform) (base n f : Nat) {j : Nat} (sounds : j ∈ s.soundingSlots) :
    (s.renderFrames w base n f).voice j = { s.voice j with phase := (s.voice j).phaseAfter n } := by
  induction n with
  | zero => rfl
  | succ n ih =>
    rw [State.renderFrames_succ, State.renderFrame_voice, if_pos (by rwa [State.renderFrames_soundingSlots]), ih,
      Voice.advance_phaseAfter]

theorem State.renderFrames_voice_other (s : State) (w : Waveform) (base n f : Nat) {j : Nat} (idle : j ∉ s.soundingSlots) :
    (s.renderFrames w base n f).voice j = s.voice j := by
  induction n with
  | zero => rfl
  | succ n ih => rw [State.renderFrames_succ, State.renderFrame_voice, if_neg (by rwa [State.renderFrames_soundingSlots]), ih]

/-- A RENDER does not start or stop a voice. -/
theorem State.renderFrames_voice_active (s : State) (w : Waveform) (base n f j : Nat) :
    ((s.renderFrames w base n f).voice j).active = (s.voice j).active := by
  by_cases sounds : j ∈ s.soundingSlots
  · rw [State.renderFrames_voice s w base n f sounds]
  · rw [State.renderFrames_voice_other s w base n f sounds]

/-! ### OBUF after a block of frames -/

theorem State.renderFrames_readByte_other (s : State) (w : Waveform) (base n f x : Nat)
    (outside : x / 4 < base + f * s.cfg.channels.toNat ∨ base + (f + n) * s.cfg.channels.toNat ≤ x / 4) :
    (s.renderFrames w base n f).obuf.readByte x = s.obuf.readByte x := by
  induction n with
  | zero => rfl
  | succ n ih =>
    have first := Nat.mul_le_mul_right s.cfg.channels.toNat (Nat.le_add_right f n)
    have last := Nat.mul_le_mul_right s.cfg.channels.toNat (Nat.le_succ (f + n))
    rw [State.renderFrames_succ, State.renderFrame_readByte_other, ih]
    · exact outside.imp id fun above => (Nat.add_le_add_left last base).trans above
    · rw [State.renderFrames_cfg]
      exact outside.imp (fun below => below.trans_le (Nat.add_le_add_left first base)) id

theorem State.renderFrames_memRead_other (s : State) (w : Waveform) (base n f a : Nat)
    (outside : a < base + f * s.cfg.channels.toNat ∨ base + (f + n) * s.cfg.channels.toNat ≤ a) :
    (s.renderFrames w base n f).memRead a = s.memRead a :=
  Memory.readCell_congr fun x hx => s.renderFrames_readByte_other w base n f x (hx ▸ outside)

/-- The samples of the sounding slots for frame `f`. -/
def State.frameSamples (s : State) (w : Waveform) (base f : Nat) : List Samples :=
  ((s.renderFrames w base f 0).tickSlots w s.soundingSlots).2

/-- R171: a cell of frame `f` is written in that frame alone, over its content before the RENDER. -/
theorem State.renderFrames_memRead (s : State) (w : Waveform) (base : Nat) {n f c : Nat} (canonical : s.obuf.wf = true)
    (inFrame : f < n) (inChannels : c < s.cfg.channels.toNat) :
    (s.renderFrames w base n 0).memRead (base + f * s.cfg.channels.toNat + c) =
      mixCell (s.frameSamples w base f) c (s.memRead (base + f * s.cfg.channels.toNat + c)) := by
  obtain ⟨later, rfl⟩ : ∃ later, n = f + 1 + later := Nat.exists_eq_add_of_le inFrame
  have cellEnd : (f + 1) * s.cfg.channels.toNat = f * s.cfg.channels.toNat + s.cfg.channels.toNat := Nat.succ_mul _ _
  have earlier : (s.renderFrames w base f 0).memRead (base + f * s.cfg.channels.toNat + c) =
      s.memRead (base + f * s.cfg.channels.toNat + c) :=
    State.renderFrames_memRead_other s w base f 0 _ (.inr (by rw [Nat.zero_add]; exact Nat.le_add_right _ _))
  rw [State.renderFrames_add, State.renderFrames_memRead_other _ w base later _ _
    (by rw [State.renderFrames_cfg, Nat.zero_add]; omega), State.renderFrames_succ, Nat.zero_add,
    State.renderFrame_eq, State.renderFrames_soundingSlots]
  split_ifs with silent
  · rw [State.frameSamples, silent, earlier]
    rfl
  · rw [State.renderFrames_cfg]
    refine (State.mixChannels_readCell _ _ (base + f * s.cfg.channels.toNat) s.cfg.channels.toNat 0 c ?_
      ⟨Nat.zero_le c, by omega⟩).trans ?_
    · rw [State.tickSlots_obuf]; exact State.renderFrames_wf s w base f 0 canonical
    · rw [State.frameSamples, State.memRead, State.tickSlots_obuf]
      exact congrArg _ earlier

/-! ### What a RENDER answers -/

/-- With a supported waveform a RENDER is its frames, none of which does anything while no slot sounds. -/
theorem exec_render_of_kind {s : State} {frames base : Word} {w : Waveform} (running : s.mode = .run)
    (fits : renderNeed frames base s.cfg.channels ≤ s.build.obufWords) (kind : waveformOf s.cfg.waveform = some w) :
    exec (.render frames base) s = .next ((s.renderFrames w base.toNat frames.toNat 0).answered 0) := by
  rw [← next_respondOk]
  refine (inMode_of_eq running _).trans ?_
  rw [State.renderBlock, if_neg (Nat.not_lt.2 fits), kind]
  split_ifs with silent
  · obtain rfl | none := silent
    · rfl
    · rw [State.renderFrames_of_silent none]
  · rfl

/-- R174 (a), (c). -/
theorem exec_render_of_silent {s : State} {frames base : Word} (running : s.mode = .run)
    (fits : renderNeed frames base s.cfg.channels ≤ s.build.obufWords) (silent : frames = 0 ∨ s.soundingSlots = []) :
    exec (.render frames base) s = .next (s.answered 0) := by
  rw [← next_respondOk]
  refine (inMode_of_eq running _).trans ?_
  rw [State.renderBlock, if_neg (Nat.not_lt.2 fits), if_pos silent]

/-- A RENDER in range that answers a next state has a supported waveform or nothing to evaluate. -/
theorem kind_or_silent_of_exec_render {s t : State} {frames base : Word} (running : s.mode = .run)
    (fits : renderNeed frames base s.cfg.channels ≤ s.build.obufWords) (rendered : exec (.render frames base) s = .next t) :
    (∃ w, waveformOf s.cfg.waveform = some w) ∨ frames = 0 ∨ s.soundingSlots = [] := by
  obtain ⟨-, tooLarge, -⟩ | ⟨-, -, silent, -⟩ | ⟨-, -, w, kind, -⟩ | ⟨notRunning, -⟩ := execRender_next rendered
  · exact absurd tooLarge (Nat.not_lt.2 fits)
  · exact .inr silent
  · exact .inl ⟨w, kind⟩
  · exact absurd running notRunning

/-- Settles O27. -/
theorem silentRenderChangesNothing : Obligations.SilentRenderChangesNothing :=
  fun _ _ _ running fits silent =>
    exec_render_of_silent running fits (silent.imp id State.soundingSlots_eq_nil_iff.2)

/-- The kind of a waveform register is Noise exactly at selector 4 (R23). -/
theorem kind_eq_noise_iff {x : Word} {w : Waveform} (kind : waveformOf x = some w) : w = .noise ↔ x = 4 := by
  unfold waveformOf at kind
  iterate 5
    obtain ⟨rfl, rfl⟩ | kind := tableRow_eq_some kind
    · decide
  cases kind

/-- Settles O25: the closed forms of the voices, the sources and the bytes after the RENDER's frames. -/
theorem renderCompletes : Obligations.RenderCompletes := by
  intro s frames base formed running supported fits
  obtain ⟨-, voices, sources, -⟩ := State.formed_iff.1 formed
  obtain ⟨w, kind⟩ := waveformOf_isSome supported
  have noise := kind_eq_noise_iff kind
  refine ⟨_, exec_render_of_kind running fits kind, ?whole, s.renderFrames_voices_length w _ _ _,
    s.renderFrames_rng_length w _ _ _, fun i sounds => ?voice, fun i idle => ?idle, fun other => ?sourcesKept,
    fun selected i sounds => ?source, fun x outside => ?bytes⟩
  case whole =>
    rw [State.answered, State.answered, State.mk.injEq]
    simp
  case voice => exact s.renderFrames_voice w _ _ _ (State.mem_soundingSlots_iff.2 sounds)
  case idle =>
    rw [← State.mem_soundingSlots_iff] at idle
    exact ⟨s.renderFrames_voice_other w _ _ _ idle, s.renderFrames_rngOf_other w _ _ _ idle⟩
  case sourcesKept => exact s.renderFrames_rng_of_ne_noise (mt noise.1 other) _ _ _
  case source =>
    obtain rfl := noise.2 selected
    refine (s.renderFrames_rngOf .noise _ _ _ (State.mem_soundingSlots_iff.2 sounds) (sources.trans voices.symm)).trans ?_
    rw [iterate_sourceStep_noise, State.drawsInFrame, State.drawsPerChannel]
    cases s.build.noisePerChannel <;> simp
  case bytes =>
    obtain below | above | silent := outside
    · exact s.renderFrames_readByte_other w _ _ _ x (.inl (by omega))
    · exact s.renderFrames_readByte_other w _ _ _ x (.inr (by rwa [Nat.zero_add]))
    · rw [State.renderFrames_of_silent (State.soundingSlots_eq_nil_iff.2 silent)]; rfl

/-! ### The sum in a cell (R171) -/

/-- The slots of R170 in ascending order are those the RENDER ticks: the slots that are not built do not sound. -/
theorem State.sounding_eq_soundingSlots (s : State) : s.sounding = s.soundingSlots := by
  rw [State.sounding, State.soundingSlots, State.pool, List.length_take, State.voiceLimit]
  rcases Nat.le_total s.cfg.voiceCount.toNat s.voices.length with built | beyond
  · rw [Nat.min_eq_left built]
  · obtain ⟨k, hk⟩ := Nat.exists_eq_add_of_le beyond
    rw [Nat.min_eq_right beyond, hk, List.range_add, List.filter_append, List.append_right_eq_self, List.filter_eq_nil_iff]
    intro i hi
    obtain ⟨j, -, rfl⟩ := List.mem_map.1 hi
    rw [State.voice_of_length_le s (Nat.le_add_right _ j)]
    exact Bool.false_ne_true

/-- R144, R146, R172: the sample of a sounding slot for frame `f` and channel `c`. -/
theorem State.sampleSlot_renderFrames (s : State) (w : Waveform) (base f c : Nat) {i : Nat} (sounds : i ∈ s.soundingSlots)
    (sources : s.rng.length = s.voices.length) (inChannels : c < s.cfg.channels.toNat) :
    ((s.renderFrames w base f 0).sampleSlot w i ((s.renderFrames w base f 0).voice i).advance).1.at c =
      s.sampleAt w i f (s.drawsBefore f c) := by
  have phase : ((s.renderFrames w base f 0).voice i).advance.phase = (s.voice i).phaseAfter (f + 1) := by
    rw [s.renderFrames_voice w base f 0 sounds, Voice.advance_phaseAfter]
  rw [State.sampleSlot_at _ w i _ (by rwa [State.renderFrames_cfg]), phase, State.renderFrames_build, State.renderFrames_cfg,
    s.renderFrames_rngOf w base f 0 sounds sources, ← Function.iterate_add_apply, evaluate_iterate_sourceStep, State.sampleAt]
  have draws : w = .noise →
      (s.renderFrames w base f 0).drawsBeforeChannel w c + f * s.drawsInFrame w = s.drawsBefore f c := by
    rintro rfl
    rw [State.drawsBeforeChannel, State.drawsInFrame, State.drawsPerChannel, State.drawsPerChannel,
      State.renderFrames_build, State.drawsBefore]
    cases s.build.noisePerChannel <;> simp [Nat.add_comm]
  cases w with
  | noise => rw [draws rfl]
  | _ => rfl

/-- Settles O26: the cell is written in its own frame, over its old content. -/
theorem renderCellSum : Obligations.RenderCellSum := by
  intro s t w frames base formed running kind fits rendered f c inFrame inChannels
  obtain ⟨-, voices, sources, canonical, -⟩ := State.formed_iff.1 formed
  obtain rfl := Host.Outcome.next.inj ((exec_render_of_kind running fits kind).symm.trans rendered)
  refine (s.renderFrames_memRead w base.toNat canonical inFrame inChannels).trans ?_
  rw [mixCell, State.frameSamples, State.tickSlots_samples _ w s.soundingSlots_nodup, List.foldl_map,
    s.sounding_eq_soundingSlots]
  refine List.foldl_ext _ _ _ fun acc i sounds => ?_
  rw [s.sampleSlot_renderFrames w _ f c sounds (sources.trans voices.symm) inChannels]

/-! ### Fields that no frame reads -/

/-- The flags, the queue and the responses replaced: what the rendering of frames neither reads nor writes. -/
def State.withLog (s : State) (err : Bool) (errcode : BitVec 8) (queue : List CmdWord) (responses : List RespWord) :
    State :=
  { s with err := err, errcode := errcode, queue := queue, responses := responses }

section
variable (s : State) (w : Waveform) (e : Bool) (c : BitVec 8) (q : List CmdWord) (r : List RespWord)

theorem State.tickSlots_withLog (is : List Nat) :
    (s.withLog e c q r).tickSlots w is = ((s.tickSlots w is).1.withLog e c q r, (s.tickSlots w is).2) := by
  induction is generalizing s with
  | nil => rfl
  | cons i is ih =>
    have tick : (s.withLog e c q r).tick w i = ((s.tick w i).1.withLog e c q r, (s.tick w i).2) := rfl
    simp only [State.tickSlots, tick, ih]

theorem State.mixChannels_withLog (ys : List Samples) (a n k : Nat) :
    (s.withLog e c q r).mixChannels ys a n k = (s.mixChannels ys a n k).withLog e c q r := by
  induction n generalizing s k with
  | zero => rfl
  | succ n ih => exact ih (s.memWrite (a + k) (mixCell ys k (s.memRead (a + k)))) (k + 1)

theorem State.renderFrame_withLog (base f : Nat) :
    (s.withLog e c q r).renderFrame w base f = (s.renderFrame w base f).withLog e c q r := by
  have slots : (s.withLog e c q r).soundingSlots = s.soundingSlots := rfl
  rw [State.renderFrame_eq, State.renderFrame_eq, slots, State.tickSlots_withLog, State.mixChannels_withLog]
  split_ifs <;> rfl

theorem State.renderFrames_withLog (base n f : Nat) :
    (s.withLog e c q r).renderFrames w base n f = (s.renderFrames w base n f).withLog e c q r := by
  induction n generalizing s f with
  | zero => rfl
  | succ n ih => rw [State.renderFrames, State.renderFrame_withLog, ih, State.renderFrames]

/-- A response emitted before a block of frames is as one emitted after it. -/
theorem State.renderFrames_answered (data : Word) (base n f : Nat) :
    (s.answered data).renderFrames w base n f = (s.renderFrames w base n f).answered data := by
  refine (State.renderFrames_withLog s w s.err s.errcode s.queue (s.responses ++ [0#32 ++ data]) base n f).trans ?_
  simp [State.withLog, State.answered]

end

/-! ### Splitting a RENDER (R173) -/

/-- A block that starts at frame `k` is a block from frame 0 on with its base moved. -/
theorem State.renderFrames_base (s : State) (w : Waveform) (base k n f : Nat) :
    s.renderFrames w base n (k + f) = s.renderFrames w (base + k * s.cfg.channels.toNat) n f := by
  induction n generalizing s f with
  | zero => rfl
  | succ n ih =>
    have first : s.renderFrame w base (k + f) = s.renderFrame w (base + k * s.cfg.channels.toNat) f := by
      have cell : cellIndex base s.cfg.channels.toNat (k + f) 0 =
          cellIndex (base + k * s.cfg.channels.toNat) s.cfg.channels.toNat f 0 := by
        rw [cellIndex, cellIndex, Nat.add_mul, ← Nat.add_assoc base]
      rw [State.renderFrame_eq, State.renderFrame_eq, cell]
    rw [State.renderFrames, first, Nat.add_assoc, ih, State.renderFrame_cfg, State.renderFrames]

/-- Settles O28: the second part renders on from where the first stopped, in the cells that follow. -/
theorem renderSplits : Obligations.RenderSplits := by
  intro s t frames first base part running fits based rendered
  obtain ⟨rest, total⟩ := Nat.exists_eq_add_of_le part
  have restFrames : (frames - first).toNat = rest := by
    rw [BitVec.toNat_sub_of_le (BitVec.le_def.2 part), total, Nat.add_sub_cancel_left]
  have product : first.toNat * s.cfg.channels.toNat < 2 ^ 32 := (Nat.le_add_left _ _).trans_lt based
  have restBase : (base + first * s.cfg.channels).toNat = base.toNat + first.toNat * s.cfg.channels.toNat := by
    rw [BitVec.toNat_add, BitVec.toNat_mul, Nat.mod_eq_of_lt product, Nat.mod_eq_of_lt based]
  rw [total, Nat.add_mul, ← Nat.add_assoc] at fits
  have firstFits : renderNeed first base s.cfg.channels ≤ s.build.obufWords := (Nat.le_add_right _ _).trans fits
  have restFits : renderNeed (frames - first) (base + first * s.cfg.channels) s.cfg.channels ≤ s.build.obufWords := by
    rwa [renderNeed, restFrames, restBase]
  have wholeFits : renderNeed frames base s.cfg.channels ≤ s.build.obufWords := by
    rwa [renderNeed, total, Nat.add_mul, ← Nat.add_assoc]
  obtain ⟨w, kind⟩ | silent := kind_or_silent_of_exec_render running wholeFits rendered
  · obtain rfl := Host.Outcome.next.inj ((exec_render_of_kind running wholeFits kind).symm.trans rendered)
    have split := s.renderFrames_add w base.toNat first.toNat rest 0
    rw [Nat.add_comm 0, State.renderFrames_base, State.renderFrames_cfg, ← restBase, ← total] at split
    refine ⟨_, exec_render_of_kind running firstFits kind, ?_⟩
    refine (exec_render_of_kind (w := w) ?_ ?_ ?_).trans ?_
    · exact (s.renderFrames_mode w _ _ _).trans running
    · rw [State.answered, State.renderFrames_cfg, State.renderFrames_build]; exact restFits
    · rw [State.answered, State.renderFrames_cfg]; exact kind
    · rw [State.renderFrames_answered, split, restFrames]; rfl
  · have firstSilent : first = 0 ∨ s.soundingSlots = [] := silent.imp (fun none => by bv_omega) id
    have restSilent : frames - first = 0 ∨ s.soundingSlots = [] := silent.imp (fun none => by bv_omega) id
    obtain rfl := Host.Outcome.next.inj ((exec_render_of_silent running wholeFits silent).symm.trans rendered)
    exact ⟨_, exec_render_of_silent running firstFits firstSilent,
      exec_render_of_silent (s := s.answered 0) running restFits restSilent⟩

/-! ### Reset during a RENDER (R230, U10) -/

/-- The cells that a reset in frame `f` after `n` channels leaves new are those written before it. -/
theorem State.readCell_obufInRender (s : State) (w : Waveform) (base : Nat) {frames f n : Nat} (canonical : s.obuf.wf = true)
    (inFrame : f < frames) (inChannels : n ≤ s.cfg.channels.toNat) (a : Nat) :
    (s.obufInRender w base f n).readCell a =
      if base ≤ a ∧ a < base + f * s.cfg.channels.toNat + n then (s.renderFrames w base frames 0).memRead a
      else s.memRead a := by
  obtain ⟨later, rfl⟩ : ∃ later, frames = f + later := Nat.exists_eq_add_of_le inFrame.le
  have ticked : ((s.renderFrames w base f 0).tickSlots w s.soundingSlots).1.obuf = (s.renderFrames w base f 0).obuf :=
    State.tickSlots_obuf _ _ _
  have outsideFrame (far : a < base + f * s.cfg.channels.toNat ∨ base + f * s.cfg.channels.toNat + n ≤ a) :
      (s.obufInRender w base f n).readCell a = (s.renderFrames w base f 0).memRead a := by
    refine Memory.readCell_congr fun x hx => ?_
    rw [State.obufInRender, State.mixChannels_readByte_other _ _ _ _ _ _ (by rw [hx]; exact far), ticked]
  split_ifs with new
  · rcases Nat.lt_or_ge a (base + f * s.cfg.channels.toNat) with earlier | now
    · rw [outsideFrame (.inl earlier), State.renderFrames_add, State.renderFrames_memRead_other _ w base later]
      rw [State.renderFrames_cfg, Nat.zero_add]
      exact .inl earlier
    · obtain ⟨c, rfl⟩ := Nat.exists_eq_add_of_le now
      have below : c < n := by omega
      rw [s.renderFrames_memRead w base canonical inFrame (below.trans_le inChannels)]
      refine (State.mixChannels_readCell _ _ (base + f * s.cfg.channels.toNat) n 0 c ?_ ⟨Nat.zero_le c, by omega⟩).trans ?_
      · rw [ticked]; exact State.renderFrames_wf s w base f 0 canonical
      · rw [State.frameSamples, State.memRead, ticked]
        exact congrArg _ (s.renderFrames_memRead_other w base f 0 _ (.inr (by rw [Nat.zero_add]; exact now)))
  · have old : a < base ∨ base + f * s.cfg.channels.toNat + n ≤ a := by omega
    rw [outsideFrame (old.imp (fun below => below.trans_le (Nat.le_add_right _ _)) id)]
    refine s.renderFrames_memRead_other w base f 0 a (old.imp (fun below => ?_) fun above => ?_)
    · exact below.trans_le (Nat.le_add_right _ _)
    · rw [Nat.zero_add]; exact (Nat.le_add_right _ _).trans above

/-- Reset during a RENDER leaves the reset state with an OBUF of its own: the old one, or the one in which the RENDER was
abandoned. -/
theorem State.resetInRender_cases (s : State) (frames base : Word) (f n : Nat) :
    s.resetInRender frames base f n = s.hardwareReset ∨
      ∃ w, waveformOf s.cfg.waveform = some w ∧ renderNeed frames base s.cfg.channels ≤ s.build.obufWords ∧
        f < frames.toNat ∧ n ≤ s.cfg.channels.toNat ∧
        s.resetInRender frames base f n = { s.hardwareReset with obuf := s.obufInRender w base.toNat f n } := by
  unfold State.resetInRender
  split
  · exact .inl rfl
  · split_ifs with underway
    · obtain ⟨-, fits, -, inFrame, inChannels⟩ := underway
      exact .inr ⟨_, ‹_›, fits, inFrame, inChannels, rfl⟩
    · exact .inl rfl

theorem State.resetInRender_of_underway {s : State} {frames base : Word} {w : Waveform} {f n : Nat} (running : s.mode = .run)
    (fits : renderNeed frames base s.cfg.channels ≤ s.build.obufWords) (kind : waveformOf s.cfg.waveform = some w)
    (sounds : s.soundingSlots ≠ []) (inFrame : f < frames.toNat) (inChannels : n ≤ s.cfg.channels.toNat) :
    s.resetInRender frames base f n = { s.hardwareReset with obuf := s.obufInRender w base.toNat f n } := by
  rw [State.resetInRender, kind]
  exact if_pos ⟨running, fits, sounds, inFrame, inChannels⟩

/-- Settles O51: the cells before the reset are new, and a reset outside the RENDER's accesses leaves all cells old. -/
theorem resetDuringRenderLeavesAPrefix : Obligations.ResetDuringRenderLeavesAPrefix := by
  intro s t frames base f n formed running fits rendered
  obtain ⟨-, -, -, canonical, -⟩ := State.formed_iff.1 formed
  have cells {w : Waveform} (kind : waveformOf s.cfg.waveform = some w) (inFrame : f < frames.toNat)
      (inChannels : n ≤ s.cfg.channels.toNat) (a : Nat) : (s.obufInRender w base.toNat f n).readCell a =
        if base.toNat ≤ a ∧ a < base.toNat + f * s.cfg.channels.toNat + n then t.memRead a else s.memRead a := by
    obtain rfl := Host.Outcome.next.inj ((exec_render_of_kind running fits kind).symm.trans rendered)
    exact s.readCell_obufInRender w _ canonical inFrame inChannels a
  refine ⟨?state, fun a => ?either, fun ⟨i, sounds⟩ inFrame inChannels a => ?exact⟩
  case state =>
    obtain reset | ⟨w, -, -, -, -, reset⟩ := s.resetInRender_cases frames base f n <;> rw [reset]
  case either =>
    obtain reset | ⟨w, kind, -, inFrame, inChannels, reset⟩ := s.resetInRender_cases frames base f n
    · rw [reset]; exact .inl rfl
    · have cell := cells kind inFrame inChannels a
      rw [reset]
      split_ifs at cell
      · exact .inr cell
      · exact .inl cell
  case exact =>
    have some : s.soundingSlots ≠ [] := List.ne_nil_of_mem (State.mem_soundingSlots_iff.2 sounds)
    obtain ⟨w, kind⟩ | none | none := kind_or_silent_of_exec_render running fits rendered
    · rw [State.resetInRender_of_underway running fits kind some inFrame inChannels]
      exact cells kind inFrame inChannels a
    · exact absurd (none ▸ inFrame : f < (0 : Word).toNat) (Nat.not_lt_zero f)
    · exact absurd none some

/-! ### Releasing a note, slot by slot (R143, R165) -/

theorem State.voice_releaseAll (s : State) (note : Word) (j : Nat) :
    (s.releaseAll note).voice j = if j < s.cfg.voiceCount.toNat then (s.voice j).release note else s.voice j := by
  rw [State.voice, State.releaseAll_voices, List.getD_eq_getElem?_getD, List.getElem?_mapIdx, State.voice,
    List.getD_eq_getElem?_getD]
  cases s.voices[j]? with
  | none => split_ifs <;> rfl
  | some v => rfl

/-- R143: the fields that a release keeps. -/
@[simp] theorem Voice.release_phase (v : Voice) (note : Word) : (v.release note).phase = v.phase := by
  unfold Voice.release; split_ifs <;> rfl

/-! ### Who writes what (R12, R16, R32, R41) -/

/-- R32: a random source is SEED's and, while its slot sounds, that of a Noise RENDER. -/
theorem Completes.rngOf_cases {i : Instr} {s u : State} {data : Word} (h : Completes i s u data) (j : Nat) :
    u.rngOf j = s.rngOf j ∨ (∃ voice value, i = .seed voice value ∧ voice.toNat = j) ∨
      ((∃ frames base, i = .render frames base) ∧ s.mode = .run ∧ s.cfg.waveform = 4 ∧ s.soundsAt j) := by
  cases h with
  | @seed _ voice value =>
    by_cases here : voice.toNat = j
    · exact .inr (.inl ⟨voice, value, rfl, here⟩)
    · exact .inl (State.rngOf_setRng_other s here value)
  | @render _ frames base w running fits kind =>
    by_cases noise : w = .noise
    · by_cases sounds : j ∈ s.soundingSlots
      · exact .inr (.inr ⟨⟨_, _, rfl⟩, running, (kind_eq_noise_iff kind).1 noise, State.mem_soundingSlots_iff.1 sounds⟩)
      · exact .inl (s.renderFrames_rngOf_other w _ _ _ sounds)
    · exact .inl (congrArg (·.getD j 0) (s.renderFrames_rng_of_ne_noise noise _ _ _))
  | noteOn => exact .inl (congrArg (·.getD j 0) (State.trigger_rng s _ _ _))
  | _ => exact .inl rfl

/-- All that a completion does to one slot of the voice file. START and NOTE_ON may write any of its fields. -/
theorem Completes.voice_cases {i : Instr} {s u : State} {data : Word} (h : Completes i s u data) (j : Nat) :
    u.voice j = s.voice j ∨ i = .start ∨ (∃ note velocity, i = .noteOn note velocity) ∨
      (∃ note, i = .noteOff note ∧ u.voice j = (s.voice j).release note) ∨
      ((∃ frames base, i = .render frames base) ∧ s.mode = .run ∧ s.soundsAt j ∧
        ∃ n, u.voice j = { s.voice j with phase := (s.voice j).phaseAfter n }) := by
  cases h with
  | start => exact .inr (.inl rfl)
  | noteOn => exact .inr (.inr (.inl ⟨_, _, rfl⟩))
  | @noteOff _ note =>
    rw [State.voice_releaseAll]
    split_ifs
    · exact .inr (.inr (.inr (.inl ⟨note, rfl, rfl⟩)))
    · exact .inl rfl
  | @render _ frames base w running =>
    by_cases sounds : j ∈ s.soundingSlots
    · exact .inr (.inr (.inr (.inr ⟨⟨_, _, rfl⟩, running, State.mem_soundingSlots_iff.1 sounds, _,
        s.renderFrames_voice w _ _ _ sounds⟩)))
    · exact .inl (s.renderFrames_voice_other w _ _ _ sounds)
  | _ => exact .inl rfl

/-- Settles O20: by what each completion does to OBUF, to one source and to one slot. -/
theorem whoWritesWhat : Obligations.WhoWritesWhat := by
  intro s t w rest waiting stepped
  obtain ⟨c, rfl⟩ | ⟨i, u, data, decoded, completes, rfl⟩ := step_next_cases_of_queue waiting stepped
  · exact ⟨rfl, absurd rfl, fun _ => absurd rfl, fun _ => absurd rfl, fun _ => absurd rfl⟩
  refine ⟨completes.build, fun changed => ?obuf, fun j changed => ?source, fun j changed => ?phase, fun j changed => ?active⟩
  case obuf =>
    obtain kept | ⟨running, frames, base, rfl⟩ := completes.obuf_cases
    · exact absurd kept changed
    · exact ⟨running, frames, base, decoded⟩
  case source =>
    obtain kept | ⟨voice, value, rfl, here⟩ | ⟨⟨frames, base, rfl⟩, rest⟩ := completes.rngOf_cases j
    · exact absurd kept changed
    · exact .inl ⟨voice, value, decoded, here⟩
    · exact .inr ⟨⟨frames, base, decoded⟩, rest⟩
  case phase =>
    obtain kept | rfl | ⟨note, velocity, rfl⟩ | ⟨note, rfl, released⟩ | ⟨⟨frames, base, rfl⟩, running, sounds, -⟩ :=
      completes.voice_cases j
    · exact absurd (congrArg Voice.phase kept) changed
    · exact .inl decoded
    · exact .inr (.inl ⟨note, velocity, decoded⟩)
    · exact absurd ((congrArg Voice.phase released).trans (Voice.release_phase _ note)) changed
    · exact .inr (.inr ⟨⟨frames, base, decoded⟩, running, sounds⟩)
  case active =>
    obtain kept | rfl | ⟨note, velocity, rfl⟩ | ⟨note, rfl, -⟩ | ⟨-, -, -, n, ticked⟩ := completes.voice_cases j
    · exact absurd (congrArg Voice.active kept) changed
    · exact .inl decoded
    · exact .inr (.inl ⟨note, velocity, decoded⟩)
    · exact .inr (.inr ⟨note, decoded⟩)
    · exact absurd (congrArg Voice.active ticked) changed

end Sys2Proof.Machine

/-! PROOFS. What the commands do not read (`43_voice.md` R148; `60_exceptions.md` R212; `70_reset_and_hazards.md` R236;
`30_encoding.md` R66). A part of the state is hidden by overwriting it; if what every operation leaves looks the same with
the part hidden before, then every command looks the same from states that differ in that part alone. -/

namespace Sys2Proof.Machine

/-! ### A trigger as one update (R31, R141) -/

/-- The trigger counter after a NOTE_ON, the free value at its end included (assumption 4). -/
def trigCtrAfter (ctr : BitVec 64) (used : Nat) : BitVec 64 :=
  if ctr = BitVec.allOnes 64 then Config.trigCtrPastEnd used else ctr + 1

/-- How many free values have been used after a NOTE_ON. -/
def freeUsedAfter (ctr : BitVec 64) (used : Nat) : Nat := if ctr = BitVec.allOnes 64 then used + 1 else used

theorem State.trigger_eq (s : State) (i : Nat) (note : Word) (velocity : F32) : s.trigger i note velocity = { s with
    voices := s.voices.set i (s.triggered note velocity)
    trigCtr := trigCtrAfter s.trigCtr s.freeUsed
    freeUsed := freeUsedAfter s.trigCtr s.freeUsed } := by
  rw [State.trigger, State.bumpTrigCtr, trigCtrAfter, freeUsedAfter]
  change (if s.trigCtr = _ then _ else _) = _
  split_ifs <;> rfl

/-! ### Hiding a part of the state -/

/-- `hide` overwrites a part of the state that no check reads and that no operation carries into another part. -/
structure Unread (hide : State → State) : Prop where
  hide_hide : ∀ s, hide (hide s) = hide s
  build : ∀ s, (hide s).build = s.build
  cfg : ∀ s, (hide s).cfg = s.cfg
  mode : ∀ s, (hide s).mode = s.mode
  target : ∀ s note, noteOnTarget (hide s).pool note = noteOnTarget s.pool note
  soundingSlots : ∀ s, (hide s).soundingSlots = s.soundingSlots
  respond : ∀ s code data, hide ((hide s).respond code data) = hide (s.respond code data)
  raise : ∀ s c, hide ((hide s).raise c) = hide (s.raise c)
  writeCfg : ∀ s r v, hide ((hide s).writeCfg r v) = hide (s.writeCfg r v)
  openRenderPath : ∀ s, hide (hide s).openRenderPath = hide s.openRenderPath
  stop : ∀ s, hide { hide s with mode := .config } = hide { s with mode := .config }
  clearErr : ∀ s, hide (hide s).clearErr = hide s.clearErr
  setRng : ∀ s i r, hide ((hide s).setRng i r) = hide (s.setRng i r)
  trigger : ∀ s i note velocity, hide ((hide s).trigger i note velocity) = hide (s.trigger i note velocity)
  releaseAll : ∀ s note, hide ((hide s).releaseAll note) = hide (s.releaseAll note)
  renderFrame : ∀ s w base f, hide ((hide s).renderFrame w base f) = hide (s.renderFrame w base f)

/-- An answer with a part of its next state hidden. -/
def hideNext (hide : State → State) : Result → Result
  | .next s => .next (hide s)
  | .fault r => .fault r
  | .refused r => .refused r

section
variable {hide : State → State}

/-- States that look alike still do after a completion's response. -/
theorem Unread.respondOk (h : Unread hide) {s t : State} (same : hide s = hide t) (data : Word) :
    hide (s.respondOk data) = hide (t.respondOk data) := by
  rw [State.respondOk, State.respondOk, ← h.respond s, same, h.respond]

theorem Unread.next_respondOk (h : Unread hide) {s t : State} (same : hide s = hide t) (data : Word) :
    hideNext hide (.next (s.respondOk data)) = hideNext hide (.next (t.respondOk data)) :=
  congrArg Host.Outcome.next (h.respondOk same data)

theorem Unread.next_raise (h : Unread hide) (s : State) (c : FaultCode) :
    hideNext hide (.next ((hide s).raise c)) = hideNext hide (.next (s.raise c)) :=
  congrArg Host.Outcome.next (h.raise s c)

theorem Unread.inMode (h : Unread hide) (s : State) (m : Mode) {k k' : Result}
    (same : hideNext hide k = hideNext hide k') :
    hideNext hide ((hide s).inMode m k) = hideNext hide (s.inMode m k') := by
  rw [State.inMode, State.inMode, h.mode]
  split_ifs
  · exact same
  · exact h.next_raise s _

theorem Unread.storeCfg (h : Unread hide) (s : State) (reg : BitVec 8) (value : Word) :
    hide ((hide s).storeCfg reg value) = hide (s.storeCfg reg value) := by
  rw [State.storeCfg, State.storeCfg]
  cases cfgRegOf reg with
  | none => exact h.raise s _
  | some r =>
    dsimp only
    split_ifs
    · exact h.respondOk (h.writeCfg s r value) 0
    · exact h.raise s _

theorem Unread.configFault (h : Unread hide) (s : State) : (hide s).configFault = s.configFault := by
  rw [State.configFault, State.configFault, h.build, h.cfg]

theorem Unread.dispatchNoteOn (h : Unread hide) (s : State) (note : Word) (velocity : F32) :
    hideNext hide ((hide s).dispatchNoteOn note velocity) = hideNext hide (s.dispatchNoteOn note velocity) := by
  rw [State.dispatchNoteOn, State.dispatchNoteOn, h.target]
  cases noteOnTarget s.pool note with
  | none => rfl
  | some i => exact h.next_respondOk (h.trigger s i note velocity) 0

theorem Unread.renderFrames (h : Unread hide) (s : State) (w : Waveform) (base n f : Nat) :
    hide ((hide s).renderFrames w base n f) = hide (s.renderFrames w base n f) := by
  induction n generalizing s f with
  | zero => exact h.hide_hide s
  | succ n ih => rw [State.renderFrames, ← ih, h.renderFrame, ih, State.renderFrames]

theorem Unread.renderBlock (h : Unread hide) (s : State) (frames base : Word) :
    hideNext hide ((hide s).renderBlock frames base) = hideNext hide (s.renderBlock frames base) := by
  rw [State.renderBlock, State.renderBlock, h.build, h.cfg, h.soundingSlots]
  split_ifs
  · exact h.next_raise s _
  · exact h.next_respondOk (h.hide_hide s) 0
  · cases waveformOf s.cfg.waveform with
    | none => rfl
    | some w => exact h.next_respondOk (h.renderFrames s w _ _ _) 0

/-- A command whose answer does not show the hidden part has the same outcome, up to that part, from a state with the part
overwritten. -/
theorem Unread.exec (h : Unread hide) (i : Instr) (s : State)
    (register : ∀ r : CfgReg, i = .cfgr r.number → (hide s).cfgValue r = s.cfgValue r)
    (field : ∀ voice f, i = .vrd voice (VoiceField.selector f) →
      (hide s).voiceFieldValue voice.toNat f = s.voiceFieldValue voice.toNat f) :
    hideNext hide (Machine.exec i (hide s)) = hideNext hide (Machine.exec i s) := by
  cases i with
  | cfgw reg value => exact h.inMode s .config (congrArg Host.Outcome.next (h.storeCfg s reg value))
  | cfgr reg =>
    change hideNext hide (execCfgr reg (hide s)) = hideNext hide (execCfgr reg s)
    rw [execCfgr, execCfgr]
    cases found : cfgRegOf reg with
    | none => exact h.next_raise s _
    | some r =>
      obtain rfl := cfgRegOf_eq_some_iff.1 found
      dsimp only
      rw [register r rfl]
      exact h.next_respondOk (h.hide_hide s) _
  | start =>
    refine h.inMode s .config ?_
    rw [h.configFault]
    cases s.configFault with
    | none => exact h.next_respondOk (h.openRenderPath s) 0
    | some c => exact h.next_raise s c
  | stop => exact h.inMode s .run (h.next_respondOk (h.stop s) 0)
  | clrerr => exact h.next_respondOk (h.clearErr s) 0
  | seed voice value =>
    change hideNext hide (execSeed voice value (hide s)) = hideNext hide (execSeed voice value s)
    rw [execSeed, execSeed, h.build]
    split_ifs
    · exact h.next_raise s _
    · exact h.next_raise s _
    · exact h.next_respondOk (h.setRng s _ value) 0
  | vrd voice sel =>
    change hideNext hide (execVrd voice sel (hide s)) = hideNext hide (execVrd voice sel s)
    rw [execVrd, execVrd, h.build]
    split_ifs
    · exact h.next_raise s _
    · cases found : voiceFieldOf sel with
      | none => exact h.next_raise s _
      | some f =>
        obtain rfl := voiceFieldOf_eq_some_iff.1 found
        dsimp only
        rw [field voice f rfl]
        exact h.next_respondOk (h.hide_hide s) _
  | noteOn note velocity => exact h.inMode s .run (h.dispatchNoteOn s note velocity)
  | noteOff note => exact h.inMode s .run (h.next_respondOk (h.releaseAll s note) 0)
  | render frames base => exact h.inMode s .run (h.renderBlock s frames base)

theorem exists_next_of_hideNext_eq {k k' : Result} {s : State} (same : hideNext hide k = hideNext hide k')
    (next : k = .next s) : ∃ t, k' = .next t ∧ hide t = hide s := by
  subst next
  cases k' with
  | next t => exact ⟨t, rfl, (Host.Outcome.next.inj same).symm⟩
  | fault | refused => cases same

/-- Two states that look alike have outcomes that look alike, under a command whose answer does not show the hidden
part. -/
theorem Unread.exec_of_alike (h : Unread hide) {i : Instr} {s t s' : State} (alike : hide t = hide s)
    (register : ∀ (u : State) (r : CfgReg), i = .cfgr r.number → (hide u).cfgValue r = u.cfgValue r)
    (field : ∀ (u : State) voice f, i = .vrd voice (VoiceField.selector f) →
      (hide u).voiceFieldValue voice.toNat f = u.voiceFieldValue voice.toNat f)
    (executed : Machine.exec i s = .next s') : ∃ t', Machine.exec i t = .next t' ∧ hide t' = hide s' := by
  refine exists_next_of_hideNext_eq (k := Machine.exec i s) ?_ executed
  rw [← h.exec i s (register s) (field s), ← h.exec i t (register t) (field t), alike]

end

/-! ### OBUF (R236) -/

/-- The state with an OBUF that lists nothing. -/
def State.hideObuf (s : State) : State := { s with obuf := [] }

theorem State.hideObuf_tickSlots (s : State) (w : Waveform) (is : List Nat) :
    s.hideObuf.tickSlots w is = ((s.tickSlots w is).1.hideObuf, (s.tickSlots w is).2) := by
  induction is generalizing s with
  | nil => rfl
  | cons i is ih =>
    have tick : s.hideObuf.tick w i = ((s.tick w i).1.hideObuf, (s.tick w i).2) := rfl
    simp only [State.tickSlots, tick, ih]

/-- The channels of a frame write OBUF alone. -/
theorem State.hideObuf_mixChannels (s : State) (ys : List Samples) (a n c : Nat) :
    (s.mixChannels ys a n c).hideObuf = s.hideObuf := by
  induction n generalizing s c with
  | zero => rfl
  | succ n ih => exact ih _ _

theorem State.hideObuf_renderFrame (s : State) (w : Waveform) (base f : Nat) :
    (s.hideObuf.renderFrame w base f).hideObuf = (s.renderFrame w base f).hideObuf := by
  have slots : s.hideObuf.soundingSlots = s.soundingSlots := rfl
  rw [State.renderFrame_eq, State.renderFrame_eq, slots]
  split_ifs
  · rfl
  · rw [State.hideObuf_mixChannels, State.hideObuf_mixChannels, State.hideObuf_tickSlots]; rfl

theorem unread_hideObuf : Unread State.hideObuf where
  hide_hide _ := rfl
  build _ := rfl
  cfg _ := rfl
  mode _ := rfl
  target _ _ := rfl
  soundingSlots _ := rfl
  respond _ _ _ := rfl
  raise _ _ := rfl
  writeCfg _ _ _ := rfl
  openRenderPath _ := rfl
  stop _ := rfl
  clearErr _ := rfl
  setRng _ _ _ := rfl
  trigger _ _ _ _ := by rw [State.trigger_eq, State.trigger_eq]; rfl
  releaseAll _ _ := rfl
  renderFrame := State.hideObuf_renderFrame

/-- Settles O31: no register and no voice field shows OBUF. -/
theorem obufReachesNoOtherState : Obligations.ObufReachesNoOtherState := by
  intro i s s' m executed
  have alike : State.hideObuf { s with obuf := m } = s.hideObuf := rfl
  obtain ⟨t', executed', same⟩ := unread_hideObuf.exec_of_alike alike (fun _ r _ => by cases r <;> rfl)
    (fun _ _ f _ => by cases f <;> rfl) executed
  refine ⟨t', executed', ?_⟩
  exact congrArg (fun u : State => { u with obuf := t'.obuf }) same

/-! ### The flags and the queue (R212, R66) -/

/-- The state with both flags clear. -/
def State.hideFlags (s : State) : State := { s with err := false, errcode := 0 }

/-- The state with no word waiting. -/
def State.hideQueue (s : State) : State := { s with queue := [] }

theorem unread_hideFlags : Unread State.hideFlags where
  hide_hide _ := rfl
  build _ := rfl
  cfg _ := rfl
  mode _ := rfl
  target _ _ := rfl
  soundingSlots _ := rfl
  respond _ _ _ := rfl
  raise _ _ := rfl
  writeCfg _ _ _ := rfl
  openRenderPath _ := rfl
  stop _ := rfl
  clearErr _ := rfl
  setRng _ _ _ := rfl
  trigger _ _ _ _ := by rw [State.trigger_eq, State.trigger_eq]; rfl
  releaseAll _ _ := rfl
  renderFrame s w base f :=
    congrArg State.hideFlags (State.renderFrame_withLog s w false 0 s.queue s.responses base f) |>.trans (by
      simp [State.withLog, State.hideFlags])

theorem unread_hideQueue : Unread State.hideQueue where
  hide_hide _ := rfl
  build _ := rfl
  cfg _ := rfl
  mode _ := rfl
  target _ _ := rfl
  soundingSlots _ := rfl
  respond _ _ _ := rfl
  raise _ _ := rfl
  writeCfg _ _ _ := rfl
  openRenderPath _ := rfl
  stop _ := rfl
  clearErr _ := rfl
  setRng _ _ _ := rfl
  trigger _ _ _ _ := by rw [State.trigger_eq, State.trigger_eq]; rfl
  releaseAll _ _ := rfl
  renderFrame s w base f :=
    congrArg State.hideQueue (State.renderFrame_withLog s w s.err s.errcode [] s.responses base f) |>.trans (by
      simp [State.withLog, State.hideQueue])


/-- STATUS is the one register that shows the flags (R21). -/
theorem State.cfgValue_hideFlags {r : CfgReg} (other : r ≠ .status) (s : State) : s.hideFlags.cfgValue r = s.cfgValue r := by
  cases r with
  | status => exact absurd rfl other
  | _ => rfl

/-- Settles O9: but for CFGR STATUS no answer shows the flags, and a fault keeps the code that is logged already. -/
theorem errorFlagsAreALog : Obligations.ErrorFlagsAreALog := by
  refine fun i s t e c executed => ⟨?alike, fun set other => ?kept⟩
  case alike =>
    by_cases status : i = .cfgr 0x00
    · subst status
      obtain rfl := Host.Outcome.next.inj ((exec_cfgr_number s .status).symm.trans executed)
      exact ⟨_, exec_cfgr_number _ .status, rfl, fun other => absurd rfl other⟩
    · have alike : State.hideFlags { s with err := e, errcode := c } = s.hideFlags := rfl
      obtain ⟨u, executed', same⟩ := unread_hideFlags.exec_of_alike alike
        (fun u r read => u.cfgValue_hideFlags fun isStatus => status (by rw [read, isStatus]; rfl))
        (fun _ _ f _ => by cases f <;> rfl) executed
      have responses : u.responses = t.responses := (congrArg State.responses same :)
      refine ⟨u, executed', ?_, fun _ => responses⟩
      rw [responses]
      exact (congrArg (fun v : State => { v with err := u.err, errcode := u.errcode }) same :)
  case kept =>
    obtain ⟨c, rfl⟩ | ⟨u, data, completes, rfl⟩ := exec_next_cases executed
    · exact ⟨rfl, if_pos set⟩
    · obtain ⟨err, errcode⟩ := completes.flags other
      exact ⟨err.trans set, errcode⟩

/-- No command reads or writes the queue (R66). -/
theorem exec_queue {i : Instr} {s t : State} (executed : exec i s = .next t) : t.queue = s.queue := by
  obtain ⟨c, rfl⟩ | ⟨u, data, completes, rfl⟩ := exec_next_cases executed
  · rfl
  · exact completes.queue

/-- A command does the same whatever waits behind it. -/
theorem exec_withQueue {i : Instr} {s t : State} (executed : exec i s = .next t) (q : List CmdWord) :
    exec i { s with queue := q } = .next { t with queue := q } := by
  have alike : State.hideQueue { s with queue := q } = s.hideQueue := rfl
  obtain ⟨t', executed', same⟩ := unread_hideQueue.exec_of_alike alike (fun _ r _ => by cases r <;> rfl)
    (fun _ _ f _ => by cases f <;> rfl) executed
  have queue : t'.queue = q := exec_queue executed'
  rw [executed', ← queue]
  exact (congrArg (fun u : State => (.next { u with queue := t'.queue } : Result)) same :)

theorem step_of_instr {s : State} {w : CmdWord} {rest : List CmdWord} {i : Instr} (waiting : s.queue = w :: rest)
    (decoded : decode w = .instr i) : step s = exec i { s with queue := rest } :=
  (stepRunsDecodedCommand s).2 w rest i waiting decoded

theorem step_of_rejected {s : State} {w : CmdWord} {rest : List CmdWord} {e : DecodeError} (waiting : s.queue = w :: rest)
    (rejected : decode w = .rejected e) : step s = .next (State.raise { s with queue := rest } .illegalCommand) := by
  rw [step, State.takeCommand, waiting]
  simp only [rejected]

/-- R66: the oldest word is taken and executed whatever waits behind it. -/
theorem step_append {s u : State} (waiting : s.queue ≠ []) (stepped : step s = .next u) (w : CmdWord) :
    step { s with queue := s.queue ++ [w] } = .next { u with queue := u.queue ++ [w] } := by
  obtain ⟨v, rest, taken⟩ := List.exists_cons_of_ne_nil waiting
  have longer : s.queue ++ [w] = v :: (rest ++ [w]) := by rw [taken]; rfl
  cases decoded : decode v with
  | instr i =>
    rw [step_of_instr taken decoded] at stepped
    have queue : u.queue = rest := exec_queue stepped
    rw [step_of_instr (s := { s with queue := s.queue ++ [w] }) longer decoded, queue]
    exact exec_withQueue stepped (rest ++ [w])
  | rejected e =>
    rw [step_of_rejected taken decoded] at stepped
    obtain rfl := Host.Outcome.next.inj stepped
    exact step_of_rejected (s := { s with queue := s.queue ++ [w] }) longer decoded

theorem State.offer_eq_some_iff {s t : State} {w : CmdWord} :
    s.offer w = some t ↔ s.queue.length < s.build.queueDepth ∧ t = { s with queue := s.queue ++ [w] } := by
  rw [State.offer, State.accepts, Option.ite_none_right_eq_some, decide_eq_true_eq, Option.some.injEq, eq_comm (a := t)]

/-- A step that takes a word leaves room for another. -/
theorem step_queue_length {s u : State} (waiting : s.queue ≠ []) (stepped : step s = .next u) :
    u.build = s.build ∧ u.queue.length < s.queue.length := by
  obtain ⟨idle, -⟩ | ⟨v, rest, taken, ⟨c, rfl⟩ | ⟨i, t, data, -, completes, rfl⟩⟩ := step_next_cases stepped
  · exact absurd idle waiting
  · exact ⟨rfl, by simp [taken]⟩
  · exact ⟨completes.build, by simp [taken, completes.queue]⟩

/-- Settles O59. -/
theorem offeredCommandsWaitInOrder : Obligations.OfferedCommandsWaitInOrder := by
  refine ⟨fun s w room => State.offer_eq_some_iff.2 ⟨room, rfl⟩, fun s w full => ?full, fun s t w offered => ?order⟩
  case full =>
    refine Option.eq_none_iff_forall_ne_some.2 fun t offered => ?_
    exact absurd (State.offer_eq_some_iff.1 offered).1 (Nat.not_lt.2 full)
  case order =>
    obtain ⟨room, rfl⟩ := State.offer_eq_some_iff.1 offered
    refine ⟨room, rfl, fun waiting u stepped => ?_⟩
    obtain ⟨build, shorter⟩ := step_queue_length waiting stepped
    exact ⟨_, State.offer_eq_some_iff.2 ⟨build ▸ shorter.trans room, rfl⟩, step_append waiting stepped w⟩

/-! ### Stored velocities (R148) -/

/-- A voice with its velocity hidden. -/
def Voice.mute (v : Voice) : Voice := { v with velocity := 0 }

/-- The state with every stored velocity hidden. -/
def State.mute (s : State) : State := { s with voices := s.voices.map Voice.mute }

theorem State.sameButVelocity_iff {s t : State} : s.sameButVelocity t ↔ t.mute = s.mute := by
  constructor
  · rintro ⟨rest, voices⟩
    rw [rest]
    exact congrArg (fun v => { s with voices := v }) voices.symm
  · intro same
    refine ⟨?_, (congrArg State.voices same).symm⟩
    exact congrArg (fun u : State => { u with voices := t.voices }) same

@[simp] theorem State.mute_voice (s : State) (i : Nat) : s.mute.voice i = (s.voice i).mute := by
  rw [State.voice, State.mute, List.getD_eq_getElem?_getD, List.getElem?_map, State.voice, List.getD_eq_getElem?_getD]
  cases s.voices[i]? <;> rfl

theorem State.mute_soundingSlots (s : State) : s.mute.soundingSlots = s.soundingSlots :=
  State.soundingSlots_congr rfl (List.length_map _) fun i => by rw [State.mute_voice]; rfl

theorem State.mute_pool (s : State) : s.mute.pool = s.pool.map Voice.mute := List.map_take.symm

theorem oldestFrom_map_mute (vs : List Voice) (i best : Nat) (stamp : BitVec 64) :
    oldestFrom (vs.map Voice.mute) i best stamp = oldestFrom vs i best stamp := by
  induction vs generalizing i best stamp with
  | nil => rfl
  | cons v vs ih => simp only [List.map_cons, oldestFrom, ih]; rfl

/-- The three steps of R160 read the bindings, the activity and the stamps. -/
theorem noteOnTarget_map_mute (pool : List Voice) (note : Word) :
    noteOnTarget (pool.map Voice.mute) note = noteOnTarget pool note := by
  have bound : pool.findIdx? ((fun v => v.bound note) ∘ Voice.mute) = pool.findIdx? fun v => v.bound note := rfl
  have idle : pool.findIdx? ((fun v => !v.active) ∘ Voice.mute) = pool.findIdx? fun v => !v.active := rfl
  unfold noteOnTarget
  rw [List.findIdx?_map, List.findIdx?_map, bound, idle]
  cases pool with
  | nil => rfl
  | cons v vs => rw [List.map_cons]; simp only [oldestFrom_map_mute]; rfl

theorem State.mute_setVoice (s : State) (i : Nat) (v : Voice) : (s.setVoice i v).mute = s.mute.setVoice i v.mute := by
  rw [State.mute, State.setVoice_voices, List.map_set]; rfl

theorem Voice.mute_release (v : Voice) (note : Word) : (v.release note).mute = v.mute.release note := by
  have bound : v.mute.bound note = v.bound note := rfl
  rw [Voice.release, Voice.release, bound]
  split_ifs <;> rfl

/-- A tick reads frequency, sample rate and phase of its voice. -/
theorem State.mute_tick (s : State) (w : Waveform) (i : Nat) :
    s.mute.tick w i = ((s.tick w i).1.mute, (s.tick w i).2) := by
  have advance : (s.mute.voice i).advance = (s.voice i).advance.mute := by rw [State.mute_voice]; rfl
  have sample : s.mute.sampleSlot w i (s.voice i).advance.mute = s.sampleSlot w i (s.voice i).advance := rfl
  rw [State.tick, State.tick, advance, sample, ← State.mute_setVoice]
  rfl

theorem State.mute_tickSlots (s : State) (w : Waveform) (is : List Nat) :
    s.mute.tickSlots w is = ((s.tickSlots w is).1.mute, (s.tickSlots w is).2) := by
  induction is generalizing s with
  | nil => rfl
  | cons i is ih => simp only [State.tickSlots, State.mute_tick, ih]

theorem State.mute_mixChannels (s : State) (ys : List Samples) (a n c : Nat) :
    s.mute.mixChannels ys a n c = (s.mixChannels ys a n c).mute := by
  induction n generalizing s c with
  | zero => rfl
  | succ n ih => exact ih (s.memWrite (a + c) (mixCell ys c (s.memRead (a + c)))) (c + 1)

theorem State.mute_renderFrame (s : State) (w : Waveform) (base f : Nat) :
    s.mute.renderFrame w base f = (s.renderFrame w base f).mute := by
  rw [State.renderFrame_eq, State.renderFrame_eq, State.mute_soundingSlots, State.mute_tickSlots, State.mute_mixChannels]
  split_ifs <;> rfl

theorem State.mute_mute (s : State) : s.mute.mute = s.mute := by
  rw [State.mute, State.mute, List.map_map]; rfl

theorem unread_mute : Unread State.mute where
  hide_hide := State.mute_mute
  build _ := rfl
  cfg _ := rfl
  mode _ := rfl
  target s note := by rw [State.mute_pool, noteOnTarget_map_mute]
  soundingSlots := State.mute_soundingSlots
  respond s code data := congrArg (·.respond code data) s.mute_mute
  raise s c := congrArg (·.raise c) s.mute_mute
  writeCfg s r v := congrArg (·.writeCfg r v) s.mute_mute
  openRenderPath _ := rfl
  stop s := congrArg (fun u : State => { u with mode := .config }) s.mute_mute
  clearErr s := congrArg State.clearErr s.mute_mute
  setRng s i r := congrArg (·.setRng i r) s.mute_mute
  trigger s i note velocity := by
    have triggered : s.mute.triggered note velocity = s.triggered note velocity := rfl
    have voices := congrArg State.voices
      ((s.mute.mute_setVoice i (s.triggered note velocity)).trans (s.mute_mute ▸ s.mute_setVoice i _).symm)
    rw [State.trigger_eq, State.trigger_eq, triggered]
    exact congrArg (fun v => { s with
      voices := v
      trigCtr := trigCtrAfter s.trigCtr s.freeUsed
      freeUsed := freeUsedAfter s.trigCtr s.freeUsed }) voices
  releaseAll s note := by
    have voices : (s.mute.releaseAll note).mute.voices = (s.releaseAll note).mute.voices := by
      refine List.ext_getElem? fun j => ?_
      simp only [State.mute, State.releaseAll_voices, List.getElem?_map, List.getElem?_mapIdx]
      cases s.voices[j]? with
      | none => rfl
      | some v =>
        have released : (if j < s.voiceLimit then v.mute.release note else v.mute).mute =
            (if j < s.voiceLimit then v.release note else v).mute := by
          split_ifs
          · rw [← Voice.mute_release]; rfl
          · rfl
        exact congrArg some released
    exact congrArg (fun v => { s with voices := v }) voices
  renderFrame s w base f := by rw [State.mute_renderFrame, State.mute_mute]

/-- Settles O30: VELOCITY is the one voice field that shows a velocity. -/
theorem velocityIsNeverHeard : Obligations.VelocityIsNeverHeard := by
  intro i s t s' other alike executed
  have field (u : State) (voice : BitVec 8) (f : VoiceField) (read : i = .vrd voice f.selector) :
      u.mute.voiceFieldValue voice.toNat f = u.voiceFieldValue voice.toNat f := by
    cases f with
    | velocity => exact absurd read (other voice)
    | rng => rfl
    | _ => simp only [State.voiceFieldValue, State.mute_voice]; rfl
  obtain ⟨t', executed', same⟩ := unread_mute.exec_of_alike (State.sameButVelocity_iff.1 alike)
    (fun _ r _ => by cases r <;> rfl) field executed
  exact ⟨t', executed', State.sameButVelocity_iff.2 same⟩

end Sys2Proof.Machine

/-! PROOFS. NOTE_ON and NOTE_OFF (`44_pool_mixer.md` R160 to R165; `43_voice.md` R141, R143): the dispatch computes the one
slot that the three steps choose, and a release changes the bound slots of the pool alone. -/

namespace Sys2Proof.Machine

/-! ### The three steps of R160 -/

/-- `r` is the index below `n` with the least stamp, the lower index among equals (R162). -/
def Oldest (stamp : Nat → BitVec 64) (n r : Nat) : Prop :=
  r < n ∧ ∀ j < n, stamp r < stamp j ∨ (stamp r = stamp j ∧ r ≤ j)

theorem Oldest.unique {stamp : Nat → BitVec 64} {n r r' : Nat} (h : Oldest stamp n r) (h' : Oldest stamp n r') : r = r' := by
  obtain ⟨below, least⟩ := h
  obtain ⟨below', least'⟩ := h'
  have := least r' below'
  have := least' r below
  bv_omega

/-- An index in front of which the least is `best` keeps it, or takes its place. -/
theorem Oldest.succ {stamp : Nat → BitVec 64} {n best : Nat} (h : Oldest stamp n best) :
    Oldest stamp (n + 1) (if stamp n < stamp best then n else best) := by
  obtain ⟨below, least⟩ := h
  split_ifs with younger
  · refine ⟨Nat.lt_succ_self n, fun j hj => ?_⟩
    rcases (Nat.le_of_lt_succ hj).lt_or_eq with lt | rfl
    · have := least j lt
      exact .inl (by bv_omega)
    · exact .inr ⟨rfl, le_rfl⟩
  · refine ⟨below.trans (Nat.lt_succ_self n), fun j hj => ?_⟩
    rcases (Nat.le_of_lt_succ hj).lt_or_eq with lt | rfl
    · exact least j lt
    · by_cases same : stamp best = stamp j
      · exact .inr ⟨same, below.le⟩
      · exact .inl (by bv_omega)

/-- The search of R162 finds the least stamp of the slots searched before and of those it still has before it. -/
theorem oldest_oldestFrom {stamp : Nat → BitVec 64} {vs : List Voice} {n best : Nat} (before : Oldest stamp n best)
    (stamps : ∀ k (hk : k < vs.length), vs[k].trig = stamp (n + k)) :
    Oldest stamp (n + vs.length) (oldestFrom vs n best (stamp best)) := by
  induction vs generalizing n best with
  | nil => exact before
  | cons v vs ih =>
    have head : v.trig = stamp n := stamps 0 (Nat.zero_lt_succ _)
    have tail (k : Nat) (hk : k < vs.length) : vs[k].trig = stamp (n + 1 + k) := by
      rw [Nat.add_right_comm]
      exact stamps (k + 1) (Nat.succ_lt_succ hk)
    have next := ih before.succ tail
    rw [oldestFrom, head, List.length_cons, ← Nat.add_assoc, Nat.add_right_comm]
    split_ifs with younger
    · rwa [if_pos younger] at next
    · rwa [if_neg younger] at next

/-- No more than one slot is the one that the three steps choose. -/
theorem State.chooses_unique {s : State} {note : Word} {t t' : Nat} (h : s.chooses note t) (h' : s.chooses note t') :
    t = t' := by
  obtain ⟨below, ⟨bound, first⟩ | ⟨unbound, idle, first⟩ | oldest⟩ := h <;>
    obtain ⟨below', ⟨bound', first'⟩ | ⟨unbound', idle', first'⟩ | oldest'⟩ := h'
  · exact le_antisymm (Nat.le_of_not_lt fun lt => first t' lt bound') (Nat.le_of_not_lt fun lt => first' t lt bound)
  · exact absurd bound (unbound' t below)
  · exact absurd bound (oldest'.1 t below).1
  · exact absurd bound' (unbound t' below')
  · exact le_antisymm (Nat.le_of_not_lt fun lt => by simp [first t' lt] at idle')
      (Nat.le_of_not_lt fun lt => by simp [first' t lt] at idle)
  · exact absurd ((oldest'.1 t below).2.symm.trans idle) (by decide)
  · exact absurd bound' (oldest.1 t' below').1
  · exact absurd ((oldest.1 t' below').2.symm.trans idle') (by decide)
  · exact Oldest.unique (stamp := fun i => (s.voice i).trig) ⟨below, oldest.2⟩ ⟨below', oldest'.2⟩

section
variable {s : State} {note : Word} (built : s.cfg.voiceCount.toNat ≤ s.voices.length)
include built

theorem State.length_pool : s.pool.length = s.cfg.voiceCount.toNat := by
  rw [State.pool, List.length_take, State.voiceLimit, Nat.min_eq_left built]

theorem State.getElem_pool {i : Nat} (h : i < s.pool.length) : s.pool[i] = s.voice i := by
  have inside : i < s.voices.length := (State.length_pool built ▸ h).trans_le built
  rw [State.voice, List.getD_eq_getElem _ _ inside]
  exact List.getElem_take

/-- A search of the pool that succeeds finds the least slot with the property. -/
theorem State.findIdx?_pool_eq_some {p : Voice → Bool} {i : Nat} (found : s.pool.findIdx? p = some i) :
    i < s.cfg.voiceCount.toNat ∧ p (s.voice i) = true ∧ ∀ j < i, ¬ p (s.voice j) = true := by
  obtain ⟨below, here, first⟩ := List.findIdx?_eq_some_iff_getElem.1 found
  rw [State.getElem_pool built] at here
  refine ⟨State.length_pool built ▸ below, here, fun j hj => ?_⟩
  have earlier := first j hj
  rwa [State.getElem_pool built] at earlier

/-- A search of the pool that fails has met no slot with the property. -/
theorem State.findIdx?_pool_eq_none {p : Voice → Bool} (none : s.pool.findIdx? p = none) {i : Nat}
    (below : i < s.cfg.voiceCount.toNat) : p (s.voice i) = false := by
  have inPool : i < s.pool.length := (State.length_pool built).symm ▸ below
  rw [← State.getElem_pool built inPool]
  exact List.findIdx?_eq_none_iff.1 none _ (List.getElem_mem inPool)

/-- The dispatch answers the slot that the three steps choose. -/
theorem State.chooses_of_noteOnTarget {i : Nat} (target : noteOnTarget s.pool note = some i) : s.chooses note i := by
  unfold noteOnTarget at target
  split at target
  · obtain rfl := Option.some.inj target
    obtain ⟨below, bound, first⟩ := State.findIdx?_pool_eq_some built ‹_›
    exact ⟨below, .inl ⟨State.bound_voice_iff.1 bound, fun j hj => mt State.bound_voice_iff.2 (first j hj)⟩⟩
  · rename_i noneBound
    have unbound (j : Nat) (below : j < s.cfg.voiceCount.toNat) : ¬ s.boundAt note j := by
      have := State.findIdx?_pool_eq_none built noneBound below
      rw [← State.bound_voice_iff, this]
      exact Bool.false_ne_true
    split at target
    · obtain rfl := Option.some.inj target
      obtain ⟨below, idle, first⟩ := State.findIdx?_pool_eq_some built ‹_›
      exact ⟨below, .inr (.inl ⟨unbound, by simpa using idle, fun j hj => by simpa using first j hj⟩)⟩
    · rename_i noneIdle
      have active (j : Nat) (below : j < s.cfg.voiceCount.toNat) : (s.voice j).active = true := by
        simpa using State.findIdx?_pool_eq_none built noneIdle below
      split at target
      · cases target
      · rename_i v vs pool
        obtain rfl := Option.some.inj target
        have length : 1 + vs.length = s.cfg.voiceCount.toNat := by
          rw [← State.length_pool built, pool, List.length_cons, Nat.add_comm]
        have read (k : Nat) (hk : k < (v :: vs).length) : (v :: vs)[k] = s.voice k := by
          rw [← State.getElem_pool built (pool ▸ hk)]
          simp only [pool]
        have first : Oldest (fun j => (s.voice j).trig) 1 0 :=
          ⟨Nat.one_pos, fun j hj => .inr ⟨by rw [Nat.lt_one_iff.1 hj], Nat.zero_le j⟩⟩
        have oldest := oldest_oldestFrom (vs := vs) first fun k hk => by
          rw [Nat.add_comm, ← read (k + 1) (Nat.succ_lt_succ hk)]; rfl
        have head : v.trig = (s.voice 0).trig := congrArg Voice.trig (read 0 (Nat.zero_lt_succ _))
        rw [length, ← head] at oldest
        exact ⟨oldest.1, .inr (.inr ⟨fun j below => ⟨unbound j below, active j below⟩, oldest.2⟩)⟩

end

/-- The dispatch of a pool that is not empty chooses a slot (R160). -/
theorem exists_noteOnTarget {pool : List Voice} (notEmpty : pool ≠ []) (note : Word) :
    ∃ i, noteOnTarget pool note = some i := by
  unfold noteOnTarget
  split
  · exact ⟨_, rfl⟩
  · split
    · exact ⟨_, rfl⟩
    · cases pool with
      | nil => exact absurd rfl notEmpty
      | cons v vs => exact ⟨_, rfl⟩

theorem State.pool_ne_nil {s : State} (some : 1 ≤ s.cfg.voiceCount.toNat)
    (built : s.cfg.voiceCount.toNat ≤ s.voices.length) : s.pool ≠ [] := by
  intro empty
  have := State.length_pool built
  rw [empty, List.length_nil] at this
  omega

theorem exec_noteOn_of_target {s : State} {note : Word} {i : Nat} (running : s.mode = .run)
    (target : noteOnTarget s.pool note = some i) (velocity : F32) :
    exec (.noteOn note velocity) s = .next ((s.trigger i note velocity).answered 0) := by
  rw [← next_respondOk]
  refine (inMode_of_eq running _).trans ?_
  rw [State.dispatchNoteOn, target]

/-- R31: below its end the counter goes up by one. -/
theorem trigCtrAfter_of_lt {ctr : BitVec 64} (below : ctr.toNat + 1 < 2 ^ 64) (used : Nat) :
    (trigCtrAfter ctr used).toNat = ctr.toNat + 1 ∧ freeUsedAfter ctr used = used := by
  have notEnd : ctr ≠ BitVec.allOnes 64 := by
    rintro rfl
    rw [BitVec.toNat_allOnes] at below
    omega
  rw [trigCtrAfter, freeUsedAfter, if_neg notEnd, if_neg notEnd]
  exact ⟨by rw [BitVec.toNat_add]; exact Nat.mod_eq_of_lt below, rfl⟩

/-- Settles O21: the dispatch finds the one chosen slot, and a trigger is one update of the state. -/
theorem noteOnTriggersTheChosenSlot : Obligations.NoteOnTriggersTheChosenSlot := by
  intro s note velocity formed running some count
  obtain ⟨-, voices, -⟩ := State.formed_iff.1 formed
  have built : s.cfg.voiceCount.toNat ≤ s.voices.length := voices ▸ count
  obtain ⟨i, target⟩ := exists_noteOnTarget (State.pool_ne_nil some built) note
  have chosen := State.chooses_of_noteOnTarget built target
  refine ⟨i, _, chosen, fun j other => State.chooses_unique other chosen, exec_noteOn_of_target running target velocity, ?_⟩
  rw [State.trigger_eq]
  exact ⟨rfl, fun below => trigCtrAfter_of_lt below s.freeUsed⟩

/-! ### NOTE_OFF (R165, R143) -/

theorem Voice.release_of_bound {v : Voice} {note : Word} (bound : v.bound note = true) :
    v.release note = { v with active := false, note := 0xFFFFFFFF } := if_pos bound

theorem State.voice_releaseAll_of_bound {s : State} {note : Word} {i : Nat} (below : i < s.cfg.voiceCount.toNat)
    (bound : s.boundAt note i) :
    (s.releaseAll note).voice i = { s.voice i with active := false, note := 0xFFFFFFFF } := by
  rw [State.voice_releaseAll, if_pos below, Voice.release_of_bound (State.bound_voice_iff.2 bound)]

theorem State.voice_releaseAll_of_not_bound {s : State} {note : Word} {i : Nat}
    (unbound : ¬ (i < s.cfg.voiceCount.toNat ∧ s.boundAt note i)) : (s.releaseAll note).voice i = s.voice i := by
  rw [State.voice_releaseAll]
  split_ifs with below
  · exact Voice.release_of_not_bound (mt State.bound_voice_iff.1 fun bound => unbound ⟨below, bound⟩)
  · rfl

/-- Settles O22: a slot changes only when it is bound, below `cfg.VOICE_COUNT`, to the note; I1 allows one such slot. -/
theorem noteOffReleasesTheBoundSlot : Obligations.NoteOffReleasesTheBoundSlot := by
  refine fun s note running => ⟨_, exec_noteOff_of_run note running, rfl, List.length_mapIdx,
    fun i => State.voice_releaseAll_of_bound, fun i => State.voice_releaseAll_of_not_bound, fun oneVoice i j hi hj => ?_⟩
  obtain ⟨below, active, bound⟩ := not_not.1 (mt State.voice_releaseAll_of_not_bound hi)
  obtain ⟨below', active', bound'⟩ := not_not.1 (mt State.voice_releaseAll_of_not_bound hj)
  by_contra other
  exact oneVoice i j below below' other ⟨active, active', bound.trans bound'.symm⟩

end Sys2Proof.Machine

/-! PROOFS. The random sources (`42_oscillator.md` R129 to R131): the LFSR step, the draw bit by bit, and the sample. -/

namespace Sys2Proof.Machine

/-! ### The number of a finite value -/

theorem finite32_of_val32 {x : F32} {neg : Bool} {q : Nat} (h : val32 x = .fin neg q) : finite32 x :=
  finite32_iff.2 (isFinite32_iff.2 ⟨neg, q, h⟩)

theorem real32_of_val32 {x : F32} {neg : Bool} {q : Nat} (h : val32 x = .fin neg q) :
    real32 x = signed neg (q / 2 ^ 149) := by
  rw [real32_eq_value32 (finite32_of_val32 h), value32_of_fin h]
  cases neg <;> simp [neg_div]

theorem exists_val32_of_finite32 {x : F32} (finite : finite32 x) : ∃ neg q, val32 x = .fin neg q :=
  isFinite32_iff.1 (finite32_iff.1 finite)

/-- The pattern 1.0 holds `2^149` quanta. -/
theorem quanta_one32 : fmt32.quanta one32.toNat = 2 ^ 149 := by decide

/-- The patterns from `+0.0` to `1.0`. -/
theorem val32_of_le_one32 {x : F32} (le : x.toNat ≤ one32.toNat) : ∃ q, q ≤ 2 ^ 149 ∧ val32 x = .fin false q :=
  ⟨_, quanta_one32 ▸ (Fmt.quanta_le_iff fmt32_prec_pos).2 le, val32_of_lt (le.trans_lt (by decide))⟩

theorem real32_mem_unit {x : F32} {q : Nat} (h : val32 x = .fin false q) (le : q ≤ 2 ^ 149) :
    0 ≤ real32 x ∧ real32 x ≤ 1 := by
  rw [real32_of_val32 h, signed_false]
  refine ⟨by positivity, div_le_one_of_le₀ ?_ (by positivity)⟩
  exact_mod_cast le

/-! ### Law G2 of R130 -/

theorem inUnit_iff {u : F32} : inUnit u = true ↔ u.toNat ≤ one32.toNat ∨ u = 0x80000000 := by
  rw [inUnit, Bool.or_eq_true, decide_eq_true_eq, beq_iff_eq]; rfl

/-- What G2 says of a sample: a finite number from 0 to 1. -/
theorem val32_of_inUnit {u : F32} (h : inUnit u = true) :
    ∃ neg q, q ≤ 2 ^ 149 ∧ (neg = true → q = 0) ∧ val32 u = .fin neg q := by
  obtain le | rfl := inUnit_iff.1 h
  · obtain ⟨q, hq, val⟩ := val32_of_le_one32 le
    exact ⟨false, q, hq, fun neg => absurd neg Bool.false_ne_true, val⟩
  · exact ⟨true, 0, Nat.zero_le _, fun _ => rfl, by decide⟩

/-! ### The LFSR (R131) -/

/-- The bit shifted out comes back as bit 31. -/
theorem getLsbD_lfsrStep (s : Word) : (lfsrStep s).getLsbD 31 = s.getLsbD 0 := by
  unfold lfsrStep
  split_ifs with out
  · rw [BitVec.getLsbD_xor, BitVec.getLsbD_ushiftRight, out, BitVec.getLsbD_of_ge s _ (by decide)]; rfl
  · rw [BitVec.getLsbD_ushiftRight, BitVec.getLsbD_of_ge s _ (by decide), Bool.eq_false_of_not_eq_true out]

/-- A word is its lowest bit and the bits above it. -/
theorem eq_of_shift_eq {s t : Word} (low : s.getLsbD 0 = t.getLsbD 0) (high : s >>> 1 = t >>> 1) : s = t := by
  refine BitVec.eq_of_getLsbD_eq fun i _ => ?_
  cases i with
  | zero => exact low
  | succ i =>
    have bit := congrArg (·.getLsbD i) high
    simpa only [BitVec.getLsbD_ushiftRight, Nat.add_comm 1] using bit

theorem lfsrStep_injective : Function.Injective lfsrStep := by
  intro s t same
  have low : s.getLsbD 0 = t.getLsbD 0 := by rw [← getLsbD_lfsrStep, ← getLsbD_lfsrStep, same]
  refine eq_of_shift_eq low ?_
  unfold lfsrStep at same
  rw [low] at same
  split_ifs at same
  · exact (BitVec.xor_left_inj _).1 same
  · exact same

theorem lfsrStep_zero : lfsrStep 0 = 0 := by decide

theorem iterate_lfsrStep_ne_zero {s : Word} (alive : s ≠ 0) (n : Nat) : lfsrStep^[n] s ≠ 0 := by
  intro dead
  exact alive (lfsrStep_injective.iterate n (dead.trans (Function.iterate_fixed lfsrStep_zero n).symm))

/-- `n` steps, and the `n` output bits below `k`, the first one highest. -/
theorem lfsrDraw_eq (n : Nat) (s : Word) (k : Nat) : ∃ bits, bits < 2 ^ n ∧
    (∀ j < n, bits.testBit (n - 1 - j) = (lfsrStep^[j] s).getLsbD 0) ∧
      lfsrDraw n s k = (lfsrStep^[n] s, 2 ^ n * k + bits) := by
  induction n generalizing s k with
  | zero => exact ⟨0, Nat.one_pos, fun j hj => absurd hj (Nat.not_lt_zero j), by simp [lfsrDraw]⟩
  | succ n ih =>
    obtain ⟨bits, small, each, drawn⟩ := ih (lfsrStep s) (2 * k + (s.getLsbD 0).toNat)
    refine ⟨2 ^ n * (s.getLsbD 0).toNat + bits, ?_, fun j hj => ?_, ?_⟩
    · have := Nat.mul_le_mul_left (2 ^ n) (Bool.toNat_le (s.getLsbD 0))
      rw [Nat.pow_succ]
      omega
    · rw [Nat.testBit_two_pow_mul_add _ small]
      cases j with
      | zero =>
        rw [if_neg (by omega), show n + 1 - 1 - 0 - n = 0 by omega]
        change _ = s.getLsbD 0
        cases s.getLsbD 0 <;> rfl
      | succ j =>
        rw [if_pos (by omega), Function.iterate_succ_apply, ← each j (by omega)]
        congr 1
        omega
    · rw [lfsrDraw, drawn, Function.iterate_succ_apply]
      congr 1
      ring

/-- `k / 2^24` is a number of the format for every `k` below `2^24`. -/
theorem val32_unitFraction {k : Nat} (small : k < 2 ^ 24) : val32 (unitFraction k) = .fin false (k * 2 ^ 125) := by
  obtain ⟨m, hm⟩ := (Fmt.exists_quanta_iff fmt32_prec_pos).2 ⟨k, 125, small, rfl⟩
  have finite : m < fmt32.infMag := by
    have top := (fmt32_ieee.quanta_top (b := 127) (by decide) (by decide)).1
    rw [← Fmt.quanta_lt_iff fmt32_prec_pos, top, hm]
    calc k * 2 ^ 125 < 2 ^ 24 * 2 ^ 125 := Nat.mul_lt_mul_of_pos_right small (Nat.two_pow_pos _)
      _ ≤ 2 ^ (fmt32.prec - 1 + 2 * 127) := by rw [← Nat.pow_add]; exact Nat.pow_le_pow_right (by decide) (by decide)
  have exact : fmt32.roundMag (k * 2 ^ 125) 1 = m :=
    Fmt.roundMag_of_eq fmt32_prec_pos Nat.one_pos finite.le (by rw [hm, Nat.mul_one])
  rw [unitFraction, show fmt32.quantum - 24 = 125 from rfl, val32_roundTo, exact, if_neg finite.ne, hm]

/-- R131: a draw of the default record. -/
theorem rngNext_lfsr (s : Word) : ∃ k, k < 2 ^ 24 ∧ (∀ j < 24, k.testBit (23 - j) = (lfsrStep^[j] s).getLsbD 0) ∧
    rngNext .lfsr s = (lfsrStep^[24] s, unitFraction k) := by
  obtain ⟨k, small, bits, drawn⟩ := lfsrDraw_eq 24 s 0
  refine ⟨k, small, bits, ?_⟩
  rw [rngNext, drawn, Nat.mul_zero, Nat.zero_add]

/-- Law G2 for every record: the sample is a finite number from 0 to 1. -/
theorem val32_rngNext (rng : RngRecord) (r : Word) :
    ∃ neg q, q ≤ 2 ^ 149 ∧ (neg = true → q = 0) ∧ val32 (rngNext rng r).2 = .fin neg q := by
  cases rng with
  | lfsr =>
    obtain ⟨k, small, -, drawn⟩ := rngNext_lfsr r
    refine ⟨false, k * 2 ^ 125, ?_, fun neg => absurd neg Bool.false_ne_true, by rw [drawn, val32_unitFraction small]⟩
    exact (Nat.mul_le_mul_right _ small.le).trans (Nat.pow_add 2 24 125).symm.le
  | other k =>
    rw [rngNext]
    dsimp only
    split_ifs with unit
    · exact val32_of_inUnit unit
    · exact val32_of_inUnit (by decide)

/-- Settles O48: G2 record by record; the LFSR by its step, which is injective, and its draw, bit by bit. -/
theorem randomSourceLaws : Obligations.RandomSourceLaws := by
  refine ⟨fun rng r => ?unit, Finite.injective_iff_bijective.1 lfsrStep_injective, lfsrStep_zero, fun s => ?draw⟩
  case unit =>
    obtain ⟨neg, q, le, zero, val⟩ := val32_rngNext rng r
    refine ⟨finite32_of_val32 val, ?_⟩
    cases neg with
    | false => exact real32_mem_unit val le
    | true => rw [real32_of_val32 val, zero rfl]; simp
  case draw =>
    obtain ⟨k, small, bits, drawn⟩ := rngNext_lfsr s
    have val := val32_unitFraction small
    rw [drawn]
    refine ⟨rfl, fun alive => iterate_lfsrStep_ne_zero alive 24, k, small, bits, finite32_of_val32 val, ?_, ?_⟩
    · obtain ⟨neg, m, hm, hx⟩ := exists_pack32 (unitFraction k)
      obtain ⟨-, sign, -⟩ := Fmt.unpack_fin val
      rw [sign32_eq, hx, Fmt.sign_pack hm, ← Fmt.pack_sign hm (neg := neg), ← hx]
      exact sign.symm
    · rw [real32_of_val32 val, signed_false]
      push_cast
      rw [div_eq_div_iff (by positivity) (by positivity)]
      ring

end Sys2Proof.Machine

/-! PROOFS. The invariants of `10_state.md` R35 and what RUN guarantees (`60_exceptions.md` R222): one lemma per conjunct of
`State.Sound`, from what a completion does to the state; then the runs, with the host's actions. -/

namespace Sys2Proof.Machine

/-! ### The slots after a trigger (R141) -/

theorem State.trigger_voice_same {s : State} {i : Nat} (built : i < s.voices.length) (note : Word) (velocity : F32) :
    (s.trigger i note velocity).voice i = s.triggered note velocity := by
  rw [State.voice, State.trigger_voices]
  exact State.voice_setVoice_same s built _

theorem State.trigger_voice_other (s : State) {i j : Nat} (other : i ≠ j) (note : Word) (velocity : F32) :
    (s.trigger i note velocity).voice j = s.voice j := by
  rw [State.voice, State.trigger_voices]
  exact State.voice_setVoice_other s other _

theorem State.target_lt_length {s : State} {note : Word} {i : Nat} (target : noteOnTarget s.pool note = some i) :
    i < s.voices.length ∧ i < s.cfg.voiceCount.toNat := by
  have := noteOnTarget_lt target
  rw [State.pool, List.length_take] at this
  exact ⟨this.trans_le (Nat.min_le_right _ _), this.trans_le (Nat.min_le_left _ _)⟩

/-! ### What a completion does to the slots that sound -/

theorem Voice.release_eq_of_active {v : Voice} {note : Word} (active : (v.release note).active = true) :
    v.release note = v := by
  unfold Voice.release at active ⊢
  split_ifs at active ⊢
  rfl

section
variable {i : Instr} {s u : State} {data : Word} {j : Nat}

/-- START leaves every slot Idle. -/
theorem Completes.voice_of_start (h : Completes i s u data) (start : i = .start) : u.voice j = Voice.idle := by
  cases h with
  | start =>
    rw [State.voice, State.openRenderPath_voices]
    exact State.resetOf_voice s.build j
  | _ => cases start

/-- NOTE_ON writes the one slot that it chooses. -/
theorem Completes.voice_of_noteOn (h : Completes i s u data) {note : Word} {velocity : F32}
    (noteOn : i = .noteOn note velocity) : ∃ k, noteOnTarget s.pool note = some k ∧ s.mode = .run ∧
      u.voice k = s.triggered note velocity ∧ (∀ j, k ≠ j → u.voice j = s.voice j) ∧
      u.trigCtr = trigCtrAfter s.trigCtr s.freeUsed := by
  cases h with
  | noteOn running target =>
    cases noteOn
    exact ⟨_, target, running, State.trigger_voice_same (State.target_lt_length target).1 _ _,
      fun j other => s.trigger_voice_other other _ _, by rw [State.trigger_eq]⟩
  | _ => cases noteOn

/-- Every other completion starts no voice: a slot that sounds after it did before, with the same binding, rate and
stamp. -/
theorem Completes.active_kept (h : Completes i s u data) (notStart : i ≠ .start)
    (notNoteOn : ∀ note velocity, i ≠ .noteOn note velocity) (active : (u.voice j).active = true) :
    ∃ phase, u.voice j = { s.voice j with phase := phase } := by
  obtain kept | start | ⟨note, velocity, noteOn⟩ | ⟨note, -, released⟩ | ⟨-, -, -, n, ticked⟩ := h.voice_cases j
  · exact ⟨_, kept⟩
  · exact absurd start notStart
  · exact absurd noteOn (notNoteOn note velocity)
  · rw [released] at active
    exact ⟨_, released.trans (Voice.release_eq_of_active active)⟩
  · exact ⟨_, ticked⟩

/-- What a slot that sounds after a completion is: freshly triggered, or one that sounded before. -/
theorem Completes.active_cases (h : Completes i s u data) (active : (u.voice j).active = true) :
    (∃ note velocity, i = .noteOn note velocity ∧ noteOnTarget s.pool note = some j ∧ s.mode = .run ∧
        u.voice j = s.triggered note velocity) ∨
      (i ≠ .start ∧ (s.voice j).active = true ∧ (∃ phase, u.voice j = { s.voice j with phase := phase }) ∧
        ∀ note velocity, i = .noteOn note velocity → noteOnTarget s.pool note ≠ some j) := by
  have notStart : i ≠ .start := fun start => by
    rw [h.voice_of_start start] at active; cases active
  by_cases noteOn : ∃ note velocity, i = .noteOn note velocity
  · obtain ⟨note, velocity, noteOn⟩ := noteOn
    obtain ⟨k, target, running, same, others, -⟩ := h.voice_of_noteOn noteOn
    by_cases here : k = j
    · subst here
      exact .inl ⟨note, velocity, noteOn, target, running, same⟩
    · have kept := others j here
      refine .inr ⟨notStart, kept ▸ active, ⟨_, kept⟩, fun note' velocity' noteOn' target' => here ?_⟩
      cases noteOn.symm.trans noteOn'
      exact Option.some.inj (target.symm.trans target')
  · obtain ⟨phase, kept⟩ := h.active_kept notStart (fun note velocity is => noteOn ⟨note, velocity, is⟩) active
    refine .inr ⟨notStart, ?_, ⟨phase, kept⟩, fun note velocity is => absurd ⟨note, velocity, is⟩ noteOn⟩
    rwa [kept] at active

/-! ### The conjuncts of the invariant -/

/-- A completion that leaves RUN in force found it in force, unless it is START. -/
theorem Completes.run_cases (h : Completes i s u data) (running : u.mode = .run) :
    i = .start ∨ (s.mode = .run ∧ u.cfg = s.cfg) := by
  obtain kept | ⟨start, -⟩ | ⟨-, -, config, -⟩ := h.mode_cases
  · exact .inr ⟨kept ▸ running, h.cfg_of_run (kept ▸ running)⟩
  · exact .inl start
  · exact absurd (running.symm.trans config) (by decide)

theorem Completes.runChecked (h : Completes i s u data) (before : s.runChecked) : u.runChecked := by
  intro running
  obtain start | ⟨wasRunning, cfg⟩ := h.run_cases running
  · cases h with
    | start _ valid =>
      obtain ⟨-, fault⟩ | ⟨-, -, fault⟩ | ⟨-, -, -, -, fault⟩ | ⟨rate, some, count, kind, -⟩ := s.configFault_cases
      · exact absurd (fault.symm.trans valid) (by simp)
      · exact absurd (fault.symm.trans valid) (by simp)
      · exact absurd (fault.symm.trans valid) (by simp)
      · exact ⟨rate, some, count, kind⟩
    | _ => cases start
  · rw [cfg, h.build]
    exact before wasRunning

theorem Completes.poolOnly (h : Completes i s u data) (before : s.poolOnly) : u.poolOnly := by
  intro running j above
  by_contra active
  obtain ⟨note, velocity, noteOn, target, wasRunning, -⟩ | ⟨notStart, active, -, -⟩ :=
    h.active_cases (Bool.eq_true_of_not_eq_false active)
  · rw [h.cfg_of_run wasRunning] at above
    exact absurd (State.target_lt_length target).2 (Nat.not_lt.2 above)
  · obtain ⟨wasRunning, cfg⟩ := (h.run_cases running).resolve_left notStart
    rw [cfg] at above
    exact absurd ((before wasRunning j above).symm.trans active) (by decide)

theorem Completes.ratesCaptured (h : Completes i s u data) (before : s.ratesCaptured) : u.ratesCaptured := by
  intro running j active
  obtain ⟨note, velocity, noteOn, target, wasRunning, fresh⟩ | ⟨notStart, active, ⟨phase, kept⟩, -⟩ := h.active_cases active
  · rw [fresh, h.cfg_of_run wasRunning]; rfl
  · obtain ⟨wasRunning, cfg⟩ := (h.run_cases running).resolve_left notStart
    rw [kept, cfg]
    exact before wasRunning j active

/-- A bound slot is the one that a NOTE_ON of its note chooses, where no two slots that sound share a note. -/
theorem State.Sound.target_of_bound (sound : s.Sound) (running : s.mode = .run) {note : Word} {k : Nat}
    (target : noteOnTarget s.pool note = some k) (bound : s.boundAt note j) : k = j := by
  obtain ⟨-, voices, -⟩ := State.formed_iff.1 sound.formed
  obtain ⟨-, -, count, -⟩ := sound.runChecked running
  have below : j < s.cfg.voiceCount.toNat := by
    by_contra above
    exact absurd ((sound.poolOnly running j (Nat.not_lt.1 above)).symm.trans bound.1) (by decide)
  obtain ⟨-, ⟨bound', -⟩ | ⟨unbound, -⟩ | ⟨unbound, -⟩⟩ := State.chooses_of_noteOnTarget (voices ▸ count) target
  · by_contra other
    exact sound.notesDistinct k j other bound'.1 bound.1 (bound'.2.trans bound.2.symm)
  · exact absurd bound (unbound j below)
  · exact absurd bound (unbound j below).1

theorem Completes.notesDistinct (h : Completes i s u data) (sound : s.Sound) : u.notesDistinct := by
  have fresh_ne {j k : Nat} {note : Word} {velocity : F32} (noteOn : i = .noteOn note velocity)
      (target : noteOnTarget s.pool note = some j) (running : s.mode = .run) (active : (s.voice k).active = true)
      (others : ∀ note velocity, i = .noteOn note velocity → noteOnTarget s.pool note ≠ some k) :
      (s.voice k).note ≠ note := by
    intro same
    obtain rfl := sound.target_of_bound running target ⟨active, same⟩
    exact others note velocity noteOn target
  intro j k ne activeJ activeK
  obtain ⟨note, velocity, noteOn, target, running, fresh⟩ | ⟨-, wasJ, ⟨_, keptJ⟩, othersJ⟩ := h.active_cases activeJ <;>
    obtain ⟨note', velocity', noteOn', target', running', fresh'⟩ | ⟨-, wasK, ⟨_, keptK⟩, othersK⟩ := h.active_cases activeK
  · cases noteOn.symm.trans noteOn'
    exact absurd (Option.some.inj (target.symm.trans target')) ne
  · rw [fresh, keptK]
    exact (fresh_ne noteOn target running wasK othersK).symm
  · rw [fresh', keptJ]
    exact fresh_ne noteOn' target' running' wasJ othersJ
  · rw [keptJ, keptK]
    exact sound.notesDistinct j k ne wasJ wasK

theorem Voice.release_note_of_idle {v : Voice} {note : Word} (unbound : v.active = false → v.note = 0xFFFFFFFF)
    (idle : (v.release note).active = false) : (v.release note).note = 0xFFFFFFFF := by
  unfold Voice.release at idle ⊢
  split_ifs at idle ⊢
  · rfl
  · exact unbound idle

theorem Completes.idleUnbound (h : Completes i s u data) (before : s.idleUnbound) : u.idleUnbound := by
  intro j idle
  obtain kept | start | ⟨note, velocity, noteOn⟩ | ⟨note, -, released⟩ | ⟨-, -, -, n, ticked⟩ := h.voice_cases j
  · rw [kept] at idle ⊢
    exact before j idle
  · rw [h.voice_of_start start]; rfl
  · obtain ⟨k, -, -, same, others, -⟩ := h.voice_of_noteOn noteOn
    by_cases here : k = j
    · subst here
      rw [same] at idle
      cases idle
    · rw [others j here] at idle ⊢
      exact before j idle
  · rw [released] at idle ⊢
    exact Voice.release_note_of_idle (before j) idle
  · rw [ticked] at idle ⊢
    exact before j idle

theorem Completes.errcodeClear (h : Completes i s u data) (before : s.errcodeClear) : u.errcodeClear := by
  intro clear
  by_cases clrerr : i = .clrerr
  · cases h with
    | clrerr => rfl
    | _ => cases clrerr
  · obtain ⟨err, errcode⟩ := h.flags clrerr
    exact errcode.trans (before (err.symm.trans clear))

/-- R32 by entries of the file. -/
theorem State.sourcesAlive_iff : s.sourcesAlive ↔ (s.build.rng = .lfsr → ∀ j < s.rng.length, s.rngOf j ≠ 0) := by
  rw [State.sourcesAlive, List.forall_mem_iff_getElem]
  refine imp_congr_right fun _ => forall₂_congr fun j inside => ?_
  rw [State.rngOf, List.getD_eq_getElem _ _ inside]

theorem iterate_sourceStep_ne_zero {b : Build} (lfsr : b.rng = .lfsr) (w : Waveform) (n : Nat) {r : Word} (alive : r ≠ 0) :
    (sourceStep b w)^[n] r ≠ 0 := by
  have step (q : Word) (alive : q ≠ 0) : sourceStep b w q ≠ 0 := by
    cases w with
    | noise =>
      obtain ⟨k, -, -, drawn⟩ := rngNext_lfsr q
      rw [sourceStep, lfsr, drawn]
      exact iterate_lfsrStep_ne_zero alive 24
    | _ => exact alive
  induction n with
  | zero => exact alive
  | succ n ih => rw [Function.iterate_succ_apply']; exact step _ ih

theorem Completes.sourcesAlive (h : Completes i s u data) (sources : s.rng.length = s.voices.length)
    (before : s.sourcesAlive) : u.sourcesAlive := by
  cases h with
  | @seed _ voice value _ alive =>
    intro lfsr r member
    obtain old | rfl := List.mem_or_eq_of_mem_set member
    · exact before lfsr r old
    · exact alive
  | @render _ frames base w =>
    rw [State.sourcesAlive_iff] at before ⊢
    intro lfsr j inside
    rw [State.renderFrames_build] at lfsr
    rw [State.renderFrames_rng_length] at inside
    by_cases sounds : j ∈ s.soundingSlots
    · rw [s.renderFrames_rngOf w _ _ _ sounds sources]
      exact iterate_sourceStep_ne_zero lfsr w _ (before lfsr j inside)
    · rw [s.renderFrames_rngOf_other w _ _ _ sounds]
      exact before lfsr j inside
  | noteOn => rw [State.sourcesAlive, State.trigger_build, State.trigger_rng]; exact before
  | _ => exact before

theorem Completes.formed (h : Completes i s u data) (before : s.formed = true) : u.formed = true := by
  rw [State.formed_iff] at before ⊢
  obtain ⟨lawful, voices, sources, canonical, inside, room⟩ := before
  refine ⟨h.build ▸ lawful, ?_, ?_, ?_, ?_, by rw [h.queue, h.build]; exact room⟩
  · rw [h.build]; cases h <;> simp [voices]
  · rw [h.build]; cases h <;> simp [sources]
  · cases h with
    | render => exact State.renderFrames_wf s _ _ _ _ canonical
    | noteOn => rwa [State.trigger_obuf]
    | _ => exact canonical
  · rw [h.build]
    cases h with
    | render _ fits => exact State.renderFrames_within s _ _ _ _ inside (by rwa [Nat.zero_add])
    | noteOn => rwa [State.trigger_obuf]
    | _ => exact inside

/-- The invariant from each of its conjuncts. -/
theorem Completes.sound (h : Completes i s u data) (sound : s.Sound) : u.Sound where
  formed := h.formed sound.formed
  runChecked := h.runChecked sound.runChecked
  poolOnly := h.poolOnly sound.poolOnly
  notesDistinct := h.notesDistinct sound
  idleUnbound := h.idleUnbound sound.idleUnbound
  errcodeClear := h.errcodeClear sound.errcodeClear
  ratesCaptured := h.ratesCaptured sound.ratesCaptured
  sourcesAlive := by
    obtain ⟨-, voices, sources, -⟩ := State.formed_iff.1 sound.formed
    exact h.sourcesAlive (sources.trans voices.symm) sound.sourcesAlive

end

/-! ### Every step keeps the invariant -/

theorem State.Sound.respond {s : State} (sound : s.Sound) (code : BitVec 8) (data : Word) : (s.respond code data).Sound :=
  ⟨sound.formed, sound.runChecked, sound.poolOnly, sound.notesDistinct, sound.idleUnbound, sound.errcodeClear,
    sound.ratesCaptured, sound.sourcesAlive⟩

/-- A fault sets `err`, so that I5 asks nothing of the code. -/
theorem State.Sound.raise {s : State} (sound : s.Sound) (c : FaultCode) : (s.raise c).Sound :=
  ⟨sound.formed, sound.runChecked, sound.poolOnly, sound.notesDistinct, sound.idleUnbound, (nomatch ·),
    sound.ratesCaptured, sound.sourcesAlive⟩

theorem State.Sound.withQueue {s : State} (sound : s.Sound) {q : List CmdWord} (room : q.length ≤ s.build.queueDepth) :
    State.Sound { s with queue := q } := by
  obtain ⟨lawful, voices, sources, canonical, inside, -⟩ := State.formed_iff.1 sound.formed
  exact ⟨State.formed_iff.2 ⟨lawful, voices, sources, canonical, inside, room⟩, sound.runChecked, sound.poolOnly,
    sound.notesDistinct, sound.idleUnbound, sound.errcodeClear, sound.ratesCaptured, sound.sourcesAlive⟩

theorem State.Sound.dequeue {s : State} (sound : s.Sound) {w : CmdWord} {rest : List CmdWord}
    (waiting : s.queue = w :: rest) : State.Sound { s with queue := rest } := by
  obtain ⟨-, -, -, -, -, room⟩ := State.formed_iff.1 sound.formed
  rw [waiting] at room
  exact sound.withQueue ((Nat.le_succ _).trans room)

/-- Settles O53: the state without the word taken is Sound, and so is what a fault or a completion makes of it. -/
theorem stepKeepsTheInvariant : Obligations.StepKeepsTheInvariant := by
  intro s t sound stepped
  obtain ⟨-, rfl⟩ | ⟨w, rest, waiting, ⟨c, rfl⟩ | ⟨i, u, data, -, completes, rfl⟩⟩ := step_next_cases stepped
  · exact sound
  · exact (sound.dequeue waiting).raise c
  · exact (completes.sound (sound.dequeue waiting)).respond _ data

/-! ### No step stops -/

/-- From a Sound state every command is answered: START's checks keep both stops of the model out of RUN. -/
theorem State.Sound.exists_exec {s : State} (sound : s.Sound) (i : Instr) : ∃ t, exec i s = .next t := by
  have inMode (m : Mode) (k : Result) (answered : s.mode = m → ∃ t, k = .next t) : ∃ t, s.inMode m k = .next t := by
    unfold State.inMode
    split_ifs with mode
    · exact answered mode
    · exact ⟨_, rfl⟩
  cases i with
  | cfgw reg value => exact inMode .config _ fun _ => ⟨_, rfl⟩
  | cfgr reg =>
    change ∃ t, execCfgr reg s = .next t
    unfold execCfgr
    split <;> exact ⟨_, rfl⟩
  | start =>
    refine inMode .config _ fun _ => ?_
    split <;> exact ⟨_, rfl⟩
  | stop => exact inMode .run _ fun _ => ⟨_, rfl⟩
  | clrerr => exact ⟨_, rfl⟩
  | seed voice value =>
    change ∃ t, execSeed voice value s = .next t
    unfold execSeed
    split_ifs <;> exact ⟨_, rfl⟩
  | vrd voice field =>
    change ∃ t, execVrd voice field s = .next t
    unfold execVrd
    split_ifs
    · exact ⟨_, rfl⟩
    · split <;> exact ⟨_, rfl⟩
  | noteOn note velocity =>
    by_cases running : s.mode = .run
    · obtain ⟨-, some, count, -⟩ := sound.runChecked running
      obtain ⟨-, voices, -⟩ := State.formed_iff.1 sound.formed
      obtain ⟨k, target⟩ := exists_noteOnTarget (State.pool_ne_nil some (voices ▸ count)) note
      exact ⟨_, exec_noteOn_of_target running target velocity⟩
    · exact ⟨_, inMode_of_ne running _⟩
  | noteOff note => exact inMode .run _ fun _ => ⟨_, rfl⟩
  | render frames base =>
    by_cases running : s.mode = .run
    · obtain ⟨-, -, -, supported⟩ := sound.runChecked running
      obtain ⟨w, kind⟩ := waveformOf_isSome supported
      rcases Nat.lt_or_ge s.build.obufWords (renderNeed frames base s.cfg.channels) with tooLarge | fits
      · exact ⟨_, exec_render_of_out_of_range running tooLarge⟩
      · exact ⟨_, exec_render_of_kind running fits kind⟩
    · exact ⟨_, inMode_of_ne running _⟩

/-- Settles O56: an idle step holds, a rejected word raises, and a command is answered. -/
theorem soundStatesNeverStop : Obligations.SoundStatesNeverStop := by
  intro s sound
  obtain ⟨-, held⟩ | ⟨w, rest, waiting, ⟨e, -, rejected⟩ | ⟨i, -, executed⟩⟩ := step_cases (s := s) rfl
  · exact ⟨_, held⟩
  · exact ⟨_, rejected⟩
  · obtain ⟨t, answered⟩ := (sound.dequeue waiting).exists_exec i
    exact ⟨t, executed.trans answered⟩

/-! ### Reset, and the runs -/

/-- Hardware reset of a lawful build is Sound over every formed OBUF. -/
theorem sound_resetOf {b : Build} (lawful : b.wf = true) {m : Memory} (canonical : m.wf = true)
    (inside : m.within b.obufWords = true) : State.Sound { State.resetOf b with obuf := m } where
  formed := State.formed_iff.2 ⟨lawful, List.length_replicate, by rw [State.resetOf_rng, List.length_map, List.length_range]; rfl, canonical, inside, Nat.zero_le _⟩
  runChecked running := by cases running
  poolOnly running := by cases running
  notesDistinct i j _ active := by
    change ((State.resetOf b).voice i).active = true at active
    rw [State.resetOf_voice] at active
    cases active
  idleUnbound i _ := by
    change ((State.resetOf b).voice i).note = 0xFFFFFFFF
    rw [State.resetOf_voice]; rfl
  errcodeClear _ := rfl
  ratesCaptured running := by cases running
  sourcesAlive := by
    intro _ r member
    obtain ⟨i, inRange, rfl⟩ := List.mem_map.1 member
    simp only [Build.wf, Bool.and_eq_true, decide_eq_true_eq] at lawful
    obtain ⟨⟨⟨-, most⟩, -⟩, -⟩ := lawful
    have below : i < b.maxVoices := List.mem_range.1 inRange
    bv_omega

/-- Settles O52: no slot sounds after reset, and every phase is `+0.0`. -/
theorem resetIsSound : Obligations.ResetIsSound := by
  refine ⟨fun b lawful => ⟨sound_resetOf lawful rfl rfl, fun i => ?phase, fun i active => ?below, fun i j _ active => ?distinct⟩,
    rfl, rfl⟩
  case phase => rw [State.resetOf_voice, Voice.idle_phase, phaseInRange]; decide
  case below => rw [State.resetOf_voice] at active; cases active
  case distinct => rw [State.resetOf_voice] at active; cases active

theorem State.wf_obufInRender (s : State) (w : Waveform) {base f n : Nat} (canonical : s.obuf.wf = true) :
    (s.obufInRender w base f n).wf = true := by
  refine State.mixChannels_wf _ _ _ _ _ ?_
  rw [State.tickSlots_obuf]
  exact State.renderFrames_wf s w base f 0 canonical

/-- A RENDER that is abandoned has stayed in the range that was checked. -/
theorem State.within_obufInRender (s : State) (w : Waveform) {base frames f n words : Nat}
    (inside : s.obuf.within words = true) (fits : base + frames * s.cfg.channels.toNat ≤ words) (inFrame : f < frames)
    (inChannels : n ≤ s.cfg.channels.toNat) : (s.obufInRender w base f n).within words = true := by
  have last := Nat.mul_le_mul_right s.cfg.channels.toNat (Nat.succ_le_of_lt inFrame)
  rw [Nat.succ_mul] at last
  refine State.mixChannels_within _ _ _ _ _ ?_ (by rw [cellIndex]; omega)
  rw [State.tickSlots_obuf]
  exact State.renderFrames_within s w base f 0 inside (by rw [Nat.zero_add]; omega)

/-- What every reachable state is: Sound, and of the build that the run began with. -/
theorem Reachable.sound {b : Build} {s : State} (lawful : b.wf = true) (reachable : Reachable b s) :
    s.Sound ∧ s.build = b := by
  induction reachable with
  | reset => exact ⟨sound_resetOf lawful rfl rfl, rfl⟩
  | stepped s t _ stepped ih =>
    obtain ⟨sound, build⟩ := ih
    refine ⟨stepKeepsTheInvariant s t sound stepped, ?_⟩
    obtain ⟨-, rfl⟩ | ⟨w, rest, -, ⟨c, rfl⟩ | ⟨i, u, data, -, completes, rfl⟩⟩ := step_next_cases stepped
    · exact build
    · exact build
    · exact completes.build.trans build
  | offered s t w _ offered ih =>
    obtain ⟨sound, build⟩ := ih
    obtain ⟨room, rfl⟩ := State.offer_eq_some_iff.1 offered
    exact ⟨sound.withQueue (by rw [List.length_append]; exact room), build⟩
  | hostStored s a v _ ih =>
    obtain ⟨sound, build⟩ := ih
    unfold State.hostStore
    split_ifs with inBuffer
    · obtain ⟨lawful, voices, sources, canonical, inside, room⟩ := State.formed_iff.1 sound.formed
      exact ⟨⟨State.formed_iff.2 ⟨lawful, voices, sources, Memory.wf_writeCell canonical a v,
        Memory.within_writeCell inside inBuffer v, room⟩, sound.runChecked, sound.poolOnly, sound.notesDistinct,
        sound.idleUnbound, sound.errcodeClear, sound.ratesCaptured, sound.sourcesAlive⟩, build⟩
    · exact ⟨sound, build⟩
  | resetAgain s _ ih =>
    obtain ⟨sound, rfl⟩ := ih
    obtain ⟨-, -, -, canonical, inside, -⟩ := State.formed_iff.1 sound.formed
    exact ⟨sound_resetOf lawful canonical inside, rfl⟩
  | resetInRender s frames base f n _ ih =>
    obtain ⟨sound, rfl⟩ := ih
    obtain ⟨-, -, -, canonical, inside, -⟩ := State.formed_iff.1 sound.formed
    obtain reset | ⟨w, -, fits, inFrame, inChannels, reset⟩ := s.resetInRender_cases frames base f n
    · rw [reset]
      exact ⟨sound_resetOf lawful canonical inside, rfl⟩
    · rw [reset]
      exact ⟨sound_resetOf lawful (State.wf_obufInRender s w canonical) (State.within_obufInRender s w inside fits inFrame
        inChannels), rfl⟩

/-- I1 of R35 is what distinct notes of all slots say of the slots of the pool. -/
theorem State.oneVoicePerNote_of_notesDistinct {s : State} (distinct : s.notesDistinct) : s.oneVoicePerNote :=
  fun i j _ _ other ⟨activeI, activeJ, same⟩ => distinct i j other activeI activeJ same

/-- Settles O57: by induction over the run. -/
theorem runsStaySound : Obligations.RunsStaySound := by
  intro b s lawful reachable
  obtain ⟨sound, build⟩ := reachable.sound lawful
  exact ⟨sound, State.oneVoicePerNote_of_notesDistinct sound.notesDistinct, soundStatesNeverStop s sound, build⟩

/-! ### Stamps (I4) -/

theorem Completes.trigCtr {i : Instr} {s u : State} {data : Word} (h : Completes i s u data) :
    u.trigCtr = s.trigCtr ∨ i = .start ∨ ∃ note velocity, i = .noteOn note velocity := by
  cases h with
  | start => exact .inr (.inl rfl)
  | noteOn => exact .inr (.inr ⟨_, _, rfl⟩)
  | _ => exact .inl (by simp)

/-- A fresh stamp is the old counter, which every other stamp is below; the counter moves past it. -/
theorem Completes.stampsFresh {i : Instr} {s u : State} {data : Word} (h : Completes i s u data)
    (counter : s.trigCtr.toNat + 1 < 2 ^ 64) (before : s.stampsFresh) : u.stampsFresh := by
  obtain ⟨below, distinct⟩ := before
  have moved (notStart : i ≠ .start) : s.trigCtr ≤ u.trigCtr := by
    obtain kept | start | ⟨note, velocity, noteOn⟩ := h.trigCtr
    · exact kept ▸ BitVec.le_refl _
    · exact absurd start notStart
    · obtain ⟨-, -, -, -, -, ctr⟩ := h.voice_of_noteOn noteOn
      rw [ctr, BitVec.le_def, (trigCtrAfter_of_lt counter s.freeUsed).1]
      exact Nat.le_succ _
  refine ⟨fun j active => ?_, fun j k ne activeJ activeK => ?_⟩
  · obtain ⟨note, velocity, noteOn, -, -, fresh⟩ | ⟨notStart, active, ⟨_, kept⟩, -⟩ := h.active_cases active
    · obtain ⟨-, -, -, -, -, ctr⟩ := h.voice_of_noteOn noteOn
      rw [fresh, ctr, State.triggered_trig, BitVec.lt_def, (trigCtrAfter_of_lt counter s.freeUsed).1]
      exact Nat.lt_succ_self _
    · rw [kept]
      exact lt_of_lt_of_le (BitVec.lt_def.1 (below j active)) (BitVec.le_def.1 (moved notStart))
  · obtain ⟨note, velocity, noteOn, target, -, fresh⟩ | ⟨-, wasJ, ⟨_, keptJ⟩, -⟩ := h.active_cases activeJ <;>
      obtain ⟨note', velocity', noteOn', target', -, fresh'⟩ | ⟨-, wasK, ⟨_, keptK⟩, -⟩ := h.active_cases activeK
    · cases noteOn.symm.trans noteOn'
      exact absurd (Option.some.inj (target.symm.trans target')) ne
    · rw [fresh, keptK]
      exact (BitVec.ne_of_lt (below k wasK)).symm
    · rw [fresh', keptJ]
      exact BitVec.ne_of_lt (below j wasJ)
    · rw [keptJ, keptK]
      exact distinct j k ne wasJ wasK

/-- Settles O55: a fault changes neither a stamp nor the counter, and a completion keeps the stamps fresh. -/
theorem stepKeepsStampsFresh : Obligations.StepKeepsStampsFresh := by
  intro s t counter fresh stepped
  obtain ⟨-, rfl⟩ | ⟨w, rest, -, ⟨c, rfl⟩ | ⟨i, u, data, -, completes, rfl⟩⟩ := step_next_cases stepped
  · exact fresh
  · exact fresh
  · exact completes.stampsFresh counter fresh

end Sys2Proof.Machine

/-! PROOFS. Addition, subtraction, multiplication and division (`40_numerics.md` R82, R84, R85), for both formats at once:
on finite operands the exact result rounded once, and the results that are no rounded numbers. -/

namespace Sys2Proof.Machine

/-! ### A pattern by its class -/

/-- An infinity of either sign: neither finite nor NaN. -/
def Fmt.IsInf (f : Fmt) (bits : Nat) : Prop := ¬ f.IsFinite bits ∧ ¬ f.IsNaN bits

section
variable {f : Fmt} {x y : Nat}

theorem Fmt.unpack_of_isNaN (hx : x < 2 * f.signMag) (nan : f.IsNaN x) : f.unpack x = .nan := by
  obtain ⟨a, m, hm, rfl⟩ := Fmt.exists_pack hx
  exact Fmt.unpack_pack_nan hm ((Fmt.isNaN_pack hm).1 nan)

theorem Fmt.eq_pack_of_isInf (hx : x < 2 * f.signMag) (inf : f.IsInf x) : x = f.pack (f.sign x) f.infMag := by
  obtain ⟨a, m, hm, rfl⟩ := Fmt.exists_pack hx
  obtain ⟨notFinite, number⟩ := inf
  rw [Fmt.isFinite_pack hm] at notFinite
  rw [Fmt.isNaN_pack hm] at number
  rw [Fmt.sign_pack hm, show m = f.infMag by omega]

theorem Fmt.unpack_of_isInf (hx : x < 2 * f.signMag) (inf : f.IsInf x) : f.unpack x = .inf (f.sign x) :=
  (congrArg f.unpack (Fmt.eq_pack_of_isInf hx inf)).trans Fmt.unpack_pack_inf

theorem Fmt.unpack_of_isFinite (hf : f.Ieee) (hx : x < 2 * f.signMag) (finite : f.IsFinite x) :
    ∃ q, f.unpack x = .fin (f.sign x) q ∧ f.real x = signed (f.sign x) (q / 2 ^ f.quantum) := by
  obtain ⟨a, m, hm, rfl⟩ := Fmt.exists_pack hx
  rw [Fmt.sign_pack hm]
  exact ⟨_, Fmt.unpack_pack_fin ((Fmt.isFinite_pack hm).1 finite), Fmt.real_pack hf hm⟩

/-- Sign inversion, of a pattern that is not a NaN: the class stays. -/
theorem Fmt.negBits_of_number (hf : f.Ieee) (hx : x < 2 * f.signMag) (number : ¬ f.IsNaN x) :
    f.negBits x < 2 * f.signMag ∧ f.negBits x = x ^^^ f.signMag ∧ f.sign (f.negBits x) = !f.sign x ∧
      (f.IsFinite (f.negBits x) ↔ f.IsFinite x) ∧ ¬ f.IsNaN (f.negBits x) ∧ f.real (f.negBits x) = -f.real x := by
  obtain ⟨a, m, hm, rfl⟩ := Fmt.exists_pack hx
  rw [Fmt.isNaN_pack hm, not_lt] at number
  rw [Fmt.negBits_pack number, Fmt.pack_xor_signMag hm, Fmt.sign_pack hm, Fmt.sign_pack hm, Fmt.isFinite_pack hm,
    Fmt.isFinite_pack hm, Fmt.isNaN_pack hm, Fmt.real_pack hf hm, Fmt.real_pack hf hm]
  refine ⟨Fmt.pack_lt hm, rfl, rfl, Iff.rfl, Nat.not_lt.2 number, ?_⟩
  cases a <;> simp

theorem Fmt.isNaN_canonicalNan (hf : f.Ieee) : f.IsNaN f.canonicalNan := by
  have above : f.infMag < f.canonicalNan := Nat.lt_add_of_pos_right (Nat.two_pow_pos _)
  have below : f.canonicalNan < f.signMag := by
    have half : 2 ^ (f.prec - 2) < 2 ^ (f.prec - 1) :=
      Nat.pow_lt_pow_right (by decide) (by have := hf.prec_ge; omega)
    rw [Fmt.canonicalNan, Fmt.infMag, Fmt.signMag, Nat.pow_add, Nat.mul_comm (2 ^ (f.prec - 1)), Nat.sub_mul, Nat.one_mul]
    have := Nat.le_mul_of_pos_left (2 ^ (f.prec - 1)) (Nat.two_pow_pos f.expBits)
    omega
  exact (Fmt.isNaN_pack (neg := false) below).2 above

theorem Fmt.negBits_of_isNaN (hx : x < 2 * f.signMag) (nan : f.IsNaN x) : f.negBits x = f.canonicalNan := by
  rw [Fmt.negBits, Fmt.unpack_of_isNaN hx nan]

/-! ### One rounding of the exact result (R82 (a), (b)) -/

/-- An exact zero needs no rounding and keeps its sign. -/
theorem Fmt.roundTo_zero (hf : f.Ieee) (neg : Bool) {d : Nat} (hd : 0 < d) : f.roundTo neg 0 d = f.pack neg 0 :=
  congrArg (f.pack neg) (Fmt.roundMag_of_eq hf.prec_pos hd (Nat.zero_le _) (by rw [Fmt.quanta_zero, Nat.zero_mul]))

/-- The rounding of a count of whole quanta. -/
theorem Fmt.ieeeRounds_quanta (hf : f.Ieee) (neg : Bool) (n : Nat) {z : ℚ} (exact : z = signed neg (n / 2 ^ f.quantum)) :
    ieeeRounds f.expBits (f.prec - 1) z (f.roundTo neg n 1) := by
  have rounds := Fmt.ieeeRounds_roundTo hf neg (n := n) Nat.one_pos
  rwa [Nat.cast_one, div_one, ← exact] at rounds

theorem Fmt.ieeeRounds_addBits (hf : f.Ieee) (hx : x < 2 * f.signMag) (hy : y < 2 * f.signMag) (fx : f.IsFinite x)
    (fy : f.IsFinite y) : ieeeRounds f.expBits (f.prec - 1) (f.real x + f.real y) (f.addBits x y) := by
  obtain ⟨m, ux, rx⟩ := Fmt.unpack_of_isFinite hf hx fx
  obtain ⟨n, uy, ry⟩ := Fmt.unpack_of_isFinite hf hy fy
  rw [Fmt.addBits, ux, uy, rx, ry]
  dsimp only
  generalize f.sign x = a at *
  generalize f.sign y = b at *
  split_ifs with same equal less
  · refine Fmt.ieeeRounds_quanta hf a _ ?_
    subst same
    cases a <;> simp <;> ring
  · rw [← Fmt.roundTo_zero hf false Nat.one_pos]
    refine Fmt.ieeeRounds_quanta hf false 0 ?_
    cases a <;> cases b <;> simp_all
  · refine Fmt.ieeeRounds_quanta hf a _ ?_
    rw [Nat.cast_sub less.le]
    cases a <;> cases b <;> simp at same ⊢ <;> ring
  · refine Fmt.ieeeRounds_quanta hf b _ ?_
    rw [Nat.cast_sub (Nat.not_lt.1 less)]
    cases a <;> cases b <;> simp at same ⊢ <;> ring

theorem Fmt.ieeeRounds_subBits (hf : f.Ieee) (hx : x < 2 * f.signMag) (hy : y < 2 * f.signMag) (fx : f.IsFinite x)
    (fy : f.IsFinite y) (number : ¬ f.IsNaN y) :
    ieeeRounds f.expBits (f.prec - 1) (f.real x - f.real y) (f.subBits x y) := by
  obtain ⟨bits, -, -, finite, -, real⟩ := Fmt.negBits_of_number hf hy number
  rw [sub_eq_add_neg, ← real]
  exact Fmt.ieeeRounds_addBits hf hx bits fx (finite.2 fy)

/-- The sign of a product or quotient is the exclusive-or of the signs. -/
theorem signed_mul_signed (a b : Bool) (p q : ℚ) : signed a p * signed b q = signed (a != b) (p * q) := by
  cases a <;> cases b <;> simp

theorem signed_div_signed (a b : Bool) (p q : ℚ) : signed a p / signed b q = signed (a != b) (p / q) := by
  cases a <;> cases b <;> simp [neg_div, div_neg]

theorem Fmt.ieeeRounds_mulBits (hf : f.Ieee) (hx : x < 2 * f.signMag) (hy : y < 2 * f.signMag) (fx : f.IsFinite x)
    (fy : f.IsFinite y) : ieeeRounds f.expBits (f.prec - 1) (f.real x * f.real y) (f.mulBits x y) := by
  obtain ⟨m, ux, rx⟩ := Fmt.unpack_of_isFinite hf hx fx
  obtain ⟨n, uy, ry⟩ := Fmt.unpack_of_isFinite hf hy fy
  have rounds := Fmt.ieeeRounds_roundTo hf (f.sign x != f.sign y) (n := m * n) (Nat.two_pow_pos f.quantum)
  rw [Fmt.mulBits, ux, uy, rx, ry, signed_mul_signed, div_mul_div_comm, ← div_div]
  push_cast at rounds
  exact rounds

theorem Fmt.ieeeRounds_divBits (hf : f.Ieee) (hx : x < 2 * f.signMag) (hy : y < 2 * f.signMag) (fx : f.IsFinite x)
    (fy : f.IsFinite y) (nonzero : f.real y ≠ 0) :
    ieeeRounds f.expBits (f.prec - 1) (f.real x / f.real y) (f.divBits x y) := by
  obtain ⟨m, ux, rx⟩ := Fmt.unpack_of_isFinite hf hx fx
  obtain ⟨n, uy, ry⟩ := Fmt.unpack_of_isFinite hf hy fy
  have hn : n ≠ 0 := by rintro rfl; exact nonzero (by rw [ry]; simp)
  have rounds := Fmt.ieeeRounds_roundTo hf (f.sign x != f.sign y) (n := m * 2 ^ f.quantum) (Nat.pos_of_ne_zero hn)
  have exact : ((m * 2 ^ f.quantum : Nat) / n / 2 ^ f.quantum : ℚ) = m / 2 ^ f.quantum / (n / 2 ^ f.quantum) := by
    have : (n : ℚ) ≠ 0 := by exact_mod_cast hn
    push_cast
    field_simp
  rw [exact] at rounds
  rw [Fmt.divBits, ux, uy, rx, ry, signed_div_signed]
  dsimp only
  rwa [if_neg hn]

end

/-- A rounded f32 result keeps its pattern in a word: rounding gives no other patterns. -/
theorem ieeeRounds_ofNat32 {z : ℚ} {bits : Nat} (rounds : ieeeRounds 8 23 z bits) :
    ieeeRounds 8 23 z (BitVec.ofNat 32 bits).toNat := by
  have small : bits < 2 ^ 32 := rounds.1
  rwa [BitVec.toNat_ofNat, Nat.mod_eq_of_lt small]

theorem ieeeRounds_ofNat64 {z : ℚ} {bits : Nat} (rounds : ieeeRounds 11 52 z bits) :
    ieeeRounds 11 52 z (BitVec.ofNat 64 bits).toNat := by
  have small : bits < 2 ^ 64 := rounds.1
  rwa [BitVec.toNat_ofNat, Nat.mod_eq_of_lt small]

/-- A finite pattern is not a NaN. -/
theorem Fmt.not_isNaN_of_isFinite {f : Fmt} {x : Nat} (finite : f.IsFinite x) : ¬ f.IsNaN x := fun ⟨top, _⟩ => finite top

/-- Settles O32: the roundings of the four operations at f32. -/
theorem f32OperationsRoundOnce : Obligations.F32OperationsRoundOnce := by
  intro x y fx fy
  have hx := toNat_lt_signMag32 x
  have hy := toNat_lt_signMag32 y
  exact ⟨ieeeRounds_ofNat32 (Fmt.ieeeRounds_addBits fmt32_ieee hx hy fx fy),
    ieeeRounds_ofNat32 (Fmt.ieeeRounds_subBits fmt32_ieee hx hy fx fy (Fmt.not_isNaN_of_isFinite fy)),
    ieeeRounds_ofNat32 (Fmt.ieeeRounds_mulBits fmt32_ieee hx hy fx fy),
    fun nonzero => ieeeRounds_ofNat32 (Fmt.ieeeRounds_divBits fmt32_ieee hx hy fx fy nonzero)⟩

/-- Settles O33: the roundings of the three operations at f64. -/
theorem f64OperationsRoundOnce : Obligations.F64OperationsRoundOnce := by
  intro x y fx fy
  have hx := toNat_lt_signMag64 x
  have hy := toNat_lt_signMag64 y
  exact ⟨ieeeRounds_ofNat64 (Fmt.ieeeRounds_addBits fmt64_ieee hx hy fx fy),
    ieeeRounds_ofNat64 (Fmt.ieeeRounds_mulBits fmt64_ieee hx hy fx fy),
    fun nonzero => ieeeRounds_ofNat64 (Fmt.ieeeRounds_divBits fmt64_ieee hx hy fx fy nonzero)⟩

/-! ### The results that are no rounded numbers (R82 (d), (e)) -/

section
variable {f : Fmt} {x y : Nat}

/-- R82 (d): a NaN operand gives the canonical NaN. -/
theorem Fmt.operations_of_isNaN (hx : x < 2 * f.signMag) (hy : y < 2 * f.signMag) (nan : f.IsNaN x ∨ f.IsNaN y) :
    f.addBits x y = f.canonicalNan ∧ f.mulBits x y = f.canonicalNan ∧ f.divBits x y = f.canonicalNan := by
  rw [Fmt.addBits, Fmt.mulBits, Fmt.divBits]
  obtain nan | nan := nan
  · rw [Fmt.unpack_of_isNaN hx nan]
    exact ⟨rfl, rfl, rfl⟩
  · rw [Fmt.unpack_of_isNaN hy nan]
    cases f.unpack x <;> exact ⟨rfl, rfl, rfl⟩

/-- A magnitude with the exclusive-or of two signs. -/
theorem Fmt.pack_bne (f : Fmt) (a b : Bool) (m : Nat) : f.pack (a != b) m = if a = b then m else f.signMag + m := by
  cases a <;> cases b <;> rfl

/-! Two infinities. -/

theorem Fmt.addBits_inf_inf (hx : x < 2 * f.signMag) (hy : y < 2 * f.signMag) (ix : f.IsInf x) (iy : f.IsInf y) :
    f.addBits x y = if f.sign x = f.sign y then x else f.canonicalNan := by
  rw [Fmt.addBits, Fmt.unpack_of_isInf hx ix, Fmt.unpack_of_isInf hy iy]
  dsimp only
  rw [← Fmt.eq_pack_of_isInf hx ix]

theorem Fmt.mulBits_inf_inf (hx : x < 2 * f.signMag) (hy : y < 2 * f.signMag) (ix : f.IsInf x) (iy : f.IsInf y) :
    f.mulBits x y = if f.sign x = f.sign y then f.infMag else f.signMag + f.infMag := by
  rw [Fmt.mulBits, Fmt.unpack_of_isInf hx ix, Fmt.unpack_of_isInf hy iy]
  exact f.pack_bne _ _ _

theorem Fmt.divBits_inf_inf (hx : x < 2 * f.signMag) (hy : y < 2 * f.signMag) (ix : f.IsInf x) (iy : f.IsInf y) :
    f.divBits x y = f.canonicalNan := by
  rw [Fmt.divBits, Fmt.unpack_of_isInf hx ix, Fmt.unpack_of_isInf hy iy]

/-! An infinity and a finite number. -/

theorem Fmt.addBits_inf_fin (hf : f.Ieee) (hx : x < 2 * f.signMag) (hy : y < 2 * f.signMag) (ix : f.IsInf x)
    (fy : f.IsFinite y) : f.addBits x y = x ∧ f.addBits y x = x := by
  obtain ⟨n, uy, -⟩ := Fmt.unpack_of_isFinite hf hy fy
  rw [Fmt.addBits, Fmt.addBits, Fmt.unpack_of_isInf hx ix, uy]
  exact ⟨(Fmt.eq_pack_of_isInf hx ix).symm, (Fmt.eq_pack_of_isInf hx ix).symm⟩

theorem Fmt.real_eq_zero {neg : Bool} {q : Nat} (real : f.real x = signed neg (q / 2 ^ f.quantum)) :
    f.real x = 0 ↔ q = 0 := by
  rw [real, signed_eq_zero, div_eq_zero_iff, Nat.cast_eq_zero]
  exact or_iff_left (by positivity)

theorem Fmt.mulBits_inf_fin (hf : f.Ieee) (hx : x < 2 * f.signMag) (hy : y < 2 * f.signMag) (ix : f.IsInf x)
    (fy : f.IsFinite y) :
    (f.real y = 0 → f.mulBits x y = f.canonicalNan ∧ f.mulBits y x = f.canonicalNan) ∧
      (f.real y ≠ 0 → f.mulBits x y = (if f.sign x = f.sign y then f.infMag else f.signMag + f.infMag) ∧
        f.mulBits y x = if f.sign x = f.sign y then f.infMag else f.signMag + f.infMag) := by
  obtain ⟨n, uy, ry⟩ := Fmt.unpack_of_isFinite hf hy fy
  rw [Ne, Fmt.real_eq_zero ry, Fmt.mulBits, Fmt.mulBits, Fmt.unpack_of_isInf hx ix, uy]
  dsimp only
  refine ⟨fun zero => ⟨if_pos zero, if_pos zero⟩, fun nonzero => ?_⟩
  rw [if_neg nonzero, if_neg nonzero, bne_comm (a := f.sign y), f.pack_bne]
  exact ⟨rfl, rfl⟩

theorem Fmt.divBits_inf_fin (hf : f.Ieee) (hx : x < 2 * f.signMag) (hy : y < 2 * f.signMag) (ix : f.IsInf x)
    (fy : f.IsFinite y) : f.divBits x y = (if f.sign x = f.sign y then f.infMag else f.signMag + f.infMag) ∧
      f.divBits y x = if f.sign x = f.sign y then 0 else f.signMag := by
  obtain ⟨n, uy, -⟩ := Fmt.unpack_of_isFinite hf hy fy
  rw [Fmt.divBits, Fmt.divBits, Fmt.unpack_of_isInf hx ix, uy]
  dsimp only
  rw [bne_comm (a := f.sign y), f.pack_bne, f.pack_bne]
  exact ⟨rfl, rfl⟩

/-! Two finite numbers with a zero or infinite result. -/

theorem Fmt.addBits_eq_zero (hf : f.Ieee) (hx : x < 2 * f.signMag) (hy : y < 2 * f.signMag) (fx : f.IsFinite x)
    (fy : f.IsFinite y) (zero : f.real x + f.real y = 0) :
    f.addBits x y = if f.sign x = true ∧ f.sign y = true then f.signMag else 0 := by
  obtain ⟨m, ux, rx⟩ := Fmt.unpack_of_isFinite hf hx fx
  obtain ⟨n, uy, ry⟩ := Fmt.unpack_of_isFinite hf hy fy
  have scale : (2 : ℚ) ^ f.quantum ≠ 0 := by positivity
  rw [rx, ry] at zero
  rw [Fmt.addBits, ux, uy]
  dsimp only
  generalize f.sign x = a at *
  generalize f.sign y = b at *
  by_cases same : a = b
  · subst same
    have none : (m + n : ℚ) / 2 ^ f.quantum = 0 := by
      rw [add_div]
      cases a <;> simp at zero <;> linarith
    obtain ⟨rfl, rfl⟩ : m = 0 ∧ n = 0 := by
      have : m + n = 0 := by exact_mod_cast (div_eq_zero_iff.1 none).resolve_right scale
      omega
    rw [if_pos rfl, Nat.add_zero, Fmt.roundTo_zero hf a Nat.one_pos]
    cases a <;> rfl
  · have equal : (m / 2 ^ f.quantum : ℚ) = n / 2 ^ f.quantum := by
      cases a <;> cases b <;> simp at same zero <;> linarith
    rw [if_neg same, if_pos (Nat.cast_inj.1 ((div_left_inj' scale).1 equal))]
    cases a <;> cases b <;> simp [Fmt.pack] at same ⊢

theorem Fmt.mulBits_eq_zero (hf : f.Ieee) (hx : x < 2 * f.signMag) (hy : y < 2 * f.signMag) (fx : f.IsFinite x)
    (fy : f.IsFinite y) (zero : f.real x = 0 ∨ f.real y = 0) :
    f.mulBits x y = if f.sign x = f.sign y then 0 else f.signMag := by
  obtain ⟨m, ux, rx⟩ := Fmt.unpack_of_isFinite hf hx fx
  obtain ⟨n, uy, ry⟩ := Fmt.unpack_of_isFinite hf hy fy
  rw [Fmt.real_eq_zero rx, Fmt.real_eq_zero ry, ← Nat.mul_eq_zero] at zero
  rw [Fmt.mulBits, ux, uy]
  dsimp only
  rw [zero, Fmt.roundTo_zero hf _ (Nat.two_pow_pos _)]
  exact f.pack_bne _ _ _

theorem Fmt.divBits_fin_fin (hf : f.Ieee) (hx : x < 2 * f.signMag) (hy : y < 2 * f.signMag) (fx : f.IsFinite x)
    (fy : f.IsFinite y) :
    (f.real x = 0 → f.real y ≠ 0 → f.divBits x y = if f.sign x = f.sign y then 0 else f.signMag) ∧
      (f.real x ≠ 0 → f.real y = 0 → f.divBits x y =
        if f.sign x = f.sign y then f.infMag else f.signMag + f.infMag) ∧
      (f.real x = 0 → f.real y = 0 → f.divBits x y = f.canonicalNan) := by
  obtain ⟨m, ux, rx⟩ := Fmt.unpack_of_isFinite hf hx fx
  obtain ⟨n, uy, ry⟩ := Fmt.unpack_of_isFinite hf hy fy
  rw [Ne, Ne, Fmt.real_eq_zero rx, Fmt.real_eq_zero ry, Fmt.divBits, ux, uy]
  dsimp only
  refine ⟨fun zero nonzero => ?_, fun nonzero zero => ?_, fun zero zero' => ?_⟩
  · rw [if_neg nonzero, zero, Nat.zero_mul, Fmt.roundTo_zero hf _ (Nat.pos_of_ne_zero nonzero)]
    exact f.pack_bne _ _ _
  · rw [if_pos zero, if_neg nonzero]
    exact f.pack_bne _ _ _
  · rw [if_pos zero', if_pos zero]

end

/-! ### Subtraction, as the sum with the inverse (R84) -/

section
variable {f : Fmt} {x y : Nat}

theorem Fmt.subBits_of_isNaN (hf : f.Ieee) (hx : x < 2 * f.signMag) (hy : y < 2 * f.signMag)
    (nan : f.IsNaN x ∨ f.IsNaN y) : f.subBits x y = f.canonicalNan := by
  by_cases nanY : f.IsNaN y
  · rw [Fmt.subBits, Fmt.negBits_of_isNaN hy nanY]
    exact (Fmt.operations_of_isNaN hx (Fmt.canonicalNan_lt hf) (.inr (Fmt.isNaN_canonicalNan hf))).1
  · exact (Fmt.operations_of_isNaN hx (Fmt.negBits_of_number hf hy nanY).1 (.inl (nan.resolve_right nanY))).1

theorem Fmt.subBits_inf_inf (hf : f.Ieee) (hx : x < 2 * f.signMag) (hy : y < 2 * f.signMag) (ix : f.IsInf x)
    (iy : f.IsInf y) : f.subBits x y = if f.sign x = f.sign y then f.canonicalNan else x := by
  obtain ⟨bits, -, sign, finite, number, -⟩ := Fmt.negBits_of_number hf hy iy.2
  rw [Fmt.subBits, Fmt.addBits_inf_inf hx bits ix ⟨mt finite.1 iy.1, number⟩, sign]
  cases f.sign x <;> cases f.sign y <;> rfl

theorem Fmt.subBits_inf_fin (hf : f.Ieee) (hx : x < 2 * f.signMag) (hy : y < 2 * f.signMag) (ix : f.IsInf x)
    (fy : f.IsFinite y) : f.subBits x y = x ∧ f.subBits y x = x ^^^ f.signMag := by
  obtain ⟨bitsY, -, -, finiteY, -, -⟩ := Fmt.negBits_of_number hf hy (Fmt.not_isNaN_of_isFinite fy)
  obtain ⟨bitsX, flip, -, finiteX, numberX, -⟩ := Fmt.negBits_of_number hf hx ix.2
  refine ⟨(Fmt.addBits_inf_fin hf hx bitsY ix (finiteY.2 fy)).1, ?_⟩
  rw [← flip]
  exact (Fmt.addBits_inf_fin hf bitsX hy ⟨mt finiteX.1 ix.1, numberX⟩ fy).2

theorem Fmt.subBits_eq_zero (hf : f.Ieee) (hx : x < 2 * f.signMag) (hy : y < 2 * f.signMag) (fx : f.IsFinite x)
    (fy : f.IsFinite y) (same : f.real x = f.real y) :
    f.subBits x y = if f.sign x = true ∧ f.sign y = false then f.signMag else 0 := by
  obtain ⟨bits, -, sign, finite, -, real⟩ := Fmt.negBits_of_number hf hy (Fmt.not_isNaN_of_isFinite fy)
  have zero : f.real x + f.real (f.negBits y) = 0 := by rw [real, same, add_neg_cancel]
  rw [Fmt.subBits, Fmt.addBits_eq_zero hf hx bits fx (finite.2 fy) zero, sign]
  simp only [Bool.not_eq_true']

end

/-! ### The special results of both formats -/

/-- A word with the bits of an operation's result. -/
theorem ofNat_eq_of_toNat {w bits : Nat} {v : BitVec w} (result : bits = v.toNat) : BitVec.ofNat w bits = v := by
  rw [result, BitVec.ofNat_toNat, BitVec.setWidth_eq]

/-- A result that the signs select, as a word. -/
theorem ofNat_eq_ite {w bits m n : Nat} {c : Prop} [Decidable c] {u v : BitVec w} (result : bits = if c then m else n)
    (first : m = u.toNat) (second : n = v.toNat) : BitVec.ofNat w bits = if c then u else v := by
  rw [result, first, second, ← apply_ite BitVec.toNat]
  exact ofNat_eq_of_toNat rfl

/-- Settles O34: the results by class of the operands, at f32. -/
theorem f32SpecialResults : Obligations.F32SpecialResults := by
  intro x y
  have hx := toNat_lt_signMag32 x
  have hy := toNat_lt_signMag32 y
  refine ⟨fun nan => ?nan, fun notFiniteX numberX notFiniteY numberY => ?infInf, fun notFiniteX numberX fy => ?infFin,
    fun fx fy => ?finFin⟩
  case nan =>
    obtain ⟨add, mul, div⟩ := Fmt.operations_of_isNaN hx hy nan
    exact ⟨ofNat_eq_of_toNat add, ofNat_eq_of_toNat (Fmt.subBits_of_isNaN fmt32_ieee hx hy nan), ofNat_eq_of_toNat mul,
      ofNat_eq_of_toNat div,
      (remainderIsExact.1 x y).2.2 (nan.imp (fun nanX finite => Fmt.not_isNaN_of_isFinite (f := fmt32) finite nanX) .inl)⟩
  case infInf =>
    have ix : fmt32.IsInf x.toNat := ⟨notFiniteX, numberX⟩
    have iy : fmt32.IsInf y.toNat := ⟨notFiniteY, numberY⟩
    exact ⟨ofNat_eq_ite (Fmt.addBits_inf_inf hx hy ix iy) rfl rfl,
      ofNat_eq_ite (Fmt.subBits_inf_inf fmt32_ieee hx hy ix iy) rfl rfl,
      ofNat_eq_ite (Fmt.mulBits_inf_inf hx hy ix iy) rfl rfl, ofNat_eq_of_toNat (Fmt.divBits_inf_inf hx hy ix iy)⟩
  case infFin =>
    have ix : fmt32.IsInf x.toNat := ⟨notFiniteX, numberX⟩
    obtain ⟨addL, addR⟩ := Fmt.addBits_inf_fin fmt32_ieee hx hy ix fy
    obtain ⟨subL, subR⟩ := Fmt.subBits_inf_fin fmt32_ieee hx hy ix fy
    obtain ⟨mulZero, mulInf⟩ := Fmt.mulBits_inf_fin fmt32_ieee hx hy ix fy
    obtain ⟨divL, divR⟩ := Fmt.divBits_inf_fin fmt32_ieee hx hy ix fy
    exact ⟨ofNat_eq_of_toNat addL, ofNat_eq_of_toNat addR, ofNat_eq_of_toNat subL,
      ofNat_eq_of_toNat (subR.trans (BitVec.toNat_xor x 0x80000000).symm),
      fun zero => ⟨ofNat_eq_of_toNat (mulZero zero).1, ofNat_eq_of_toNat (mulZero zero).2⟩,
      fun nonzero => ⟨ofNat_eq_ite (mulInf nonzero).1 rfl rfl, ofNat_eq_ite (mulInf nonzero).2 rfl rfl⟩,
      ofNat_eq_ite divL rfl rfl, ofNat_eq_ite divR rfl rfl⟩
  case finFin =>
    obtain ⟨divZero, divByZero, divNan⟩ := Fmt.divBits_fin_fin fmt32_ieee hx hy fx fy
    exact ⟨fun zero => ofNat_eq_ite (Fmt.addBits_eq_zero fmt32_ieee hx hy fx fy zero) rfl rfl,
      fun same => ofNat_eq_ite (Fmt.subBits_eq_zero fmt32_ieee hx hy fx fy same) rfl rfl,
      fun zero => ofNat_eq_ite (Fmt.mulBits_eq_zero fmt32_ieee hx hy fx fy zero) rfl rfl,
      fun zero nonzero => ofNat_eq_ite (divZero zero nonzero) rfl rfl,
      fun nonzero zero => ofNat_eq_ite (divByZero nonzero zero) rfl rfl,
      fun zero zero' => ofNat_eq_of_toNat (divNan zero zero')⟩

/-- Settles O60: the results by class of the operands, at f64. -/
theorem f64SpecialResults : Obligations.F64SpecialResults := by
  intro x y
  have hx := toNat_lt_signMag64 x
  have hy := toNat_lt_signMag64 y
  refine ⟨fun nan => ?nan, fun notFiniteX numberX notFiniteY numberY => ?infInf, fun notFiniteX numberX fy => ?infFin,
    fun fx fy => ?finFin⟩
  case nan =>
    obtain ⟨add, mul, div⟩ := Fmt.operations_of_isNaN hx hy nan
    exact ⟨ofNat_eq_of_toNat add, ofNat_eq_of_toNat mul, ofNat_eq_of_toNat div⟩
  case infInf =>
    have ix : fmt64.IsInf x.toNat := ⟨notFiniteX, numberX⟩
    have iy : fmt64.IsInf y.toNat := ⟨notFiniteY, numberY⟩
    exact ⟨ofNat_eq_ite (Fmt.addBits_inf_inf hx hy ix iy) rfl rfl,
      ofNat_eq_ite (Fmt.mulBits_inf_inf hx hy ix iy) rfl rfl, ofNat_eq_of_toNat (Fmt.divBits_inf_inf hx hy ix iy)⟩
  case infFin =>
    have ix : fmt64.IsInf x.toNat := ⟨notFiniteX, numberX⟩
    obtain ⟨addL, addR⟩ := Fmt.addBits_inf_fin fmt64_ieee hx hy ix fy
    obtain ⟨mulZero, mulInf⟩ := Fmt.mulBits_inf_fin fmt64_ieee hx hy ix fy
    obtain ⟨divL, divR⟩ := Fmt.divBits_inf_fin fmt64_ieee hx hy ix fy
    exact ⟨ofNat_eq_of_toNat addL, ofNat_eq_of_toNat addR,
      fun zero => ⟨ofNat_eq_of_toNat (mulZero zero).1, ofNat_eq_of_toNat (mulZero zero).2⟩,
      fun nonzero => ⟨ofNat_eq_ite (mulInf nonzero).1 rfl rfl, ofNat_eq_ite (mulInf nonzero).2 rfl rfl⟩,
      ofNat_eq_ite divL rfl rfl, ofNat_eq_ite divR rfl rfl⟩
  case finFin =>
    obtain ⟨divZero, divByZero, divNan⟩ := Fmt.divBits_fin_fin fmt64_ieee hx hy fx fy
    exact ⟨fun zero => ofNat_eq_ite (Fmt.addBits_eq_zero fmt64_ieee hx hy fx fy zero) rfl rfl,
      fun zero => ofNat_eq_ite (Fmt.mulBits_eq_zero fmt64_ieee hx hy fx fy zero) rfl rfl,
      fun zero nonzero => ofNat_eq_ite (divZero zero nonzero) rfl rfl,
      fun nonzero zero => ofNat_eq_ite (divByZero nonzero zero) rfl rfl,
      fun zero zero' => ofNat_eq_of_toNat (divNan zero zero')⟩

end Sys2Proof.Machine

/-! PROOFS. The phase (`43_voice.md` R145 to R147): the sum and the remainder of a tick, the size of an increment, and the
phases of the voice file after a step. -/

namespace Sys2Proof.Machine

/-! ### Counts of quanta and roundings within a bound -/

section
variable {f : Fmt}

/-- A power of two below the quanta of infinity is a finite number of the format. -/
theorem Fmt.exists_quanta_two_pow (hf : f.Ieee) {e : Nat} (small : 2 ^ e < f.quanta f.infMag) :
    ∃ m, m < f.infMag ∧ f.quanta m = 2 ^ e := by
  have hp := hf.prec_pos
  obtain ⟨m, hm⟩ := (Fmt.exists_quanta_iff hp).2 ⟨1, e, Nat.one_lt_two_pow (by omega), (Nat.one_mul _).symm⟩
  exact ⟨m, (Fmt.quanta_lt_iff hp).1 (hm ▸ small), hm⟩

/-- An exact result of at most the quanta of a finite number rounds to at most that number. -/
theorem Fmt.unpack_roundTo_of_le (hf : f.Ieee) (neg : Bool) {n d m : Nat} (hd : 0 < d) (finite : m < f.infMag)
    (le : n ≤ f.quanta m * d) :
    ∃ k, k ≤ m ∧ k = f.roundMag n d ∧ f.unpack (f.roundTo neg n d) = .fin neg (f.quanta k) := by
  have bound := Fmt.roundMag_le_of_le_quanta hf.prec_pos hd le
  refine ⟨_, bound, rfl, ?_⟩
  rw [Fmt.unpack_roundTo, if_neg (bound.trans_lt finite).ne]

end

/-! ### f64: non-negative values -/

/-- A finite f64 that is not negative, at most `2^e` quanta; `-0.0` is not negative. -/
def NonNeg64 (e : Nat) (x : F64) : Prop := ∃ neg q, q ≤ 2 ^ e ∧ (neg = true → q = 0) ∧ val64 x = .fin neg q

theorem fmt64_quanta_infMag : fmt64.quanta fmt64.infMag = 2 ^ 2098 :=
  (fmt64_ieee.quanta_top (b := 1023) (by decide) (by decide)).1

/-- A rounded result of a sign that only zero has when it is negative. -/
theorem nonNeg64_roundTo {neg : Bool} {n d e : Nat} (hd : 0 < d) (small : e < 2098) (le : n ≤ 2 ^ e * d)
    (zero : neg = true → n = 0) : NonNeg64 e (BitVec.ofNat 64 (fmt64.roundTo neg n d)) := by
  obtain ⟨m, finite, hm⟩ := Fmt.exists_quanta_two_pow fmt64_ieee (e := e)
    (by rw [fmt64_quanta_infMag]; exact Nat.pow_lt_pow_right (by decide) small)
  obtain ⟨k, hk, rfl, unpacked⟩ := Fmt.unpack_roundTo_of_le fmt64_ieee neg hd finite (hm ▸ le)
  refine ⟨neg, _, hm ▸ (Fmt.quanta_le_iff fmt64_prec_pos).2 hk, fun negative => ?_, ?_⟩
  · rw [zero negative, Fmt.roundMag_of_eq fmt64_prec_pos (m := 0) hd (Nat.zero_le _) (by simp), Fmt.quanta_zero]
  · rw [val64, toNat_roundTo64, unpacked]

theorem mul64_fin {x y : F64} {a b : Bool} {m n : Nat} (hx : val64 x = .fin a m) (hy : val64 y = .fin b n) :
    mul64 x y = BitVec.ofNat 64 (fmt64.roundTo (a != b) (m * n) (2 ^ fmt64.quantum)) := by
  unfold val64 at hx hy
  rw [mul64, Fmt.mulBits, hx, hy]

theorem div64_fin {x y : F64} {a b : Bool} {m n : Nat} (hx : val64 x = .fin a m) (hy : val64 y = .fin b n)
    (hn : n ≠ 0) : div64 x y = BitVec.ofNat 64 (fmt64.roundTo (a != b) (m * 2 ^ fmt64.quantum) n) := by
  unfold val64 at hx hy
  rw [div64, Fmt.divBits, hx, hy]
  exact congrArg _ (if_neg hn)

/-- A product with a positive constant of at most `2^g` units of `1.0`. -/
theorem NonNeg64.mul {x y : F64} {e g n : Nat} (hx : NonNeg64 e x) (hy : val64 y = .fin false n)
    (le : n ≤ 2 ^ (g + fmt64.quantum)) (small : e + g < 2098) :
    NonNeg64 (e + g) (mul64 x y) ∧ NonNeg64 (e + g) (mul64 y x) := by
  obtain ⟨neg, q, hq, zero, val⟩ := hx
  have bound : q * n ≤ 2 ^ (e + g) * 2 ^ fmt64.quantum := by
    rw [← Nat.pow_add, Nat.add_assoc, Nat.pow_add 2 e]
    exact Nat.mul_le_mul hq le
  rw [mul64_fin val hy, mul64_fin hy val, Bool.bne_false, Bool.false_bne, Nat.mul_comm n]
  have product : neg = true → q * n = 0 := fun negative => by rw [zero negative, Nat.zero_mul]
  exact ⟨nonNeg64_roundTo (Nat.two_pow_pos _) small bound product,
    nonNeg64_roundTo (Nat.two_pow_pos _) small bound product⟩

/-- A quotient by a positive number of at least `2^g` quanta. -/
theorem NonNeg64.div {x y : F64} {e g n : Nat} (hx : NonNeg64 e x) (hy : val64 y = .fin false n) (ge : 2 ^ g ≤ n)
    (le : g ≤ e + fmt64.quantum) (small : e + fmt64.quantum - g < 2098) :
    NonNeg64 (e + fmt64.quantum - g) (div64 x y) := by
  obtain ⟨neg, q, hq, zero, val⟩ := hx
  have pos : 0 < n := (Nat.two_pow_pos g).trans_le ge
  rw [div64_fin val hy pos.ne', Bool.bne_false]
  refine nonNeg64_roundTo pos small ?_ fun negative => by rw [zero negative, Nat.zero_mul]
  calc q * 2 ^ fmt64.quantum ≤ 2 ^ e * 2 ^ fmt64.quantum := Nat.mul_le_mul_right _ hq
    _ = 2 ^ (e + fmt64.quantum - g) * 2 ^ g := by rw [← Nat.pow_add, ← Nat.pow_add, Nat.sub_add_cancel le]
    _ ≤ 2 ^ (e + fmt64.quantum - g) * n := Nat.mul_le_mul_left _ ge

/-! ### The increment (R145) -/

/-- The quanta of an f32, widened: `1074 - 149` binary places more. -/
theorem val64_widen {x : F32} {neg : Bool} {q : Nat} (val : val32 x = .fin neg q) :
    val64 (widen x) = .fin neg (q * 2 ^ 925) := by
  obtain ⟨finite, -, quanta⟩ := Fmt.unpack_fin val
  obtain ⟨k, hk, same⟩ := exists_quanta64_of_finite32 finite
  rw [← quanta] at same
  have wide : fmt64.quanta k = q * 2 ^ 925 := by
    refine Nat.eq_of_mul_eq_mul_right (Nat.two_pow_pos fmt32.quantum) ?_
    rw [← same, Nat.mul_assoc, ← Nat.pow_add]
    rfl
  rw [widen_fin val, val64, toNat_roundTo64, Fmt.unpack_roundTo,
    Fmt.roundMag_of_eq fmt64_prec_pos (Nat.two_pow_pos _) hk.le same, if_neg hk.ne, wide]

theorem nonNeg64_widen {x : F32} {neg : Bool} {q e : Nat} (val : val32 x = .fin neg q) (le : q ≤ 2 ^ e)
    (zero : neg = true → q = 0) : NonNeg64 (e + 925) (widen x) := by
  refine ⟨neg, _, ?_, fun negative => by rw [zero negative, Nat.zero_mul], val64_widen val⟩
  rw [Nat.pow_add]
  exact Nat.mul_le_mul_right _ le

theorem quanta_lt_of_val32 {x : F32} {neg : Bool} {q : Nat} (val : val32 x = .fin neg q) : q < 2 ^ 277 := by
  obtain ⟨finite, -, rfl⟩ := Fmt.unpack_fin val
  have top := (fmt32_ieee.quanta_top (b := 127) (by decide) (by decide)).1
  have below := (Fmt.quanta_lt_iff fmt32_prec_pos).2 finite
  rwa [top] at below

/-- The sign of a number that is not negative. -/
theorem eq_zero_of_real32_nonneg {x : F32} {neg : Bool} {q : Nat} (val : val32 x = .fin neg q) (nonneg : 0 ≤ real32 x) :
    neg = true → q = 0 := by
  rintro rfl
  rw [real32_of_val32 val, signed_true, neg_nonneg] at nonneg
  have zero : (q : ℚ) / 2 ^ 149 = 0 := le_antisymm nonneg (by positivity)
  exact_mod_cast (div_eq_zero_iff.1 zero).resolve_right (by positivity)

/-- A positive number has its sign bit clear and a quantum at least. -/
theorem exists_val32_of_pos {x : F32} (finite : finite32 x) (pos : 0 < real32 x) :
    ∃ q, 1 ≤ q ∧ val32 x = .fin false q := by
  obtain ⟨neg, q, val⟩ := exists_val32_of_finite32 finite
  have nonzero : q ≠ 0 := by
    rintro rfl
    rw [real32_of_val32 val] at pos
    cases neg <;> simp at pos
  cases neg with
  | false => exact ⟨q, Nat.one_le_iff_ne_zero.2 nonzero, val⟩
  | true => exact absurd (eq_zero_of_real32_nonneg val pos.le rfl) nonzero

theorem val64_two64 : val64 two64 = .fin false (2 ^ (1 + fmt64.quantum)) := by decide +kernel

/-- `PI64` is below 4. -/
theorem val64_pi64 : ∃ n, n ≤ 2 ^ (2 + fmt64.quantum) ∧ val64 pi64 = .fin false n :=
  ⟨fmt64.quanta pi64.toNat, by decide +kernel, by decide +kernel⟩

theorem NonNeg64.incrementOk {v : Voice} {e : Nat} (small : NonNeg64 e v.increment) : v.incrementOk := by
  obtain ⟨neg, q, -, zero, val⟩ := small
  obtain ⟨finite, sign, quanta⟩ := Fmt.unpack_fin val
  have word := v.increment.isLt
  simp only [fmt64_signMag, fmt64_infMag] at finite sign quanta
  rw [Voice.incrementOk]
  cases neg with
  | false =>
    have := of_decide_eq_false sign.symm
    exact .inl (by omega)
  | true =>
    have signed := of_decide_eq_true sign.symm
    have mag := (Fmt.quanta_eq_zero fmt64_prec_pos).1 (quanta.symm.trans (zero rfl))
    exact .inr (BitVec.eq_of_toNat_eq (by change _ = 9223372036854775808; omega))

/-- The increment is at most `2^280`, however small the sample rate is. -/
theorem incrementOk_of_frequency {v : Voice} (finite : finite32 v.frequency) (nonneg : 0 ≤ real32 v.frequency)
    (rateFinite : finite32 v.sampleRate) (ratePos : 0 < real32 v.sampleRate) : v.incrementOk := by
  obtain ⟨neg, q, val⟩ := exists_val32_of_finite32 finite
  obtain ⟨r, hr, rate⟩ := exists_val32_of_pos rateFinite ratePos
  obtain ⟨n, pi_le, pi⟩ := val64_pi64
  have frequency := nonNeg64_widen val (quanta_lt_of_val32 val).le (eq_zero_of_real32_nonneg val nonneg)
  have doubled := (frequency.mul val64_two64 le_rfl (by decide)).2
  have angular := (doubled.mul pi pi_le (by decide)).1
  exact (angular.div (g := 925) (val64_widen rate) (Nat.le_mul_of_pos_left _ hr) (by decide) (by decide)).incrementOk

/-! ### One tick (R146) -/

theorem val64_of_lt {x : F64} (finite : x.toNat < fmt64.infMag) : val64 x = .fin false (fmt64.quanta x.toNat) := by
  have unpacked := Fmt.unpack_pack_fin (neg := false) finite
  rwa [Fmt.pack_false] at unpacked

/-- The values of an increment that R147 presumes. -/
theorem val64_of_incrementOk {x : F64} (ok : x.toNat < 0x7FF0000000000000 ∨ x = 0x8000000000000000) :
    ∃ neg m, m < fmt64.infMag ∧ (neg = true → m = 0) ∧ val64 x = .fin neg (fmt64.quanta m) := by
  obtain positive | negZero := ok
  · have finite : x.toNat < fmt64.infMag := by rwa [fmt64_infMag]
    exact ⟨false, _, finite, fun neg => absurd neg Bool.false_ne_true, val64_of_lt finite⟩
  · exact ⟨true, 0, by decide, fun _ => rfl, by rw [negZero, Fmt.quanta_zero]; decide⟩

/-- A sum with a number that is not negative, `-0.0` among them. -/
theorem add64_of_nonneg {x y : F64} {neg : Bool} {m n : Nat} (hx : val64 x = .fin false m) (hy : val64 y = .fin neg n)
    (zero : neg = true → n = 0) : add64 x y = BitVec.ofNat 64 (fmt64.roundTo false (m + n) 1) := by
  rw [add64_fin hx hy]
  cases neg with
  | false => rw [if_pos rfl]
  | true =>
    rw [zero rfl, if_neg Bool.false_ne_true, Nat.add_zero, Nat.sub_zero]
    split_ifs with none pos
    · rw [none, Fmt.roundTo_zero fmt64_ieee false Nat.one_pos]
    · rfl
    · omega

/-- A number of at most `s - 1` units and less than half a unit more are less than halfway from `s - 1` to `s` units. -/
theorem two_mul_add_lt_midpoint {p m s unit : Nat} (hs : 0 < s) (hp : 2 * p < unit) (hm : m ≤ (s - 1) * unit) :
    2 * (p + m) < (s - 1) * unit + s * unit := by
  have next : s * unit = (s - 1) * unit + unit := by rw [← Nat.succ_mul, Nat.succ_eq_add_one, Nat.sub_add_cancel hs]
  omega

/-- A phase cannot carry a finite increment to infinity: half a unit of the greatest finite number is far more than
`TWO_PI64`. -/
theorem roundMag_phase_add {p m : Nat} (phase : p < twoPi64.toNat) (finite : m < fmt64.infMag) :
    fmt64.roundMag (fmt64.quanta p + fmt64.quanta m) 1 < fmt64.infMag := by
  obtain ⟨inf, greatest⟩ := fmt64_ieee.quanta_top (b := 1023) (by decide) (by decide)
  have wide : fmt64.quanta fmt64.infMag = 2 ^ fmt64.prec * 2 ^ (2 * 1023 - 1) := inf.trans (by decide +kernel)
  have reach := Fmt.succ_le_rawMag_iff (f := fmt64) (by decide) (n := fmt64.quanta p + fmt64.quanta m)
    (m := fmt64.infMag - 1) Nat.one_pos (by decide)
  have small : 2 * fmt64.quanta twoPi64.toNat < 2 ^ (2 * 1023 - 1) := by decide +kernel
  have hp : 2 * fmt64.quanta p < 2 ^ (2 * 1023 - 1) :=
    lt_of_le_of_lt (Nat.mul_le_mul_left 2 ((Fmt.quanta_le_iff fmt64_prec_pos).2 phase.le)) small
  have hm : fmt64.quanta m ≤ fmt64.quanta (fmt64.infMag - 1) := (Fmt.quanta_le_iff fmt64_prec_pos).2 (by omega)
  rw [show fmt64.infMag - 1 + 1 = fmt64.infMag by decide, wide, greatest, Nat.mul_one] at reach
  rw [greatest] at hm
  rw [Fmt.roundMag_eq, min_lt_iff]
  exact .inr (Nat.lt_of_not_le fun overflow =>
    (two_mul_add_lt_midpoint (s := 2 ^ fmt64.prec) (by positivity) hp hm).not_ge (reach.1 overflow))

theorem phaseInRange_advance {v : Voice} (phase : phaseInRange v.phase) (ok : v.incrementOk) :
    phaseInRange v.advance.phase := by
  obtain ⟨neg, m, finite, zero, val⟩ := val64_of_incrementOk ok
  have phaseFinite : v.phase.toNat < fmt64.infMag := lt_trans phase (by decide)
  have sum : add64 v.phase v.increment = _ :=
    add64_of_nonneg (val64_of_lt phaseFinite) val fun negative => by rw [zero negative, Fmt.quanta_zero]
  obtain ⟨k, -, below, -, remainder⟩ := Fmt.fmodBits_pack fmt64_ieee (a := false) (b := false)
    (roundMag_phase_add phase finite) (n := twoPi64.toNat) (by decide) (by decide)
  have result : v.advance.phase.toNat = k := by
    rw [Voice.advance, toNat_fmod64, sum, toNat_roundTo64]
    exact remainder
  rw [phaseInRange, result]
  exact below

theorem Voice.phaseAfter_succ (v : Voice) (n : Nat) :
    v.phaseAfter (n + 1) = (Voice.advance { v with phase := v.phaseAfter n }).phase := by
  rw [Voice.advance_phaseAfter]

/-- R147: the ticks keep the phase in its range. -/
theorem phaseInRange_phaseAfter {v : Voice} (n : Nat) (phase : phaseInRange v.phase) (ok : v.incrementOk) :
    phaseInRange (v.phaseAfter n) := by
  induction n with
  | zero => exact phase
  | succ n ih =>
    rw [Voice.phaseAfter_succ]
    exact phaseInRange_advance (v := { v with phase := v.phaseAfter n }) ih ok

/-! ### The real bound -/

theorem real64_twoPi64 : real64 twoPi64 = 884279719003555 / 2 ^ 47 := by
  rw [real64_eq, show twoPi64.toNat = fmt64.pack false 0x401921FB54442D18 from rfl,
    Fmt.real_pack fmt64_ieee (by decide),
    show fmt64.quanta 0x401921FB54442D18 = 884279719003555 * 2 ^ 1027 by decide +kernel,
    signed_false, fmt64_quantum, div_eq_div_iff (by positivity) (by positivity)]
  push_cast
  rw [mul_assoc, ← pow_add]

theorem real64_twoPi64_lt : ((real64 twoPi64 : ℚ) : ℝ) < 2 * Real.pi := by
  have := Real.pi_gt_d20
  rw [real64_twoPi64]
  push_cast
  norm_num at this ⊢
  linarith

/-- Settles O49: the range tick by tick, the digits of the constant, and the size of an increment operation by operation. -/
theorem phaseLaw : Obligations.PhaseLaw :=
  ⟨fun _ n phase ok => phaseInRange_phaseAfter n phase ok, real64_twoPi64_lt,
    fun _ => incrementOk_of_frequency⟩

/-! ### The phases of the voice file -/

theorem phaseInRange_zero : phaseInRange 0 := by
  rw [phaseInRange]
  decide

/-- A completion keeps a phase, clears it, or advances it in a slot that sounds. -/
theorem Completes.phasesInRange {i : Instr} {s u : State} {data : Word} (h : Completes i s u data)
    (phases : s.phasesInRange) (increments : s.incrementsOk) : u.phasesInRange := by
  intro j
  obtain kept | start | ⟨note, velocity, noteOn⟩ | ⟨note, -, released⟩ | ⟨-, -, sounds, n, ticked⟩ := h.voice_cases j
  · rw [kept]
    exact phases j
  · rw [h.voice_of_start start]
    exact phaseInRange_zero
  · obtain ⟨k, -, -, same, others, -⟩ := h.voice_of_noteOn noteOn
    by_cases here : k = j
    · subst here
      rw [same, State.triggered_phase]
      exact phaseInRange_zero
    · rw [others j here]
      exact phases j
  · rw [released, Voice.release_phase]
    exact phases j
  · rw [ticked]
    exact phaseInRange_phaseAfter n (phases j) (increments j sounds.2)

/-- Settles O54: a fault changes no phase. -/
theorem stepKeepsPhasesInRange : Obligations.StepKeepsPhasesInRange := by
  intro s t phases increments stepped
  obtain ⟨-, rfl⟩ | ⟨w, rest, -, ⟨c, rfl⟩ | ⟨i, u, data, -, completes, rfl⟩⟩ := step_next_cases stepped
  · exact phases
  · exact phases
  · exact completes.phasesInRange phases increments

end Sys2Proof.Machine

/-! PROOFS. The power of two (`40_numerics.md` R96): the default's fixed-point value is one monotone function of the
argument, counted in quanta from -160 on; from that law E6, and the other laws record by record. -/

namespace Sys2Proof.Machine

/-! ### The fraction `2^f` -/

/-- One Horner step, as an equation of functions. -/
theorem expHorner_succ (y k : Nat) :
    expHorner y (k + 1) = fun s => expHorner y k (2 ^ fixBits + y * s / (2 ^ fixBits * (k + 1))) := rfl

theorem expHorner_mono {y y' s s' : Nat} (k : Nat) (hy : y ≤ y') (hs : s ≤ s') :
    expHorner y k s ≤ expHorner y' k s' := by
  induction k generalizing s s' with
  | zero => exact hs
  | succ k ih =>
    rw [expHorner_succ, expHorner_succ]
    exact ih (Nat.add_le_add_left (Nat.div_le_div_right (Nat.mul_le_mul hy hs)) _)

theorem exp2Frac_mono {r r' : Nat} (le : r ≤ r') : exp2Frac r ≤ exp2Frac r' :=
  expHorner_mono 60 (Nat.div_le_div_right (Nat.mul_le_mul_right _ le)) le_rfl

theorem exp2Frac_zero : exp2Frac 0 = 2 ^ fixBits := by decide +kernel

/-- The sixty terms at the fraction 1 are not above 2. -/
theorem exp2Frac_one : exp2Frac (2 ^ fmt32.quantum) ≤ 2 * 2 ^ fixBits := by decide +kernel

/-! ### The value, from -160 on -/

/-- `2^(x + 160)` in units of `2^-256`, for the argument `x` that is `u` quanta above -160. -/
def exp2Scaled (u : Nat) : Nat := exp2Frac (u % 2 ^ fmt32.quantum) * 2 ^ (u / 2 ^ fmt32.quantum)

theorem exp2Scaled_mono {u v : Nat} (le : u ≤ v) : exp2Scaled u ≤ exp2Scaled v := by
  have wholes := Nat.div_le_div_right (c := 2 ^ fmt32.quantum) le
  have fraction := Nat.mod_lt u (Nat.two_pow_pos fmt32.quantum)
  rcases wholes.eq_or_lt with same | next
  · have := Nat.div_add_mod u (2 ^ fmt32.quantum)
    have := Nat.div_add_mod v (2 ^ fmt32.quantum)
    rw [exp2Scaled, exp2Scaled, same]
    rw [same] at *
    exact Nat.mul_le_mul_right _ (exp2Frac_mono (by omega))
  · calc exp2Frac (u % 2 ^ fmt32.quantum) * 2 ^ (u / 2 ^ fmt32.quantum)
      _ ≤ 2 * 2 ^ fixBits * 2 ^ (u / 2 ^ fmt32.quantum) :=
        Nat.mul_le_mul_right _ ((exp2Frac_mono fraction.le).trans exp2Frac_one)
      _ = exp2Frac 0 * 2 ^ (u / 2 ^ fmt32.quantum + 1) := by rw [exp2Frac_zero, Nat.pow_succ]; ring
      _ ≤ exp2Frac (v % 2 ^ fmt32.quantum) * 2 ^ (v / 2 ^ fmt32.quantum) :=
        Nat.mul_le_mul (exp2Frac_mono (Nat.zero_le _)) (Nat.pow_le_pow_right (by decide) next)

/-- The magnitude bits of the power of two, for the argument `u` quanta above -160. -/
def exp2Mag (u : Nat) : Nat := fmt32.roundMag (exp2Scaled u * 2 ^ fmt32.quantum) (2 ^ (fixBits + 160))

theorem exp2Mag_mono {u v : Nat} (le : u ≤ v) : exp2Mag u ≤ exp2Mag v :=
  Fmt.roundMag_mono fmt32_prec_pos (Nat.two_pow_pos _) (Nat.two_pow_pos _)
    (Nat.mul_le_mul_right _ (Nat.mul_le_mul_right _ (exp2Scaled_mono le)))

/-- Rounding depends on the quotient alone. -/
theorem Fmt.roundMag_congr {f : Fmt} (hp : 1 ≤ f.prec) {n₁ d₁ n₂ d₂ : Nat} (h₁ : 0 < d₁) (h₂ : 0 < d₂)
    (same : n₁ * d₂ = n₂ * d₁) : f.roundMag n₁ d₁ = f.roundMag n₂ d₂ :=
  le_antisymm (Fmt.roundMag_mono hp h₁ h₂ same.le) (Fmt.roundMag_mono hp h₂ h₁ same.ge)

/-- The magnitude bits by the sign and the quanta of the argument: 0 below -160, infinity from 128 on. -/
def exp2Signed (neg : Bool) (q : Nat) : Nat :=
  if neg then (if 160 * 2 ^ fmt32.quantum < q then 0 else exp2Mag (160 * 2 ^ fmt32.quantum - q))
  else if 128 * 2 ^ fmt32.quantum ≤ q then fmt32.infMag else exp2Mag (160 * 2 ^ fmt32.quantum + q)

theorem exp2Signed_le (neg : Bool) (q : Nat) : exp2Signed neg q ≤ fmt32.infMag := by
  have le (u : Nat) : exp2Mag u ≤ fmt32.infMag := Fmt.roundMag_le_infMag _ _ _
  rw [exp2Signed]
  split_ifs
  · exact Nat.zero_le _
  · exact le _
  · exact le_rfl
  · exact le _

theorem exp2Signed_positive_mono {q q' : Nat} (le : q ≤ q') : exp2Signed false q ≤ exp2Signed false q' := by
  rw [exp2Signed, exp2Signed]
  simp only [Bool.false_eq_true, if_false]
  split_ifs with high high'
  · exact le_rfl
  · omega
  · exact Fmt.roundMag_le_infMag _ _ _
  · exact exp2Mag_mono (by omega)

theorem exp2Signed_negative_anti {q q' : Nat} (le : q' ≤ q) : exp2Signed true q ≤ exp2Signed true q' := by
  rw [exp2Signed, exp2Signed]
  simp only [if_true]
  split_ifs with low low'
  · exact le_rfl
  · exact Nat.zero_le _
  · omega
  · exact exp2Mag_mono (by omega)

/-- The two zeros meet. -/
theorem exp2Signed_zero : exp2Signed true 0 = exp2Signed false 0 := by
  rw [exp2Signed, exp2Signed]
  simp

/-- A whole argument below 0 is a fraction of 0. -/
theorem exp2Scaled_of_whole {q : Nat} (le : q ≤ 160 * 2 ^ fmt32.quantum) (whole : q % 2 ^ fmt32.quantum = 0) :
    exp2Scaled (160 * 2 ^ fmt32.quantum - q) * 2 ^ (q / 2 ^ fmt32.quantum) = 2 ^ (fixBits + 160) := by
  obtain ⟨k, rfl⟩ := Nat.dvd_of_mod_eq_zero whole
  have pos := Nat.two_pow_pos fmt32.quantum
  have bound : k ≤ 160 := Nat.le_of_mul_le_mul_right (by rwa [Nat.mul_comm k]) pos
  rw [exp2Scaled, Nat.mul_comm _ k, ← Nat.sub_mul, Nat.mul_mod_left, Nat.mul_div_cancel _ pos,
    Nat.mul_div_cancel _ pos, exp2Frac_zero, Nat.mul_assoc, ← Nat.pow_add, ← Nat.pow_add, Nat.sub_add_cancel bound]

/-- Any other argument below 0 is one whole less, and what its fraction lacks to 1. -/
theorem exp2Scaled_of_fraction {q : Nat} (le : q ≤ 160 * 2 ^ fmt32.quantum) (fraction : q % 2 ^ fmt32.quantum ≠ 0) :
    exp2Scaled (160 * 2 ^ fmt32.quantum - q) * 2 ^ (q / 2 ^ fmt32.quantum + 1) =
      exp2Frac (2 ^ fmt32.quantum - q % 2 ^ fmt32.quantum) * 2 ^ 160 := by
  have pos := Nat.two_pow_pos fmt32.quantum
  have small := Nat.mod_lt q pos
  have split := Nat.div_add_mod q (2 ^ fmt32.quantum)
  rw [exp2Scaled]
  generalize 2 ^ fmt32.quantum = unit at *
  generalize q % unit = r at *
  generalize q / unit = k at *
  have bound : k + 1 ≤ 160 := by
    by_contra above
    have := Nat.mul_le_mul_left unit (show 160 ≤ k by omega)
    omega
  have scaled : 160 * unit - q = (unit - r) + unit * (160 - (k + 1)) := by
    have : unit * (160 - (k + 1)) + unit * (k + 1) = 160 * unit := by
      rw [← Nat.mul_add, Nat.sub_add_cancel bound, Nat.mul_comm]
    have : unit * (k + 1) = unit * k + unit := Nat.mul_succ _ _
    omega
  rw [scaled, Nat.add_mul_mod_self_left, Nat.add_mul_div_left _ _ pos, Nat.mod_eq_of_lt (by omega),
    Nat.div_eq_of_lt (by omega), Nat.zero_add, Nat.mul_assoc, ← Nat.pow_add, Nat.sub_add_cancel bound]

theorem exp2Scaled_add (q : Nat) : exp2Scaled (160 * 2 ^ fmt32.quantum + q) =
    exp2Frac (q % 2 ^ fmt32.quantum) * 2 ^ (q / 2 ^ fmt32.quantum) * 2 ^ 160 := by
  rw [exp2Scaled, Nat.add_comm, Nat.add_mul_mod_self_right, Nat.add_mul_div_right _ _ (Nat.two_pow_pos _), Nat.pow_add,
    Nat.mul_assoc]

/-! ### The default power of two -/

/-- The default power of two of a finite argument. -/
theorem toNat_exp2Rounded_fin {x : F32} {neg : Bool} {q : Nat} (val : val32 x = .fin neg q) :
    (exp2Rounded x).toNat = exp2Signed neg q := by
  rw [exp2Rounded, val, exp2Signed]
  cases neg with
  | false =>
    simp only [Bool.false_eq_true, if_false]
    split_ifs with high
    · rfl
    · rw [toNat_roundTo32, Fmt.roundTo, Fmt.pack_false, exp2Mag]
      refine Fmt.roundMag_congr fmt32_prec_pos (Nat.two_pow_pos _) (Nat.two_pow_pos _) ?_
      rw [exp2Scaled_add, Nat.pow_add]
      ring
  | true =>
    simp only [if_true]
    split_ifs with low whole
    · rfl
    · rw [toNat_roundTo32, Fmt.roundTo, Fmt.pack_false, exp2Mag]
      refine Fmt.roundMag_congr fmt32_prec_pos (Nat.two_pow_pos _) (Nat.two_pow_pos _) ?_
      rw [← exp2Scaled_of_whole (Nat.le_of_not_lt low) whole]
      ring
    · rw [toNat_roundTo32, Fmt.roundTo, Fmt.pack_false, exp2Mag]
      refine Fmt.roundMag_congr fmt32_prec_pos (Nat.two_pow_pos _) (Nat.two_pow_pos _) ?_
      have scaled := exp2Scaled_of_fraction (Nat.le_of_not_lt low) whole
      rw [Nat.pow_add 2 fixBits, Nat.pow_add 2 fixBits]
      calc _ = exp2Frac (2 ^ fmt32.quantum - q % 2 ^ fmt32.quantum) * 2 ^ 160 * (2 ^ fmt32.quantum * 2 ^ fixBits) := by
            ring
        _ = _ := by rw [← scaled]; ring

/-- The same for every argument that is not NaN: the quanta of an infinity are beyond both cut-offs. -/
theorem toNat_exp2Rounded {x : F32} {neg : Bool} {m : Nat} (bits : x.toNat = fmt32.pack neg m)
    (number : m ≤ fmt32.infMag) :
    (exp2Rounded x).toNat = exp2Signed neg (fmt32.quanta m) := by
  rcases number.lt_or_eq with finite | rfl
  · exact toNat_exp2Rounded_fin (by rw [val32, bits, Fmt.unpack_pack_fin finite])
  · have val : val32 x = .inf neg := by rw [val32, bits, Fmt.unpack_pack_inf]
    have top : fmt32.quanta fmt32.infMag = 2 ^ (23 + 2 * 127) := (fmt32_ieee.quanta_top (by decide) (by decide)).1
    have beyond : 160 * 2 ^ fmt32.quantum < 2 ^ (23 + 2 * 127) := by decide +kernel
    rw [exp2Rounded, val, exp2Signed, top]
    cases neg with
    | false =>
      simp only [Bool.false_eq_true, if_false]
      rw [if_pos (by omega)]
      rfl
    | true =>
      simp only [if_true]
      rw [if_pos beyond]
      rfl

theorem exists_pack_of_number {x : F32} (number : ¬ nanBits32 x) :
    ∃ neg m, m ≤ fmt32.infMag ∧ x.toNat = fmt32.pack neg m := by
  obtain ⟨neg, m, hm, bits⟩ := exists_pack32 x
  rw [nanBits32_eq, bits, Fmt.isNaN_pack hm, not_lt] at number
  exact ⟨neg, m, number, bits⟩

/-- Law E6 of the default. -/
theorem toNat_exp2Rounded_mono {x y : F32} (hx : ¬ nanBits32 x) (hy : ¬ nanBits32 y) (le : key32 x ≤ key32 y) :
    (exp2Rounded x).toNat ≤ (exp2Rounded y).toNat := by
  obtain ⟨a, m, hm, bitsX⟩ := exists_pack_of_number hx
  obtain ⟨b, n, hn, bitsY⟩ := exists_pack_of_number hy
  rw [key32_eq, key32_eq, bitsX, bitsY, Fmt.key_pack (hm.trans_lt Fmt.infMag_lt_signMag),
    Fmt.key_pack (hn.trans_lt Fmt.infMag_lt_signMag)] at le
  rw [toNat_exp2Rounded bitsX hm, toNat_exp2Rounded bitsY hn]
  have quanta {i j : Nat} (le : i ≤ j) : fmt32.quanta i ≤ fmt32.quanta j := (Fmt.quanta_le_iff fmt32_prec_pos).2 le
  cases a <;> cases b <;> simp only [Bool.false_eq_true, if_true, if_false] at le
  case false.false => exact exp2Signed_positive_mono (quanta (by omega))
  case false.true =>
    obtain ⟨rfl, rfl⟩ : m = 0 ∧ n = 0 := by omega
    rw [Fmt.quanta_zero, exp2Signed_zero]
  case true.false =>
    calc exp2Signed true (fmt32.quanta m) ≤ exp2Signed true 0 := exp2Signed_negative_anti (Nat.zero_le _)
      _ = exp2Signed false 0 := exp2Signed_zero
      _ ≤ exp2Signed false (fmt32.quanta n) := exp2Signed_positive_mono (Nat.zero_le _)
  case true.true => exact exp2Signed_negative_anti (quanta (by omega))

/-- `2^-126`. -/
theorem exp2Rounded_neg_126 : exp2Rounded 0xC2FC0000 = 0x00800000 := by decide +kernel

/-- Settles O44: the default is one monotone function of the quanta. -/
theorem powerOfTwoMonotone : Obligations.PowerOfTwoMonotone := by
  refine ⟨fun x y hx hy le => toNat_exp2Rounded_mono hx hy le, fun x hx low => ?_⟩
  have number : ¬ nanBits32 0xC2FC0000 := by unfold nanBits32 ieeeNaN; decide
  have bound := toNat_exp2Rounded_mono hx number low.le
  rwa [exp2Rounded_neg_126] at bound

/-! ### The laws of R96, record by record -/

theorem exp2Rounded_of_nan {x : F32} (nan : nanBits32 x) : exp2Rounded x = nan32 := by
  rw [exp2Rounded, isNaN32_iff.1 (nanBits32_iff.1 nan)]

/-- A pattern up to plus infinity orders by its bits. -/
theorem key32_of_le_inf {x : F32} (le : x.toNat ≤ 0x7F800000) : ¬ nanBits32 x ∧ key32 x = x.toNat := by
  have bits : x.toNat = fmt32.pack false x.toNat := rfl
  have small : x.toNat < fmt32.signMag := by rw [fmt32_signMag]; omega
  rw [nanBits32_eq, key32_eq, bits, Fmt.isNaN_pack small, Fmt.key_pack small, fmt32_infMag]
  exact ⟨Nat.not_lt.2 le, rfl⟩

/-- Law E5. -/
theorem exp2_32_of_nan (num : NumRecord) {x : F32} (nan : nanBits32 x) : nanBits32 (exp2_32 num x) := by
  obtain same | ⟨-, -, -, law, -⟩ := exp2_32_cases num
  · rw [same, show exp2_32 .correctlyRounded x = exp2Rounded x from rfl, exp2Rounded_of_nan nan]
    unfold nanBits32 ieeeNaN
    decide
  · exact nanBits32_iff.2 (law x (nanBits32_iff.1 nan))

/-- Law E4: no negative result and no `-0.0`. -/
theorem exp2_32_le_inf (num : NumRecord) {x : F32} (number : ¬ nanBits32 x) :
    (exp2_32 num x).toNat ≤ 0x7F800000 := by
  obtain same | ⟨-, -, ⟨law, -⟩, -⟩ := exp2_32_cases num
  · obtain ⟨neg, m, hm, bits⟩ := exists_pack_of_number number
    have bound := exp2Signed_le neg (fmt32.quanta m)
    rw [← toNat_exp2Rounded bits hm, fmt32_infMag] at bound
    rw [same]
    exact bound
  · exact law x (Bool.eq_false_of_not_eq_true (mt nanBits32_iff.2 number))

/-- Law E6. -/
theorem exp2_32_mono (num : NumRecord) {x y : F32} (hx : ¬ nanBits32 x) (hy : ¬ nanBits32 y)
    (le : key32 x ≤ key32 y) :
    (exp2_32 num x).toNat ≤ (exp2_32 num y).toNat := by
  obtain same | ⟨-, -, -, -, law⟩ := exp2_32_cases num
  · rw [same]
    exact toNat_exp2Rounded_mono hx hy le
  · obtain ⟨numberX, keyX⟩ := key32_of_le_inf (exp2_32_le_inf num hx)
    obtain ⟨numberY, keyY⟩ := key32_of_le_inf (exp2_32_le_inf num hy)
    have notLess : lt32 y x = false :=
      Bool.eq_false_of_not_eq_true (mt (lt32_iff_key hy hx).1 (not_lt.2 le))
    have result := law x y (Bool.eq_false_of_not_eq_true (mt nanBits32_iff.2 hx))
      (Bool.eq_false_of_not_eq_true (mt nanBits32_iff.2 hy)) notLess
    have keys := mt (lt32_iff_key numberY numberX).2 (ne_true_of_eq_false result)
    omega

/-- Law E4 at 128. -/
theorem exp2_32_at_128 (num : NumRecord) : exp2_32 num 0x43000000 = inf32 := by
  obtain same | ⟨-, -, ⟨-, law, -⟩, -⟩ := exp2_32_cases num
  · rw [same]
    decide +kernel
  · exact law _ (by decide) (by decide +kernel)

/-- Law E2 at `-0.0`. -/
theorem exp2_32_neg_zero (num : NumRecord) : exp2_32 num 0x80000000 = one32 := by
  obtain same | ⟨⟨-, law⟩, -⟩ := exp2_32_cases num
  · rw [same]
    decide +kernel
  · exact law

/-- Law E4 at minus infinity. -/
theorem exp2_32_neg_inf (num : NumRecord) : exp2_32 num 0xFF800000 = 0 := by
  obtain same | ⟨-, -, ⟨-, -, -, law, -⟩, -⟩ := exp2_32_cases num
  · rw [same]
    decide +kernel
  · exact law

/-- Laws E3, E4 and E6 with the record's error parameter. -/
theorem exp2_32_other (num : NumRecord) (laws : Exp2Laws num.exp2Err (exp2_32 num)) :
    (∀ x : F32, finite32 x → -126 ≤ real32 x → real32 x < 128 → finite32 (exp2_32 num x) ∧
      |((real32 (exp2_32 num x) : ℚ) : ℝ) / (2 : ℝ) ^ ((real32 x : ℚ) : ℝ) - 1| ≤ ((num.exp2Err : ℚ) : ℝ)) ∧
    ∀ x : F32, finite32 x → real32 x < -126 →
      finite32 (exp2_32 num x) ∧ real32 (exp2_32 num x) ≤ 1 / 2 ^ 126 * (1 + num.exp2Err) := by
  obtain ⟨-, near, ⟨-, -, -, -, low⟩, -⟩ := laws
  refine ⟨fun x finite ge lt => ?_, fun x finite lt => ?_⟩
  · rw [real32_eq_value32 finite] at ge lt ⊢
    obtain ⟨result, error⟩ := near x (finite32_iff.1 finite) ge lt
    rw [real32_eq_value32 (finite32_iff.2 result)]
    exact ⟨finite32_iff.2 result, error⟩
  · rw [real32_eq_value32 finite] at lt
    obtain ⟨result, bound⟩ := low x (finite32_iff.1 finite) lt
    rw [real32_eq_value32 (finite32_iff.2 result)]
    exact ⟨finite32_iff.2 result, bound⟩

/-- Settles O43: law by law, for the default and for the others. -/
theorem powerOfTwoLaws : Obligations.PowerOfTwoLaws := by
  intro num
  refine ⟨fun x => ⟨exp2_32_zero num, exp2_32_neg_zero num, exp2_32_of_nan num, exp2_32_le_inf num,
    fun number high => ?_, exp2_32_neg_inf num⟩, ?_⟩
  · have top : ¬ nanBits32 0x43000000 := by unfold nanBits32 ieeeNaN; decide
    have reached := exp2_32_mono num top number high
    rw [exp2_32_at_128] at reached
    exact BitVec.eq_of_toNat_eq (le_antisymm (exp2_32_le_inf num number) reached)
  · obtain same | laws := exp2_32_cases num
    · exact .inl (congrFun same)
    · obtain ⟨near, low⟩ := exp2_32_other num laws
      exact .inr ⟨near, low, fun x y => exp2_32_mono num⟩

end Sys2Proof.Machine

/-! PROOFS. The sine (`40_numerics.md` R95) and the oscillator (`42_oscillator.md` R120 to R128): the laws of the sine
record by record, and each waveform before the gain as a number from -1 to 1. -/

namespace Sys2Proof.Machine

/-! ### f32 within a bound -/

/-- A finite f32 of at most `m` quanta. -/
def Within32 (m : Nat) (x : F32) : Prop := ∃ neg q, q ≤ m ∧ val32 x = .fin neg q

/-- A finite f32 of at most `m` quanta that is not negative; `-0.0` is not. -/
def NonNeg32 (m : Nat) (x : F32) : Prop := ∃ neg q, q ≤ m ∧ (neg = true → q = 0) ∧ val32 x = .fin neg q

theorem NonNeg32.within {m : Nat} {x : F32} (h : NonNeg32 m x) : Within32 m x := by
  obtain ⟨neg, q, le, -, val⟩ := h
  exact ⟨neg, q, le, val⟩

theorem Within32.finite {m : Nat} {x : F32} (h : Within32 m x) : finite32 x := by
  obtain ⟨neg, q, -, val⟩ := h
  exact finite32_of_val32 val

theorem Within32.abs_real_le {m : Nat} {x : F32} (h : Within32 m x) : |real32 x| ≤ m / 2 ^ 149 := by
  obtain ⟨neg, q, le, val⟩ := h
  rw [real32_of_val32 val, abs_signed, abs_of_nonneg (by positivity)]
  exact div_le_div_of_nonneg_right (Nat.cast_le.2 le) (by positivity)

theorem real32_of_nonneg {x : F32} {neg : Bool} {q : Nat} (val : val32 x = .fin neg q) (zero : neg = true → q = 0) :
    real32 x = q / 2 ^ 149 := by
  rw [real32_of_val32 val]
  cases neg with
  | false => rfl
  | true => rw [zero rfl]; simp

theorem NonNeg32.real_nonneg {m : Nat} {x : F32} (h : NonNeg32 m x) : 0 ≤ real32 x := by
  obtain ⟨neg, q, -, zero, val⟩ := h
  rw [real32_of_nonneg val zero]
  positivity

/-- An exact result within the quanta of a number rounds to a result within them; an exact zero to a zero. -/
theorem val32_roundTo_of_le {n d k : Nat} (neg : Bool) (hd : 0 < d) (finite : k < fmt32.infMag)
    (le : n ≤ fmt32.quanta k * d) : ∃ q, q ≤ fmt32.quanta k ∧ (n = 0 → q = 0) ∧
      val32 (BitVec.ofNat 32 (fmt32.roundTo neg n d)) = .fin neg q := by
  obtain ⟨j, hj, rounded, unpacked⟩ := Fmt.unpack_roundTo_of_le fmt32_ieee neg hd finite le
  refine ⟨_, (Fmt.quanta_le_iff fmt32_prec_pos).2 hj, fun zero => ?_, by rw [val32, toNat_roundTo32, unpacked]⟩
  rw [rounded, zero, Fmt.roundMag_of_eq fmt32_prec_pos (m := 0) hd (Nat.zero_le _) (by simp), Fmt.quanta_zero]

theorem within32_roundTo {n d k : Nat} (neg : Bool) (hd : 0 < d) (finite : k < fmt32.infMag)
    (le : n ≤ fmt32.quanta k * d) : Within32 (fmt32.quanta k) (BitVec.ofNat 32 (fmt32.roundTo neg n d)) := by
  obtain ⟨q, bound, -, val⟩ := val32_roundTo_of_le neg hd finite le
  exact ⟨neg, q, bound, val⟩

theorem nonNeg32_roundTo {neg : Bool} {n d k : Nat} (hd : 0 < d) (finite : k < fmt32.infMag)
    (le : n ≤ fmt32.quanta k * d) (zero : neg = true → n = 0) :
    NonNeg32 (fmt32.quanta k) (BitVec.ofNat 32 (fmt32.roundTo neg n d)) := by
  obtain ⟨q, bound, none, val⟩ := val32_roundTo_of_le neg hd finite le
  exact ⟨neg, q, bound, fun negative => none (zero negative), val⟩

theorem one32_finite : one32.toNat < fmt32.infMag := by decide
theorem two32_finite : two32.toNat < fmt32.infMag := by decide
/-- The pattern 2.0 holds `2^150` quanta. -/
theorem quanta_two32 : fmt32.quanta two32.toNat = 2 ^ 150 := by decide
theorem val32_two32 : val32 two32 = .fin false (2 ^ 150) := by decide

/-! ### The laws of the sine -/

theorem within32_of_magLeOne {y : F32} (small : magLeOne y = true) : Within32 (2 ^ 149) y := by
  obtain ⟨neg, m, hm, bits⟩ := exists_pack32 y
  rw [magLeOne, decide_eq_true_eq, bits, Fmt.pack_mod hm] at small
  refine ⟨neg, fmt32.quanta m, quanta_one32 ▸ (Fmt.quanta_le_iff fmt32_prec_pos).2 small, ?_⟩
  rw [val32, bits, Fmt.unpack_pack_fin (small.trans_lt one32_finite)]

theorem within32_sinPattern (neg : Bool) (n : Nat) {t : Nat} (le : fmt32.quantum ≤ t) :
    Within32 (2 ^ 149) (BitVec.ofNat 32 (sinPattern neg n t)) := by
  have units : 2 ^ fmt32.quantum * 2 ^ (fixBits + t - fmt32.quantum) = 2 ^ (fixBits + t) :=
    pow_mul_pow_sub 2 (le.trans (Nat.le_add_left _ _))
  have one : fmt32.quanta one32.toNat = 2 ^ fmt32.quantum := quanta_one32
  rw [← quanta_one32, sinPattern]
  refine within32_roundTo _ (Nat.two_pow_pos _) one32_finite ?_
  rw [one, units]
  exact Nat.min_le_right _ _

theorem within32_sinRounded {x : F32} (finite : finite32 x) : Within32 (2 ^ 149) (sinRounded x) := by
  obtain ⟨neg, m, val⟩ := exists_val32_of_finite32 finite
  rw [sinRounded, val]
  dsimp only
  split_ifs
  · exact ⟨true, 0, Nat.zero_le _, by decide⟩
  · exact ⟨false, 0, Nat.zero_le _, by decide⟩
  · exact within32_sinPattern _ _ le_rfl
  · exact within32_sinPattern _ _ (Nat.le_add_right _ _)

theorem sinRounded_of_not_finite {x : F32} (infinite : ¬ finite32 x) : sinRounded x = nan32 := by
  rw [sinRounded]
  cases val : val32 x with
  | nan => rfl
  | inf => rfl
  | fin => exact absurd (finite32_of_val32 val) infinite

theorem nanBits32_nan32 : nanBits32 nan32 := by
  unfold nanBits32 ieeeNaN
  decide

/-- Law S2. -/
theorem within32_sin32 (num : NumRecord) {x : F32} (finite : finite32 x) : Within32 (2 ^ 149) (sin32 num x) := by
  obtain same | ⟨law, -⟩ := sin32_cases num
  · rw [same]
    exact within32_sinRounded finite
  · exact within32_of_magLeOne (law x (finite32_iff.1 finite))

/-- Law S3. -/
theorem sin32_of_not_finite (num : NumRecord) {x : F32} (infinite : ¬ finite32 x) : nanBits32 (sin32 num x) := by
  obtain same | ⟨-, law, -⟩ := sin32_cases num
  · rw [same, show sin32 .correctlyRounded x = sinRounded x from rfl, sinRounded_of_not_finite infinite]
    exact nanBits32_nan32
  · exact nanBits32_iff.2 (law x (Bool.eq_false_of_not_eq_true (mt finite32_iff.2 infinite)))

/-- Law S5. -/
theorem sin32_zero (num : NumRecord) : sin32 num 0 = 0 := by
  obtain same | ⟨-, -, -, law⟩ := sin32_cases num
  · rw [same]
    decide +kernel
  · exact law

theorem finite32_phase {p : F32} (phase : p.toNat ≤ 0x40C90FDB) : finite32 p :=
  finite32_of_val32 (val32_of_lt (x := p) (by omega))

/-- Settles O42: law by law, for the default and for the others. -/
theorem sineLaws : Obligations.SineLaws := by
  intro num
  refine ⟨fun x => ⟨fun finite => ?_, sin32_of_not_finite num, sin32_zero num⟩, ?_⟩
  · have small := within32_sin32 num finite
    refine ⟨small.finite, small.abs_real_le.trans_eq ?_⟩
    rw [Nat.cast_pow, Nat.cast_two, div_self (by positivity)]
  · obtain same | ⟨magnitude, -, near, -⟩ := sin32_cases num
    · exact .inl (congrFun same)
    · refine .inr fun x phase => ?_
      have finite := finite32_phase phase
      rw [real32_eq_value32 finite, real32_eq_value32 (within32_sin32 num finite).finite]
      exact near x phase

/-! ### The operations of the waveforms -/

/-- A difference of numbers that are not negative: its magnitude is the difference of the counts, and it is negative
only if the first is not the greater. -/
theorem sub32_of_nonneg {x y : F32} {a b : Bool} {m n : Nat} (hx : val32 x = .fin a m) (hy : val32 y = .fin b n)
    (zeroX : a = true → m = 0) (zeroY : b = true → n = 0) :
    ∃ neg, (neg = true → m ≤ n) ∧ sub32 x y = BitVec.ofNat 32 (fmt32.roundTo neg (m - n + (n - m)) 1) := by
  have inverse : fmt32.unpack (fmt32.negBits y.toNat) = .fin (!b) n := by
    obtain ⟨neg, k, hk, bits⟩ := exists_pack32 y
    have finite : k < fmt32.infMag := by
      have := (Fmt.unpack_fin hy).1
      rwa [bits, Fmt.pack_mod hk] at this
    rw [val32, bits, Fmt.unpack_pack_fin finite, FVal.fin.injEq] at hy
    obtain ⟨rfl, rfl⟩ := hy
    rw [bits, Fmt.negBits_pack finite.le, Fmt.unpack_pack_fin finite]
  have difference : sub32 x y = BitVec.ofNat 32
      (if a = !b then fmt32.roundTo a (m + n) 1 else if m = n then fmt32.pack false 0
        else if n < m then fmt32.roundTo a (m - n) 1 else fmt32.roundTo (!b) (n - m) 1) := by
    unfold val32 at hx
    rw [sub32, Fmt.subBits, Fmt.addBits, hx, inverse]
  rw [difference]
  by_cases opposite : a = !b
  · rw [if_pos opposite]
    refine ⟨a, fun negative => by rw [zeroX negative]; exact Nat.zero_le _, ?_⟩
    have : m = 0 ∨ n = 0 := by
      cases a with
      | true => exact .inl (zeroX rfl)
      | false => exact .inr (zeroY (by simpa using opposite))
    congr 2
    omega
  · rw [if_neg opposite]
    split_ifs with same less
    · exact ⟨false, fun negative => absurd negative Bool.false_ne_true, by
        rw [same, Nat.sub_self, Nat.add_zero, Fmt.roundTo_zero fmt32_ieee false Nat.one_pos]⟩
    · refine ⟨a, fun negative => ?_, by rw [Nat.sub_eq_zero_of_le less.le, Nat.add_zero]⟩
      have := zeroX negative
      omega
    · refine ⟨!b, fun _ => Nat.le_of_not_lt less, ?_⟩
      rw [Nat.sub_eq_zero_of_le (Nat.le_of_not_lt less), Nat.zero_add]

/-- From 0 to 2, less 1. -/
theorem NonNeg32.sub_one {y : F32} (h : NonNeg32 (2 ^ 150) y) : Within32 (2 ^ 149) (sub32 y one32) := by
  obtain ⟨b, q, le, zero, val⟩ := h
  obtain ⟨neg, -, difference⟩ :=
    sub32_of_nonneg val val32_one32 zero fun negative => absurd negative Bool.false_ne_true
  rw [difference, ← quanta_one32]
  refine within32_roundTo neg Nat.one_pos one32_finite ?_
  rw [quanta_one32, Nat.mul_one]
  omega

/-- 1 less a number from 0 to 1. -/
theorem NonNeg32.one_sub {y : F32} (h : NonNeg32 (2 ^ 149) y) : NonNeg32 (2 ^ 149) (sub32 one32 y) := by
  obtain ⟨b, q, le, zero, val⟩ := h
  obtain ⟨neg, sign, difference⟩ :=
    sub32_of_nonneg val32_one32 val (fun negative => absurd negative Bool.false_ne_true) zero
  rw [difference, ← quanta_one32]
  refine nonNeg32_roundTo Nat.one_pos one32_finite ?_ fun negative => ?_
  · rw [quanta_one32, Nat.mul_one]
    omega
  · have := sign negative
    rw [quanta_one32]
    omega

theorem Within32.abs {m : Nat} {y : F32} (h : Within32 m y) : NonNeg32 m (abs32 y) := by
  obtain ⟨neg, q, le, val⟩ := h
  obtain ⟨sign, k, hk, bits⟩ := exists_pack32 y
  have finite : k < fmt32.infMag := by
    have := (Fmt.unpack_fin val).1
    rwa [bits, Fmt.pack_mod hk] at this
  rw [val32, bits, Fmt.unpack_pack_fin finite, FVal.fin.injEq] at val
  refine ⟨false, q, le, fun negative => absurd negative Bool.false_ne_true, ?_⟩
  rw [abs32, bits, Fmt.absBits_pack finite.le, ← val.2]
  exact val32_pack (neg := false) finite

/-- A product of two numbers that are not negative, the second at most 1. -/
theorem NonNeg32.mul {g y : F32} {b : Bool} {k : Nat} (hg : val32 g = .fin b (fmt32.quanta k))
    (finite : k < fmt32.infMag) (zero : b = true → fmt32.quanta k = 0) (h : NonNeg32 (2 ^ 149) y) :
    NonNeg32 (fmt32.quanta k) (mul32 g y) := by
  obtain ⟨neg, q, le, zero', val⟩ := h
  rw [mul32_fin hg val]
  refine nonNeg32_roundTo (Nat.two_pow_pos _) finite (Nat.mul_le_mul_left _ le) fun negative => ?_
  cases b with
  | false => rw [zero' (by simpa using negative), Nat.mul_zero]
  | true => rw [zero rfl, Nat.zero_mul]

/-- A product with a factor of magnitude at most 1. -/
theorem Within32.mul {g y : F32} {b : Bool} {k : Nat} (hg : val32 g = .fin b (fmt32.quanta k))
    (finite : k < fmt32.infMag) (h : Within32 (2 ^ 149) y) : Within32 (fmt32.quanta k) (mul32 g y) := by
  obtain ⟨neg, q, le, val⟩ := h
  rw [mul32_fin hg val]
  exact within32_roundTo _ (Nat.two_pow_pos _) finite (Nat.mul_le_mul_left _ le)

/-- Twice a number from 0 to 1. -/
theorem NonNeg32.double {y : F32} (h : NonNeg32 (2 ^ 149) y) : NonNeg32 (2 ^ 150) (mul32 two32 y) := by
  rw [← quanta_two32]
  refine NonNeg32.mul ?_ two32_finite (fun negative => absurd negative Bool.false_ne_true) h
  rw [quanta_two32, val32_two32]

/-! ### The waveforms before the gain -/

/-- The fold length of the triangle is 1, so the remainder is by 2. -/
theorem mul32_two32_one32 : mul32 two32 one32 = two32 := by decide

theorem nonNeg32_fmod32_two32 {p : F32} {q : Nat} (val : val32 p = .fin false q) :
    NonNeg32 (2 ^ 150) (fmod32 p two32) := by
  rw [fmod32_fin val val32_two32 (by positivity), ← quanta_two32]
  refine nonNeg32_roundTo Nat.one_pos two32_finite ?_ fun negative => absurd negative Bool.false_ne_true
  rw [quanta_two32, Nat.mul_one]
  exact (Nat.mod_lt _ (Nat.two_pow_pos _)).le

/-- R93 with the fold length 1: from 0 to 1. -/
theorem nonNeg32_pingpong32_one32 {p : F32} {q : Nat} (val : val32 p = .fin false q) :
    NonNeg32 (2 ^ 149) (pingpong32 p one32) := by
  rw [pingpong32, mul32_two32_one32]
  exact (nonNeg32_fmod32_two32 val).sub_one.abs.one_sub

/-- R92: from 0 to 1. -/
theorem nonNeg32_clamp01_32 {x : F32} (number : ¬ nanBits32 x) : NonNeg32 (2 ^ 149) (clamp01_32 x) := by
  obtain ⟨-, low, high, between⟩ := clampToUnitInterval x
  rcases lt_or_ge (key32 x) 0 with below | atLeast
  · rw [low number below]
    exact ⟨false, 0, Nat.zero_le _, fun _ => rfl, by decide⟩
  rcases lt_or_ge (key32 0x3F800000) (key32 x) with above | atMost
  · rw [high number above]
    exact ⟨false, 2 ^ 149, le_rfl, fun negative => absurd negative Bool.false_ne_true, val32_one32⟩
  · rw [between number atLeast atMost]
    obtain ⟨neg, m, hm, bits⟩ := exists_pack32 x
    rw [key32_eq, bits, Fmt.key_pack hm] at atLeast atMost
    rw [show key32 0x3F800000 = one32.toNat from by decide] at atMost
    have le : m ≤ one32.toNat := by cases neg <;> simp at atLeast atMost <;> omega
    refine ⟨neg, fmt32.quanta m, quanta_one32 ▸ (Fmt.quanta_le_iff fmt32_prec_pos).2 le, fun negative => ?_, ?_⟩
    · have : m = 0 := by subst negative; simp at atLeast; exact atLeast
      rw [this, Fmt.quanta_zero]
    · rw [val32, bits, Fmt.unpack_pack_fin (le.trans_lt one32_finite)]

theorem sub32_twoPi32_zero : sub32 twoPi32 0 = twoPi32 := by decide
theorem val32_twoPi32 : ∃ n, n ≠ 0 ∧ val32 twoPi32 = .fin false n :=
  ⟨fmt32.quanta twoPi32.toNat, by decide, by decide⟩

/-- R94 on a phase: from 0 to 1. -/
theorem nonNeg32_inverseLerp32 {p : F32} (phase : p.toNat < fmt32.infMag) :
    NonNeg32 (2 ^ 149) (inverseLerp32 0 twoPi32 p) := by
  have val : val32 p = .fin false (fmt32.quanta p.toNat) := val32_of_lt (by rwa [fmt32_infMag] at phase)
  have positive : false = true → fmt32.quanta p.toNat = 0 := fun negative => absurd negative Bool.false_ne_true
  obtain ⟨neg, -, difference⟩ := sub32_of_nonneg (y := 0) val (b := false) (n := 0) (by decide) positive fun _ => rfl
  obtain ⟨q, -, -, val'⟩ := val32_roundTo_of_le neg (n := fmt32.quanta p.toNat) Nat.one_pos phase (Nat.mul_one _).ge
  obtain ⟨n, nonzero, divisor⟩ := val32_twoPi32
  rw [inverseLerp32, sub32_twoPi32_zero]
  refine nonNeg32_clamp01_32 fun nan => ?_
  rw [Nat.sub_zero, Nat.zero_sub, Nat.add_zero] at difference
  rw [nanBits32_iff, isNaN32_iff, difference, div32_fin val' divisor nonzero, val32_roundTo] at nan
  split_ifs at nan

/-- The factor of the gain in every waveform but Square. -/
def unitSample (b : Build) (w : Waveform) (p : F32) (r : Word) : F32 :=
  match w with
  | .sine => sin32 b.num p
  | .square => one32
  | .triangle => sub32 (mul32 two32 (pingpong32 p one32)) one32
  | .sawtooth => inverseLerp32 0 twoPi32 p
  | .noise => sub32 (mul32 two32 (rngNext b.rng r).2) one32

theorem evaluate_eq_mul32 (b : Build) {w : Waveform} (p g : F32) (r : Word) (notSquare : w ≠ .square) :
    (evaluate b w p g r).1 = mul32 g (unitSample b w p r) := by
  cases w with
  | square => exact absurd rfl notSquare
  | _ => rfl

theorem within32_unitSample (b : Build) (w : Waveform) {p : F32} (r : Word) (phase : p.toNat ≤ 0x40C90FDB) :
    Within32 (2 ^ 149) (unitSample b w p r) := by
  have finite : p.toNat < fmt32.infMag := by rw [fmt32_infMag]; omega
  cases w with
  | sine => exact within32_sin32 b.num (finite32_phase phase)
  | square => exact ⟨false, 2 ^ 149, le_rfl, val32_one32⟩
  | triangle =>
    exact (nonNeg32_pingpong32_one32 (val32_of_lt (by rwa [fmt32_infMag] at finite))).double.sub_one
  | sawtooth => exact (nonNeg32_inverseLerp32 finite).within
  | noise => exact (NonNeg32.double (val32_rngNext b.rng r)).sub_one

/-! ### The samples -/

/-- R124: the gain or its inverse. -/
theorem squareSample_eq (num : NumRecord) (p g : F32) : squareSample num p g = g ∨ squareSample num p g = neg32 g := by
  rw [squareSample]
  split_ifs
  · exact .inl rfl
  · exact .inr rfl

theorem abs_real32_squareSample (num : NumRecord) (p : F32) {g : F32} (finite : finite32 g) (nonneg : 0 ≤ real32 g) :
    finite32 (squareSample num p g) ∧ |real32 (squareSample num p g)| = real32 g := by
  obtain same | inverse := squareSample_eq num p g
  · rw [same]
    exact ⟨finite, abs_of_nonneg nonneg⟩
  · obtain ⟨bits, -, -, finite', -, real⟩ :=
      Fmt.negBits_of_number fmt32_ieee (toNat_lt_signMag32 g) (Fmt.not_isNaN_of_isFinite (f := fmt32) finite)
    rw [inverse, finite32_eq, real32_eq, neg32, toNat_ofNat32 bits, finite', real, abs_neg]
    exact ⟨finite, abs_of_nonneg nonneg⟩

theorem triangle_of_nan_remainder :
    sub32 (mul32 two32 (sub32 one32 (abs32 (sub32 0x7FC00000 one32)))) one32 = nan32 := by decide

theorem sawtooth_of_nan_difference : clamp01_32 (div32 0x7FC00000 (sub32 twoPi32 0)) = nan32 := by decide

/-- What a NaN phase gives. -/
theorem evaluate_of_nan (b : Build) {p : F32} (g : F32) (r : Word) (nan : nanBits32 p) :
    (evaluate b .sine p g r).1 = 0x7FC00000 ∧ (evaluate b .triangle p g r).1 = 0x7FC00000 ∧
      (evaluate b .sawtooth p g r).1 = 0x7FC00000 ∧ (evaluate b .square p g r).1 = neg32 g := by
  have infinite : ¬ finite32 p := fun finite => Fmt.not_isNaN_of_isFinite (f := fmt32) finite nan
  have sine := sin32_of_not_finite b.num infinite
  have times {y : F32} (factor : nanBits32 y) : mul32 g y = 0x7FC00000 := ((f32SpecialResults g y).1 (.inr factor)).2.2.1
  obtain ⟨-, difference, -⟩ := (f32SpecialResults p 0).1 (.inl nan)
  obtain ⟨-, -, -, -, remainder⟩ := (f32SpecialResults p (mul32 two32 one32)).1 (.inl nan)
  refine ⟨times sine, times ?triangle, times ?sawtooth, ?square⟩
  case triangle =>
    rw [pingpong32, remainder, triangle_of_nan_remainder]
    exact nanBits32_nan32
  case sawtooth =>
    rw [inverseLerp32, difference, sawtooth_of_nan_difference]
    exact nanBits32_nan32
  case square =>
    have below : ge0_32 (sin32 b.num p) = false := by rw [ge0_32, isNaN32_iff.1 (nanBits32_iff.1 sine)]
    exact if_neg (ne_true_of_eq_false below)

/-- Settles O46: Square has the magnitude of the gain, and the other samples are products with a number from -1 to 1. -/
theorem oscillatorIsBounded : Obligations.OscillatorIsBounded := by
  intro b p g r
  refine ⟨fun finite nonneg le_one phase w => ?_, fun nan => ?_⟩
  · obtain ⟨neg, q, val⟩ := exists_val32_of_finite32 finite
    have zero := eq_zero_of_real32_nonneg val nonneg
    have gain : real32 g = q / 2 ^ 149 := real32_of_nonneg val zero
    obtain ⟨bits, -, rfl⟩ := Fmt.unpack_fin val
    by_cases square : w = .square
    · subst square
      obtain ⟨result, magnitude⟩ := abs_real32_squareSample b.num p finite nonneg
      exact ⟨result, magnitude.le, fun other => absurd other (by decide), fun _ => magnitude⟩
    · have small := Within32.mul val bits (within32_unitSample b w r phase)
      rw [evaluate_eq_mul32 b p g r square, gain]
      refine ⟨small.finite, small.abs_real_le, fun sawtooth => ?_, fun same => absurd same square⟩
      subst sawtooth
      have finite : p.toNat < fmt32.infMag := by rw [fmt32_infMag]; omega
      exact (NonNeg32.mul val bits zero (nonNeg32_inverseLerp32 finite)).real_nonneg
  · obtain ⟨sine, triangle, sawtooth, square⟩ := evaluate_of_nan b g r nan
    exact ⟨sine, triangle, sawtooth, square, fun _ => rfl⟩

end Sys2Proof.Machine
